-- ==== Sys2Proof/Word.lean ====
section
/-! DEFINITION. The words of the machine: the widths that spec/00_scope.md rule R6 fixes. -/

namespace Sys2Proof

/-- A byte, the smallest addressable unit of every address space (20_memory.md R70). -/
abbrev Byte := BitVec 8

/-- A double word, 32 bits (00_scope.md R13). -/
abbrev Dword := BitVec 32

/-- A segment selector, 16 bits (20_memory.md R80). -/
abbrev Selector := BitVec 16

/-- A linear address, 32 bits (20_memory.md R73). -/
abbrev Linear := BitVec 32

/-- A physical address: 36 bits, the wider of the two widths R6 gives. Translation without PAE yields addresses
below 2^32 only, zero-extended (20_memory.md R71, R72, R126). -/
abbrev PhysAddr := BitVec 36

end Sys2Proof
end

