-- ==== Sys2Proof/Machine/Bits.lean ====
section
/-! DEFINITION. Little-endian assembly of bytes (spec/20_memory.md R76) and the other bit-level helpers. -/

namespace Sys2Proof.Machine

/-- The value of `w` bits that bytes hold, the first byte least significant (R76). -/
def leValue (w : Nat) : List Byte → BitVec w
  | [] => 0
  | b :: bs => b.setWidth w ||| (leValue w bs <<< 8)

/-- The low `n` bytes of a value, least significant first (R76). -/
def leBytes {w : Nat} : Nat → BitVec w → List Byte
  | 0, _ => []
  | n + 1, v => v.setWidth 8 :: leBytes n (v >>> 8)

/-- The low `n` bytes of a number, least significant first. -/
def natBytes : Nat → Nat → List Byte
  | 0, _ => []
  | n + 1, v => BitVec.ofNat 8 v :: natBytes n (v / 256)

/-- One bit as a value of width 1. -/
def bit (b : Bool) : BitVec 1 := BitVec.ofBool b

end Sys2Proof.Machine
end

