-- ==== Sys2Proof/Config.lean ====
section
/-! DEFINITION. What the platform or the implementation fixes (00_scope.md R7, 92_eei_decisions.md "Open parameters")
and the free values: constants with no body, which nothing can evaluate. -/

namespace Sys2Proof

/-- The four kinds `PHYS_MAP` gives a physical address (41_memory_access_ops.md R227). -/
inductive PhysKind where
  | readWrite
  | readOnly
  | io
  | nothing
  deriving DecidableEq, Repr, Inhabited

/-- A run of physical addresses `base .. base + size - 1` of one kind. -/
structure Region where
  base : Nat
  size : Nat
  kind : PhysKind
  deriving DecidableEq, Repr

/-- The exception a not-present stack segment raises: the parameter `SS_NP_EXC` (40_segment_register_ops.md R191, D10). -/
inductive StackNotPresent where
  | np
  | ss
  deriving DecidableEq, Repr, Inhabited

/-- The name of the exception a non-canonical address raises: the parameter `NONCANON_EXC`, "any exception name"
(43_long_mode.md R273, D22). -/
inductive ExcName where
  | gp
  | np
  | ss
  | pf
  | other (number : Nat)
  deriving DecidableEq, Repr, Inhabited

/-- `TLB_POLICY` (20_memory.md R129, D20): `free` is the full nondeterministic cache; `never` and `always` are two of
the behaviours it admits, which spec/95_test_vectors.md uses for deterministic vectors. -/
inductive TlbPolicy where
  | never
  | always
  | free
  deriving DecidableEq, Repr

/-- The parameters of 00_scope.md R7, plain data that no step changes. A claim quantifies over them. -/
structure Platform where
  /-- `PHYS_MAP`: the first region that holds an address gives its kind; an address in none is `nothing`. -/
  physMap : List Region
  /-- `SUPERVISOR_WP` (R127, D17). -/
  supervisorWP : Bool
  /-- `SS_NP_EXC` (R191, D10). -/
  ssNotPresent : StackNotPresent
  /-- `NONCANON_EXC` (R273, D22). -/
  nonCanonical : ExcName
  /-- `HAS_PSE` (R252, D35). -/
  hasPSE : Bool
  /-- `HAS_PAE` (R252, D35). -/
  hasPAE : Bool
  /-- `HAS_PGE` (R252, D35). -/
  hasPGE : Bool
  /-- `TLB_POLICY` (R129, D20). -/
  tlbPolicy : TlbPolicy
  /-- `VA_BITS` (R270, D22). -/
  vaBits : Nat
  deriving DecidableEq, Repr

/-- FREE VALUE (log 3): `SUPERVISOR_WP` of the launch state, which the spec leaves OPEN with no default. -/
opaque Config.launchSupervisorWP : Bool

/-- FREE VALUE (log 3): `SS_NP_EXC` of the launch state, OPEN with no default. -/
opaque Config.launchSsNotPresent : StackNotPresent

/-- FREE VALUE (log 3): `NONCANON_EXC` of the launch state, OPEN with no default. -/
opaque Config.launchNonCanonical : ExcName

/-- FREE VALUE (log 4): the byte a read of memory-mapped I/O at an address returns, at a draw (R37, R227, U18). -/
opaque Config.ioByte : Nat → Nat → Byte

/-- FREE VALUE (log 5): the bits of CR0 and CR4 that the spec does not give, as RDCR reads them at a draw (R253, U10). -/
opaque Config.controlBits : Nat → Dword

/-- FREE VALUE (log 6): at a draw, 0 stands for walking the tables, `k + 1` for answering from the `k`-th record of the
page, where there is one (R129 (b)). -/
opaque Config.tlbPick : Nat → Nat

/-- FREE VALUE (log 6): at a draw, whether a walk that returned adds its record (R129 (a)). -/
opaque Config.tlbFill : Nat → Bool

/-- FREE VALUE (log 7): at a draw, which of the A and D flags (bits 5 and 6, each on its own) that a passed translation set
in an entry stay set when a later part of the same operation faults (R130, R300, U17). -/
opaque Config.flagsStay : Nat → Byte

end Sys2Proof
end

