-- ==== Sys2Proof/Syntax.lean ====
section
/-! DEFINITION. The operations of spec/30_encoding.md R154 and the instructions of its annex R159, one constructor per
row of spec/opcode_table.json, with the forms in which a program holds them. -/

namespace Sys2Proof

/-- The six segment registers (10_state.md R21). -/
inductive SReg where
  | es
  | cs
  | ss
  | ds
  | fs
  | gs
  deriving DecidableEq, Repr, Inhabited

/-- The kind of an access as paging sees it (20_memory.md R126: an instruction fetch is a read). -/
inductive PageAccess where
  | read
  | write
  deriving DecidableEq, Repr, Inhabited

/-- The memory form of a ModRM operand, field by field: the address size it was decoded under, the `mod` and `rm`
fields (R159), and the SIB and displacement bytes that follow (PRESUMED, log 10). -/
structure MemArg where
  a32 : Bool
  mod : BitVec 2
  rm : BitVec 3
  sib : Option Byte
  disp : List Byte
  deriving DecidableEq, Repr

/-- A ModRM operand: a general register (`mod` = 3) or memory. -/
inductive RM where
  | reg (r : BitVec 3)
  | mem (m : MemArg)
  deriving DecidableEq, Repr

/-- One constructor per row of spec/opcode_table.json, in its order. -/
inductive Instr where
  | ldseg (sreg : SReg) (sel : Selector)
  | ldss (sel : Selector)
  | ldcs (sel : Selector)
  | rdsel (sreg : SReg)
  | lgdtr (base : Linear) (limit : BitVec 16)
  | lldtr (sel : Selector)
  | mread (sreg : SReg) (off : Dword) (n : Nat)
  | mwrite (sreg : SReg) (off : Dword) (n : Nat) (v : Dword)
  | mfetch (off : Dword) (n : Nat)
  | spush (n : Nat) (v : Dword)
  | spop (n : Nat)
  | pfx66
  | pfx67
  | wrcr0 (v : Dword)
  | wrcr3 (v : Dword)
  | wrcr4 (v : Dword)
  | rdcr (k : Nat)
  | tasksw
  | maccess64 (va : BitVec 64) (kind : PageAccess)
  | movSregRm16 (sreg : SReg) (src : RM)
  | movRm16Sreg (dst : RM) (sreg : SReg)
  | popEs
  | popSs
  | popDs
  | popFs
  | popGs
  | les (r : BitVec 3) (m : MemArg)
  | lds (r : BitVec 3) (m : MemArg)
  | lss (r : BitVec 3) (m : MemArg)
  | lfs (r : BitVec 3) (m : MemArg)
  | lgs (r : BitVec 3) (m : MemArg)
  | jmpPtr (off : Dword) (sel : Selector)
  | callPtr (off : Dword) (sel : Selector)
  | jmpMem (m : MemArg)
  | callMem (m : MemArg)
  | retf
  | retfImm (imm : BitVec 16)
  | iret
  | lgdt (m : MemArg)
  | sgdt (m : MemArg)
  | lldt (src : RM)
  | sldt (dst : RM)
  | movCrR32 (k : BitVec 3) (r : BitVec 3)
  | movR32Cr (r : BitVec 3) (k : BitVec 3)
  | movEaxMoffs (a32 : Bool) (off : Dword)
  | movAlMoffs (a32 : Bool) (off : Dword)
  | movMoffsEax (a32 : Bool) (off : Dword)
  | movMoffsAl (a32 : Bool) (off : Dword)
  | pushR32 (r : BitVec 3)
  | popR32 (r : BitVec 3)
  | segEs
  | segCs
  | segSs
  | segDs
  | segFs
  | segGs
  deriving DecidableEq, Repr

/-- The mnemonics of R154: what an operation of the spec is called in a program. -/
inductive OpName where
  | LDSEG | LDSS | LDCS | RDSEL | LGDTR | LLDTR | MREAD | MWRITE | MFETCH | SPUSH | SPOP | PFX66 | PFX67
  | WRCR0 | WRCR3 | WRCR4 | RDCR | TASKSW | MACCESS64
  deriving DecidableEq, Repr, Inhabited

/-- An operand of an operation as R152 and R158 write it. -/
inductive Arg where
  | sreg (s : SReg)
  | num (n : Nat)
  | kind (k : PageAccess)
  deriving DecidableEq, Repr

/-- One item of a program: an operation of the spec, which has no bit encoding (R150, R151), as a mnemonic followed by
its operands (R152); or instruction bytes of the annex, in the order they appear in the instruction stream (R159). -/
inductive Item where
  | op (name : OpName) (args : List Arg)
  | code (bytes : List Byte)
  deriving DecidableEq, Repr

end Sys2Proof
end

