-- ==== Sys2Proof/Machine/State.lean ====
section
/-! DEFINITION. The state of spec/10_state.md R20, the model's own fields beside it, the reasons a step stops, and the
launch state `State.reset` (R41; spec/70_reset_and_hazards.md R331). -/

namespace Sys2Proof.Machine

/-- The hidden part of a segment register, field by field (10_state.md R22); LDTR's cached part has the same (R26). -/
structure Hidden where
  valid : Bool
  base : Dword
  limit : BitVec 20
  g : Bool
  typ : BitVec 4
  s : Bool
  dpl : BitVec 2
  p : Bool
  db : Bool
  avl : Bool
  deriving DecidableEq, Repr

/-- A segment descriptor, decoded (20_memory.md R85). -/
structure Descriptor where
  base : Dword
  limit : BitVec 20
  typ : BitVec 4
  s : Bool
  dpl : BitVec 2
  p : Bool
  avl : Bool
  db : Bool
  g : Bool
  deriving DecidableEq, Repr

/-- A register with a visible selector and a hidden part (R21, R26). -/
structure SegReg where
  sel : Selector
  h : Hidden
  deriving DecidableEq, Repr

/-- The six segment registers (R21). -/
structure SegFile where
  es : SegReg
  cs : SegReg
  ss : SegReg
  ds : SegReg
  fs : SegReg
  gs : SegReg
  deriving DecidableEq, Repr

/-- GDTR (R25). -/
structure Gdtr where
  base : Linear
  limit : BitVec 16
  deriving DecidableEq, Repr

/-- The flags of CR4 that the spec describes (R29). -/
structure Cr4 where
  pse : Bool
  pae : Bool
  pge : Bool
  deriving DecidableEq, Repr

/-- The two sizes of page of 32-bit paging (R36). -/
inductive PageSize where
  | kb4
  | mb4
  deriving DecidableEq, Repr

/-- A TLB record (R36). `linPage` is `lin[31:12]`, or `lin[31:22]` zero-extended for a 4-MByte page (20_memory.md R129). -/
structure TlbRecord where
  linPage : BitVec 20
  size : PageSize
  physBase : Dword
  rw : Bool
  us : Bool
  global : Bool
  dirty : Bool
  deriving DecidableEq, Repr

/-- Physical memory: the bytes that differ from what an unlisted address reads as, addresses strictly rising. -/
abbrev Memory := List Host.Cell

/-- The level of an access, for paging (20_memory.md R127 (b)). -/
inductive Level where
  | user
  | supervisor
  deriving DecidableEq, Repr

/-- The general registers the annex names, but ESP, which the spec's own state holds (log 9). -/
structure Gpr where
  eax : Dword
  ecx : Dword
  edx : Dword
  ebx : Dword
  ebp : Dword
  esi : Dword
  edi : Dword
  deriving DecidableEq, Repr

/-- The prefixes seen since the last instruction (30_encoding.md R155, log 11). -/
structure Pending where
  op66 : Bool
  addr67 : Bool
  seg : Option SReg
  deriving DecidableEq, Repr

/-- What an operation returns (10_state.md R32, log 1): nothing, a value of `n` bytes, the bytes of a fetch, or the
offset at which a far transfer continues, the operand of the next MFETCH (40_segment_register_ops.md R192). -/
inductive Result where
  | none
  | value (n : Nat) (v : Dword)
  | bytes (l : List Byte)
  | target (off : Dword)
  deriving DecidableEq, Repr

/-- One event of the schedule: the processor's next item, a write by the environment agent between two steps
(20_memory.md R131), or a TLB record vanishing (R129 (c)). -/
inductive Event where
  | processor (item : Item)
  | environment (pa : PhysAddr) (b : Byte)
  | tlbDrop (index : Nat)
  deriving DecidableEq, Repr

/-- The whole state. The first block is 10_state.md R20, whole; the second is the model's own (INVENTORY.md). -/
structure State where
  /-- The segment registers (R21 to R24). -/
  segs : SegFile
  /-- GDTR (R25). -/
  gdtr : Gdtr
  /-- LDTR, its selector and cached descriptor (R26). -/
  ldtr : SegReg
  /-- CR0.PG (R27). -/
  pg : Bool
  /-- CR3 (R28). -/
  cr3 : Dword
  /-- CR4.PSE, CR4.PAE, CR4.PGE (R29). -/
  cr4 : Cr4
  /-- ESP; SP is its low 16 bits (R31). -/
  esp : Dword
  /-- CPL (R33). -/
  cpl : BitVec 2
  /-- The TLB (R36). -/
  tlb : List TlbRecord
  /-- Physical memory (R37). -/
  mem : Memory
  /-- The parameters of 00_scope.md R7. -/
  platform : Platform
  /-- The annex's general registers (log 9). -/
  gpr : Gpr
  /-- Pending prefixes (log 11). -/
  pfx : Pending
  /-- What the last operation returned (log 1). -/
  result : Result
  /-- Writes handed to the environment by memory-mapped I/O, oldest first (41_memory_access_ops.md R227, log 4). -/
  ioOut : List (Nat × Byte)
  /-- How many free values have been drawn (log 4 to log 7). -/
  draws : Nat
  /-- The schedule (log 1). -/
  queue : List Event
  deriving DecidableEq, Repr

/-- Why an operation ends in an exception. Every constructor is an exception of 60_exceptions.md R290, raised where the
spec's pseudocode raises it, and holds `left`: the state the exception leaves (R300). Stopping is safe: the model enters
no handler, as R301 says. -/
inductive Fault where
  /-- `#GP(code)` (R291, R294): raised by a failed load check, a segment-level violation through a register other than SS,
  or a privileged operation at CPL other than 0. Safe. -/
  | generalProtection (code : BitVec 16) (left : State)
  /-- `#NP(code)` (R292): raised by a load that names a descriptor with P = 0. Safe. -/
  | segmentNotPresent (code : BitVec 16) (left : State)
  /-- `#SS(code)` (R295): raised by a segment-level violation through SS, and by LDSS where `SS_NP_EXC` is #SS. Safe. -/
  | stackFault (code : BitVec 16) (left : State)
  /-- `#PF(lin, kind, lvl, present)` (R293): raised by a translation. Safe. -/
  | pageFault (lin : Linear) (kind : PageAccess) (lvl : Level) (present : Bool) (left : State)
  /-- `NONCANON_EXC` (R296), under the name the platform gives it: raised by MACCESS64. Safe. -/
  | nonCanonical (name : ExcName) (left : State)
  deriving DecidableEq, Repr

/-- Why an item of a program is no instruction. -/
inductive DecodeError where
  /-- No bytes. -/
  | empty
  /-- The bytes end inside the instruction. -/
  | truncated
  /-- The annex has no such opcode (30_encoding.md R159; there is no other instruction set, R150). -/
  | unknownOpcode (first : Byte)
  /-- A form the annex's row does not have: CS as the destination of MOV, a register where only memory may stand, a
  control register other than 0, 3, 4, a segment register number above 5. -/
  | invalidForm (first : Byte)
  /-- The operands are not those of the operation's format (R152). -/
  | badOperands (name : OpName)
  /-- An operand lies outside the range R152 gives it. -/
  | operandRange (name : OpName)
  deriving DecidableEq, Repr

/-- Why the model gives no next state: the `refuse(reason)` of 00_scope.md R11, and what is no program. -/
inductive Refusal where
  /-- An instruction with no meaning yet. Raised by exec's arms alone. Safe. -/
  | notModelled (mnemonic : String)
  /-- `refuse(PAE)` (20_memory.md R118, D21): raised by a translation with PG = 1 and PAE = 1. Safe. -/
  | pae
  /-- `refuse(reserved_bit)` (R93, R97, R125, D27): raised by a descriptor fetch or a walk. Safe. -/
  | reservedBit
  /-- `refuse(gate_or_tss)` (40_segment_register_ops.md R192): raised by a CS load that names an S = 0 descriptor. Safe. -/
  | gateOrTss
  /-- `refuse(privilege_change)` (R192, R306): raised by a far return to an outer level. Safe. -/
  | privilegeChange
  /-- `refuse(unbacked_physical_address)` (41_memory_access_ops.md R227, D31): raised by an access to an address with nothing
  behind it, or a walk that meets a table in memory-mapped I/O. Safe. -/
  | unbacked (pa : PhysAddr)
  /-- `refuse(task_switch)` (42_paging_control_ops.md R254), raised by TASKSW after its one stated effect, which `left`
  holds. Safe. -/
  | taskSwitch (left : State)
  /-- What a far call or a far return does besides its CS load (30_encoding.md R159: "only the CS load is within this spec; the
  rest is refused"): raised by CALL, RETF and IRET after the CS load, and `left` holds the state with that load. Safe. -/
  | farTransfer (left : State)
  /-- `refuse(long_mode_translation)` (43_long_mode.md R273, D22): raised by MACCESS64 on a canonical address. Safe. -/
  | longModeTranslation
  /-- The item is no instruction of the table. Raised by the decoder. Safe. -/
  | undecodable (e : DecodeError)
  /-- The schedule holds no further event (log 1). Raised by step. Safe. -/
  | endOfProgram
  deriving DecidableEq, Repr

/-- A hidden part never loaded: not valid (R22). -/
def Hidden.unloaded : Hidden :=
  { valid := false, base := 0, limit := 0, g := false, typ := 0, s := false, dpl := 0, p := false, db := false, avl := false }

/-- A flat 32-bit segment of the given type at level 0 (95_test_vectors.md P1, K1, K2 after loading). -/
def Hidden.flat (typ : BitVec 4) : Hidden :=
  { valid := true, base := 0, limit := 0xFFFFF, g := true, typ := typ, s := true, dpl := 0, p := true, db := true, avl := false }

/-- No prefix pending. -/
def Pending.none : Pending := { op66 := false, addr67 := false, seg := Option.none }

/-- A register holding the null selector (20_memory.md R81). -/
def SegReg.null : SegReg := { sel := 0, h := Hidden.unloaded }

/-- The parameters of the launch: the defaults of 92_eei_decisions.md "Open parameters", free where it gives none (log 3). -/
def launchPlatform : Platform :=
  { physMap := [{ base := 0, size := 2 ^ 32, kind := .readWrite }]
    supervisorWP := Config.launchSupervisorWP
    ssNotPresent := Config.launchSsNotPresent
    nonCanonical := Config.launchNonCanonical
    hasPSE := true
    hasPAE := true
    hasPGE := true
    tlbPolicy := .free
    vaBits := 48 }

/-- The machine at the first modelled step. No source gives a reset value (R41): this is a launch state that meets the
premises of R331, the launch of program P1 of 95_test_vectors.md (DESIGN CHOICE, log 2; general registers PRESUMED, log 9). -/
def State.reset : State :=
  { segs :=
      { es := SegReg.null
        cs := { sel := 0x0008, h := Hidden.flat 0xB }
        ss := { sel := 0x0010, h := Hidden.flat 0x3 }
        ds := SegReg.null
        fs := SegReg.null
        gs := SegReg.null }
    gdtr := { base := 0, limit := 0 }
    ldtr := SegReg.null
    pg := false
    cr3 := 0
    cr4 := { pse := false, pae := false, pge := false }
    esp := 0
    cpl := 0
    tlb := []
    mem := []
    platform := launchPlatform
    gpr := { eax := 0, ecx := 0, edx := 0x00000633, ebx := 0, ebp := 0, esi := 0, edi := 0 }
    pfx := Pending.none
    result := Result.none
    ioOut := []
    draws := 0
    queue := [] }

/-- A segment register by name (R21). -/
def SegFile.get (f : SegFile) : SReg → SegReg
  | .es => f.es
  | .cs => f.cs
  | .ss => f.ss
  | .ds => f.ds
  | .fs => f.fs
  | .gs => f.gs

/-- Replace a segment register by name. -/
def SegFile.set (f : SegFile) (r : SReg) (v : SegReg) : SegFile :=
  match r with
  | .es => { f with es := v }
  | .cs => { f with cs := v }
  | .ss => { f with ss := v }
  | .ds => { f with ds := v }
  | .fs => { f with fs := v }
  | .gs => { f with gs := v }

/-- `seg[r]`. -/
def State.seg (s : State) (r : SReg) : SegReg := s.segs.get r

/-- The update of one segment register. -/
def State.setSeg (s : State) (r : SReg) (v : SegReg) : State := { s with segs := s.segs.set r v }

/-- The update of memory. -/
def State.setMem (s : State) (m : Memory) : State := { s with mem := m }

/-- The update of the TLB. -/
def State.setTlb (s : State) (t : List TlbRecord) : State := { s with tlb := t }

/-- The update of ESP. -/
def State.setEsp (s : State) (v : Dword) : State := { s with esp := v }

/-- The update of the annex's general registers. -/
def State.setGpr (s : State) (g : Gpr) : State := { s with gpr := g }

/-- One free value drawn. -/
def State.tick (s : State) : State := { s with draws := s.draws + 1 }

/-- The update of the bytes handed to the environment. -/
def State.setIoOut (s : State) (l : List (Nat × Byte)) : State := { s with ioOut := l }

/-- An operation completed: it returned `r`, and prefixes reach no further (30_encoding.md R155). -/
def State.finish (s : State) (r : Result) : State := { s with result := r, pfx := Pending.none }

/-- The update of the schedule. -/
def State.setQueue (s : State) (q : List Event) : State := { s with queue := q }

end Sys2Proof.Machine
end

