-- ==== Sys2Proof/Machine/Memory.lean ====
section
/-! DEFINITION. Physical memory as a list of cells in canonical form: addresses strictly rising, no cell equal to what an
unlisted address reads as (spec/10_state.md R37; log 2). -/

namespace Sys2Proof.Machine

/-- What an unlisted address reads as: 0x00, the convention of 95_test_vectors.md (DESIGN CHOICE, log 2). -/
def unlistedByte : Byte := 0

/-- Every address is at least `lo`, addresses rise, and no cell holds the unlisted byte. -/
def Memory.wfFrom (lo : Nat) : Memory → Bool
  | [] => true
  | (a, b) :: m => decide (lo ≤ a) && b != unlistedByte && Memory.wfFrom (a + 1) m

/-- The canonical form. -/
def Memory.wf (m : Memory) : Bool := Memory.wfFrom 0 m

/-- The byte at an address. -/
def Memory.read : Memory → Nat → Byte
  | [], _ => unlistedByte
  | (k, b) :: m, a => if a = k then b else Memory.read m a

/-- Store a byte, keeping the canonical form. -/
def Memory.write : Memory → Nat → Byte → Memory
  | [], a, b => if b = unlistedByte then [] else [(a, b)]
  | (k, x) :: m, a, b =>
    if a < k then (if b = unlistedByte then (k, x) :: m else (a, b) :: (k, x) :: m)
    else if a = k then (if b = unlistedByte then m else (a, b) :: m)
    else (k, x) :: Memory.write m a b

end Sys2Proof.Machine
end

