-- ==== Sys2Proof/Machine/Ops.lean ====
section
/-! DEFINITION. How an operation runs: its context, raising an exception (spec/60_exceptions.md R300), free draws, and
the physical accesses of spec/41_memory_access_ops.md R227. -/

namespace Sys2Proof.Machine

/-- The context of a running operation: `cur`, the state it has built so far, and `kept`, the state an exception would
leave: the one before the operation but for A and D flags and TLB records of translations that passed (R300). -/
structure Ctx where
  cur : State
  kept : State
  deriving DecidableEq, Repr

/-- Why an operation ends without a next state. -/
inductive Stop where
  | fault (f : Fault)
  | refused (r : Refusal)
  deriving DecidableEq, Repr

/-- The context in which an operation begins. -/
def Ctx.start (s : State) : Ctx := { cur := s, kept := s }

/-- Change the state built so far, and not what an exception leaves. -/
def Ctx.onCur (c : Ctx) (f : State → State) : Ctx := { c with cur := f c.cur }

/-- Draw a free value: the counter advances in both states. -/
def Ctx.tick (c : Ctx) : Ctx := { cur := c.cur.tick, kept := c.kept.tick }

/-- TAKING AN EXCEPTION (00_scope.md R11 `raise`, 60_exceptions.md R300): the operation ends with the fault, which holds the
state it leaves. No source describes entry to a handler (R301), and none a return (R302), so there is no more to it. -/
def raise {α : Type} (f : State → Fault) (c : Ctx) : Except Stop α := .error (.fault (f c.kept))

/-- `refuse(reason)` (00_scope.md R11). -/
def refuse {α : Type} (r : Refusal) : Except Stop α := .error (.refused r)

/-- Run an operation from a state: what it returns goes into `result`, pending prefixes end (30_encoding.md R155). -/
def runOp (f : Ctx → Except Stop (Result × Ctx)) (s : State) : Host.Outcome State Fault Refusal :=
  match f (Ctx.start s) with
  | .ok (r, c) => .next (c.cur.finish r)
  | .error (.fault x) => .fault x
  | .error (.refused r) => .refused r

/-- The state an exception leaves. -/
def Fault.left : Fault → State
  | .generalProtection _ s | .segmentNotPresent _ s | .stackFault _ s | .pageFault _ _ _ _ s | .nonCanonical _ s => s

/-- The same exception, leaving another state. -/
def Fault.withLeft (f : Fault) (t : State) : Fault :=
  match f with
  | .generalProtection c _ => .generalProtection c t
  | .segmentNotPresent c _ => .segmentNotPresent c t
  | .stackFault c _ => .stackFault c t
  | .pageFault l k v p _ => .pageFault l k v p t
  | .nonCanonical n _ => .nonCanonical n t

/-- The vector number of an exception (R290, R295), from general knowledge; no rule reads it. -/
def Fault.vector : Fault → Option Nat
  | .generalProtection _ _ => some 13
  | .segmentNotPresent _ _ => some 11
  | .stackFault _ _ => some 12
  | .pageFault _ _ _ _ _ => some 14
  | .nonCanonical n _ =>
    match n with
    | .gp => some 13
    | .np => some 11
    | .ss => some 12
    | .pf => some 14
    | .other k => some k

/-- The error code the hardware pushes, from general knowledge (R293, R294); no rule reads it. `NONCANON_EXC` is reported with
none, whatever name the platform gives it: R273 raises it with no argument, and R294 gives codes to `#GP`, `#NP` and `#SS` as
this spec raises them (DESIGN CHOICE, log 20). -/
def Fault.errorCode : Fault → Option Nat
  | .generalProtection c _ | .segmentNotPresent c _ | .stackFault c _ => some c.toNat
  | .pageFault _ k v p _ =>
    some ((if p then 1 else 0) + (if k = .write then 2 else 0) + (if v = .user then 4 else 0))
  | .nonCanonical _ _ => none

/-- The kind of a physical address under `PHYS_MAP`: that of the first region that holds it (R227, D31). -/
def physKindIn (regions : List Region) (a : Nat) : PhysKind :=
  match regions with
  | [] => .nothing
  | r :: rs => if r.base ≤ a ∧ a < r.base + r.size then r.kind else physKindIn rs a

/-- The kind of a physical address. -/
def State.kindAt (s : State) (pa : PhysAddr) : PhysKind := physKindIn s.platform.physMap pa.toNat

/-- The byte of memory at a physical address. -/
def State.byteAt (s : State) (pa : PhysAddr) : Byte := s.mem.read pa.toNat

/-- `PhysRead` of one byte (R227): stored in memory, drawn by the environment from I/O, refused where nothing is. -/
def physReadByte (pa : PhysAddr) (c : Ctx) : Except Stop (Byte × Ctx) :=
  match c.cur.kindAt pa with
  | .readWrite | .readOnly => .ok (c.cur.byteAt pa, c)
  | .io => .ok (Config.ioByte pa.toNat c.cur.draws, c.tick)
  | .nothing => refuse (.unbacked pa)

/-- `PhysWrite` of one byte (R227): stored, dropped by read-only memory, handed to the environment, or refused. -/
def physWriteByte (pa : PhysAddr) (b : Byte) (c : Ctx) : Except Stop Ctx :=
  match c.cur.kindAt pa with
  | .readWrite => .ok (c.onCur fun s => s.setMem (s.mem.write pa.toNat b))
  | .readOnly => .ok c
  | .io => .ok (c.onCur fun s => s.setIoOut (s.ioOut ++ [(pa.toNat, b)]))
  | .nothing => refuse (.unbacked pa)

/-- Write bytes to physical addresses, in order. -/
def physWriteBytes : List PhysAddr → List Byte → Ctx → Except Stop Ctx
  | pa :: pas, b :: bs, c => do
    let c ← physWriteByte pa b c
    physWriteBytes pas bs c
  | _, _, c => .ok c

/-- One byte of a paging structure: the walk's reads go through `PhysRead`, and a walk that meets a table in
memory-mapped I/O or in nothing is refused (R227, U19). -/
def tableByte (pa : PhysAddr) (c : Ctx) : Except Stop Byte :=
  match c.cur.kindAt pa with
  | .readWrite | .readOnly => .ok (c.cur.byteAt pa)
  | .io | .nothing => refuse (.unbacked pa)

/-- A PDE or PTE, 4 bytes little-endian (20_memory.md R76, R78, R111). -/
def readEntry (pa : PhysAddr) (c : Ctx) : Except Stop Dword := do
  let b0 ← tableByte pa c
  let b1 ← tableByte (pa + 1) c
  let b2 ← tableByte (pa + 2) c
  let b3 ← tableByte (pa + 3) c
  .ok (leValue 32 [b0, b1, b2, b3])

/-- A general register by number; number 4 is ESP (PRESUMED, log 9). -/
def State.reg (s : State) (r : BitVec 3) : Dword :=
  if r = 0#3 then s.gpr.eax
  else if r = 1#3 then s.gpr.ecx
  else if r = 2#3 then s.gpr.edx
  else if r = 3#3 then s.gpr.ebx
  else if r = 4#3 then s.esp
  else if r = 5#3 then s.gpr.ebp
  else if r = 6#3 then s.gpr.esi
  else s.gpr.edi

/-- Write a general register by number; number 4 is ESP (PRESUMED, log 9). -/
def State.setReg (s : State) (r : BitVec 3) (v : Dword) : State :=
  if r = 0#3 then s.setGpr { s.gpr with eax := v }
  else if r = 1#3 then s.setGpr { s.gpr with ecx := v }
  else if r = 2#3 then s.setGpr { s.gpr with edx := v }
  else if r = 3#3 then s.setGpr { s.gpr with ebx := v }
  else if r = 4#3 then s.setEsp v
  else if r = 5#3 then s.setGpr { s.gpr with ebp := v }
  else if r = 6#3 then s.setGpr { s.gpr with esi := v }
  else s.setGpr { s.gpr with edi := v }

/-- Write the low `n` bytes of a general register and keep the rest (PRESUMED, log 9). -/
def State.setRegLow (s : State) (r : BitVec 3) (n : Nat) (v : Dword) : State :=
  if n = 1 then s.setReg r ((s.reg r &&& 0xFFFFFF00) ||| (v &&& 0xFF))
  else if n = 2 then s.setReg r ((s.reg r &&& 0xFFFF0000) ||| (v &&& 0xFFFF))
  else s.setReg r v

end Sys2Proof.Machine
end

