-- ==== Sys2Proof/Machine/Flags.lean ====
section
/-! DEFINITION. The flags of a page-directory or page-table entry (spec/20_memory.md R113 to R125), the rights they give
(R127) and the processor's writes to A and D (R128). There are no status flags (spec/10_state.md R34). -/

namespace Sys2Proof.Machine

/-- P, bit 0 (R115). -/
def entryP (e : Dword) : Bool := e.getLsbD 0

/-- R/W, bit 1 (R116). -/
def entryRW (e : Dword) : Bool := e.getLsbD 1

/-- U/S, bit 2 (R117). -/
def entryUS (e : Dword) : Bool := e.getLsbD 2

/-- A, bit 5 (R121). -/
def entryA (e : Dword) : Bool := e.getLsbD 5

/-- D, bit 6 (R122); reserved in a PDE that points to a page table (R125). -/
def entryD (e : Dword) : Bool := e.getLsbD 6

/-- PS of a PDE, bit 7 (R123); reserved in a PTE (R125). -/
def entryPS (e : Dword) : Bool := e.getLsbD 7

/-- G, bit 8 (R124). -/
def entryG (e : Dword) : Bool := e.getLsbD 8

/-- The 20 most significant bits of the address an entry holds (R114). -/
def entryFrame (e : Dword) : BitVec 20 := e.extractLsb' 12 20

/-- `Permitted(kind, lvl, rw, us)` (R127 (c)). -/
def permitted (supervisorWP : Bool) (kind : PageAccess) (lvl : Level) (rw us : Bool) : Bool :=
  match lvl, kind with
  | .supervisor, .read => true
  | .supervisor, .write => rw || !supervisorWP
  | .user, .read => us
  | .user, .write => us && rw

/-- The A and D bits to set, as they lie in an entry's first byte (R121, R122, R76). -/
def flagMask (d : Bool) : Byte := if d then 0x60 else 0x20

/-- Set the bits of a mask in the first byte of the entry at `pa`, where that changes it: `PhysWrite` stores to read-write
memory and nowhere else (R128, R227). The entry's other three bytes do not change. -/
def State.orFlags (s : State) (pa : PhysAddr) (mask : Byte) : State :=
  if s.kindAt pa = .readWrite ∧ s.byteAt pa ||| mask ≠ s.byteAt pa then s.setMem (s.mem.write pa.toNat (s.byteAt pa ||| mask))
  else s

/-- `SetFlags(entry_pa, A = 1, D)` (R128): a write only where a flag changes. Which of the flags stay set if a later part of the
operation faults is a free value, A and D each on its own (R130, R300, U17, log 7). -/
def setFlags (pa : PhysAddr) (d : Bool) (c : Ctx) : Ctx :=
  if c.cur.byteAt pa ||| flagMask d = c.cur.byteAt pa then c
  else
    Ctx.tick
      { cur := c.cur.orFlags pa (flagMask d)
        kept := c.kept.orFlags pa (flagMask d &&& Config.flagsStay c.cur.draws) }

end Sys2Proof.Machine
end

