-- ==== Sys2Proof/Machine/Paging.lean ====
section
/-! DEFINITION. Linear-to-physical translation: the walk of spec/20_memory.md R126, the TLB of R129, and the linear
accesses of R126 and R130. -/

namespace Sys2Proof.Machine

/-- What a translation yields: the physical address, and how many low bits of the linear address the page spans. -/
structure Xlat where
  pa : PhysAddr
  span : Nat
  deriving DecidableEq, Repr

/-- The level of a program's access (R127 (b)). -/
def State.level (s : State) : Level := if s.cpl = 3#2 then .user else .supervisor

/-- Directory index, `lin[31:22]` (R112). -/
def dirIndex (lin : Linear) : BitVec 10 := lin.extractLsb' 22 10

/-- Table index, `lin[21:12]` (R112). -/
def tableIndex (lin : Linear) : BitVec 10 := lin.extractLsb' 12 10

/-- The address of entry `i` of the table at frame `f`: `(f << 12) | (i << 2)` (R126, R136 (e)). -/
def entryAddr (frame : BitVec 20) (i : BitVec 10) : PhysAddr := (frame ++ i ++ (0 : BitVec 2) : BitVec 32).setWidth 36

/-- The address of the PDE of a linear address; the root is `CR3[31:12]` (R126, 10_state.md R28). -/
def State.pdeAddr (s : State) (lin : Linear) : PhysAddr := entryAddr (s.cr3.extractLsb' 12 20) (dirIndex lin)

/-- The address of the PTE that a PDE leads to (R126). -/
def pteAddr (pde : Dword) (lin : Linear) : PhysAddr := entryAddr (entryFrame pde) (tableIndex lin)

/-- The page base of a 4-MByte PDE, `pde[31:22] << 22` (R126). -/
def bigFrame (pde : Dword) : Dword := pde &&& 0xFFC00000

/-- The page base of a PTE, `pte[31:12] << 12` (R126). -/
def smallFrame (pte : Dword) : Dword := pte &&& 0xFFFFF000

/-- The page of a linear address, as a TLB record of that size names it (R129 (a)). -/
def pageOf (size : PageSize) (lin : Linear) : BitVec 20 :=
  match size with
  | .kb4 => lin.extractLsb' 12 20
  | .mb4 => (dirIndex lin).setWidth 20

/-- How many low bits a page of that size spans. -/
def PageSize.span : PageSize → Nat
  | .kb4 => 12
  | .mb4 => 22

/-- Frame and page offset, concatenated (R136 (f)). -/
def xlatOf (size : PageSize) (frame : Dword) (lin : Linear) : Xlat :=
  match size with
  | .kb4 => { pa := (frame ||| (lin &&& 0xFFF)).setWidth 36, span := 12 }
  | .mb4 => { pa := (frame ||| (lin &&& 0x3FFFFF)).setWidth 36, span := 22 }

/-- Whether a record is for the page of `lin`. -/
def TlbRecord.covers (r : TlbRecord) (lin : Linear) : Bool := r.linPage == pageOf r.size lin

/-- The record a translation answers from, if any (R129 (b)): the platform's policy decides, and `free` leaves the choice
among walking and every record of the page to a free value (log 6). -/
def tlbPick (lin : Linear) (c : Ctx) : Option TlbRecord × Ctx :=
  let here := c.cur.tlb.filter (·.covers lin)
  if here = [] then (none, c)
  else
    match c.cur.platform.tlbPolicy with
    | .never => (none, c)
    | .always => (here.head?, c)
    | .free =>
      match Config.tlbPick c.cur.draws with
      | 0 => (none, c.tick)
      | k + 1 => (here[k]?, c.tick)

/-- Add a record to the set. -/
def addRecord (r : TlbRecord) (t : List TlbRecord) : List TlbRecord := if r ∈ t then t else r :: t

/-- Add a record to both states of the context: records may have been added when an exception follows (R300). The record is the
same in both: one made by a write keeps `dirty = 1` where an exception follows and the D flag of that write does not stay
(DESIGN CHOICE, log 7: R129 (a), R130 and R300 do not say which). -/
def Ctx.addRecord (c : Ctx) (r : TlbRecord) : Ctx :=
  { cur := c.cur.setTlb (Machine.addRecord r c.cur.tlb), kept := c.kept.setTlb (Machine.addRecord r c.kept.tlb) }

/-- After a walk that returned, a record may be added (R129 (a)). -/
def tlbFill (r : TlbRecord) (c : Ctx) : Ctx :=
  match c.cur.platform.tlbPolicy with
  | .never => c
  | .always => c.addRecord r
  | .free => if Config.tlbFill c.cur.draws then (c.addRecord r).tick else c.tick

/-- The D flag, as memory holds it after the walk (R129 (a), `dirty`). -/
def State.dirtyAt (s : State) (pa : PhysAddr) : Bool := (s.byteAt pa).getLsbD 6

/-- The last part of the walk for a 4-MByte page (R126): `pde[21:12]` must be 0, the rights of the PDE alone hold (R127 (a)). -/
def walkBig (lin : Linear) (kind : PageAccess) (lvl : Level) (pde : Dword) (c : Ctx) : Except Stop (Xlat × Ctx) :=
  if pde.extractLsb' 12 10 ≠ 0#10 then refuse .reservedBit
  else if !permitted c.cur.platform.supervisorWP kind lvl (entryRW pde) (entryUS pde) then
    raise (.pageFault lin kind lvl true) c
  else
    let pa := c.cur.pdeAddr lin
    let c := setFlags pa (kind == .write) c
    let r : TlbRecord :=
      { linPage := pageOf .mb4 lin, size := .mb4, physBase := bigFrame pde, rw := entryRW pde, us := entryUS pde
        global := entryG pde, dirty := c.cur.dirtyAt pa }
    .ok (xlatOf .mb4 (bigFrame pde) lin, tlbFill r c)

/-- The last part of the walk through a page table (R126): bit 6 of the PDE and bit 7 of the PTE must be 0 (R125), the
rights of the two levels combine by AND (R127 (a)). -/
def walkSmall (lin : Linear) (kind : PageAccess) (lvl : Level) (pde : Dword) (c : Ctx) : Except Stop (Xlat × Ctx) := do
  if entryD pde then refuse .reservedBit
  else
    let pa := pteAddr pde lin
    let pte ← readEntry pa c
    if !entryP pte then raise (.pageFault lin kind lvl false) c
    else if entryPS pte then refuse .reservedBit
    else
      let rw := entryRW pde && entryRW pte
      let us := entryUS pde && entryUS pte
      if !permitted c.cur.platform.supervisorWP kind lvl rw us then raise (.pageFault lin kind lvl true) c
      else
        let c := setFlags pa (kind == .write) (setFlags (c.cur.pdeAddr lin) false c)
        let r : TlbRecord :=
          { linPage := pageOf .kb4 lin, size := .kb4, physBase := smallFrame pte, rw := rw, us := us
            global := entryG pte, dirty := c.cur.dirtyAt pa }
        .ok (xlatOf .kb4 (smallFrame pte) lin, tlbFill r c)

/-- The table walk (R126). PS takes effect only with CR4.PSE = 1 (R123). -/
def walk (lin : Linear) (kind : PageAccess) (lvl : Level) (c : Ctx) : Except Stop (Xlat × Ctx) := do
  let pde ← readEntry (c.cur.pdeAddr lin) c
  if !entryP pde then raise (.pageFault lin kind lvl false) c
  else if c.cur.cr4.pse && entryPS pde then walkBig lin kind lvl pde c
  else walkSmall lin kind lvl pde c

/-- The address a record gives. -/
def TlbRecord.xlat (r : TlbRecord) (lin : Linear) : Xlat := xlatOf r.size r.physBase lin

/-- `Translate(lin, kind, lvl)` (R126), with the TLB in the walk's place where R129 (b) lets it stand. -/
def translate (lin : Linear) (kind : PageAccess) (lvl : Level) (c : Ctx) : Except Stop (Xlat × Ctx) :=
  if !c.cur.pg then .ok ({ pa := lin.setWidth 36, span := 12 }, c)
  else if c.cur.cr4.pae then refuse .pae
  else
    match tlbPick lin c with
    | (some r, c) =>
      if !permitted c.cur.platform.supervisorWP kind lvl r.rw r.us then raise (.pageFault lin kind lvl true) c
      else if kind == .read || r.dirty then .ok (r.xlat lin, c)
      else walk lin kind lvl c
    | (none, c) => walk lin kind lvl c

/-- Whether a byte lies in the page of the one before it. -/
def samePage (span : Nat) (a b : Linear) : Bool := a >>> span == b >>> span

/-- The translation of the next byte: shared with the byte before it in one page (R126, R130), its own otherwise. -/
def nextXlat (kind : PageAccess) (lvl : Level) (la : Linear) (prev : Option (Linear × Xlat)) (c : Ctx) :
    Except Stop (Xlat × Ctx) :=
  match prev with
  | some (pl, x) => if samePage x.span pl la then .ok ({ x with pa := x.pa + 1 }, c) else translate la kind lvl c
  | none => translate la kind lvl c

/-- The physical addresses of `n` bytes from `la` on, `la + i` modulo 2^32 (R126, R130). -/
def translateBytes (kind : PageAccess) (lvl : Level) :
    Nat → Linear → Option (Linear × Xlat) → Ctx → Except Stop (List PhysAddr × Ctx)
  | 0, _, _, c => .ok ([], c)
  | n + 1, la, prev, c => do
    let (x, c) ← nextXlat kind lvl la prev c
    let (pas, c) ← translateBytes kind lvl n (la + 1) (some (la, x)) c
    .ok (x.pa :: pas, c)

/-- The bytes of `LinRead` from `la` on, `la + i` modulo 2^32: each byte is translated and then read, before the next one is
(R126). -/
def linReadFrom (lvl : Level) : Nat → Linear → Option (Linear × Xlat) → Ctx → Except Stop (List Byte × Ctx)
  | 0, _, _, c => .ok ([], c)
  | n + 1, la, prev, c => do
    let (x, c) ← nextXlat .read lvl la prev c
    let (b, c) ← physReadByte x.pa c
    let (bs, c) ← linReadFrom lvl n (la + 1) (some (la, x)) c
    .ok (b :: bs, c)

/-- `LinRead(la, n, lvl)` (R126). -/
def linRead (la : Linear) (n : Nat) (lvl : Level) (c : Ctx) : Except Stop (List Byte × Ctx) := linReadFrom lvl n la none c

/-- `LinWrite(la, n, v, lvl)` (R126): every byte is translated first, then the bytes are written (R130). -/
def linWrite (la : Linear) (bytes : List Byte) (lvl : Level) (c : Ctx) : Except Stop Ctx := do
  let (pas, c) ← translateBytes .write lvl bytes.length la none c
  physWriteBytes pas bytes c

/-- What WRCR3 and TASKSW leave of the TLB (R129 (d)): with CR4.PGE = 1 the global records, else nothing. -/
def State.flushNonGlobal (s : State) : State := s.setTlb (if s.cr4.pge then s.tlb.filter (·.global) else [])

end Sys2Proof.Machine
end

