-- ==== Sys2Proof/Machine/Segmentation.lean ====
section
/-! DEFINITION. Selectors, descriptors and logical-to-linear translation (spec/20_memory.md R80 to R102), the descriptor
fetch (R97), and the privilege and accessed-bit rules of spec/40_segment_register_ops.md R196, R197. -/

namespace Sys2Proof.Machine

/-- Index, bits 15:3 (R80). -/
def selIndex (sel : Selector) : BitVec 13 := sel.extractLsb' 3 13

/-- TI, bit 2 (R80). -/
def selTI (sel : Selector) : Bool := sel.getLsbD 2

/-- RPL, bits 1:0 (R80). -/
def selRPL (sel : Selector) : BitVec 2 := sel.extractLsb' 0 2

/-- `IsNull(sel)` (R81). -/
def isNull (sel : Selector) : Bool := sel.extractLsb' 2 14 == 0#14

/-- The error code that names a selector, `sel & 0xFFFC` (60_exceptions.md R294). -/
def selCode (sel : Selector) : BitVec 16 := sel &&& 0xFFFC

/-- `EffLimit(limit, G)` (R86). -/
def effLimit (limit : BitVec 20) (g : Bool) : Dword :=
  if g then (limit.setWidth 32 <<< 12) ||| 0xFFF else limit.setWidth 32

/-- `DecodeDescriptor(lo, hi)` (R85). -/
def decodeDescriptor (lo hi : Dword) : Descriptor :=
  { base := hi.extractLsb' 24 8 ++ hi.extractLsb' 0 8 ++ lo.extractLsb' 16 16
    limit := hi.extractLsb' 16 4 ++ lo.extractLsb' 0 16
    typ := hi.extractLsb' 8 4
    s := hi.getLsbD 12
    dpl := hi.extractLsb' 13 2
    p := hi.getLsbD 15
    avl := hi.getLsbD 20
    db := hi.getLsbD 22
    g := hi.getLsbD 23 }

/-- The first double word of `MakeDescriptor` (30_encoding.md R158). -/
def Descriptor.lo (d : Descriptor) : Dword := d.base.extractLsb' 0 16 ++ d.limit.extractLsb' 0 16

/-- The second double word of `MakeDescriptor`, bit 21 equal to 0 (R158). -/
def Descriptor.hi (d : Descriptor) : Dword :=
  d.base.extractLsb' 24 8 ++ bit d.g ++ bit d.db ++ (0 : BitVec 1) ++ bit d.avl ++ d.limit.extractLsb' 16 4 ++
    bit d.p ++ d.dpl ++ bit d.s ++ d.typ ++ d.base.extractLsb' 16 8

/-- Bit 3 of a type: a code segment (R94). -/
def isCode (typ : BitVec 4) : Bool := typ.getLsbD 3

/-- Bit 2 of a type: expansion direction of a data segment, conforming for a code segment (R94). -/
def isDownOrConforming (typ : BitVec 4) : Bool := typ.getLsbD 2

/-- Bit 1 of a type: write-enable of a data segment, read-enable of a code segment (R94). -/
def isWritableOrReadable (typ : BitVec 4) : Bool := typ.getLsbD 1

/-- Bit 0 of a type: accessed (R94). -/
def isAccessed (typ : BitVec 4) : Bool := typ.getLsbD 0

/-- A data segment with W = 1 (R94). -/
def isWritableData (typ : BitVec 4) : Bool := !isCode typ && isWritableOrReadable typ

/-- Any data segment, or code with R = 1 (R94, R98). -/
def isReadable (typ : BitVec 4) : Bool := !isCode typ || isWritableOrReadable typ

/-- The hidden part a code or data descriptor gives: its fields, valid, present, accessed (R190). -/
def Descriptor.loaded (d : Descriptor) : Hidden :=
  { valid := true, base := d.base, limit := d.limit, g := d.g, typ := d.typ ||| 1, s := d.s, dpl := d.dpl, p := true
    db := d.db, avl := d.avl }

/-- The cached part an LDT descriptor gives (R195): the type stays 2, S is 0. -/
def Descriptor.cachedLdt (d : Descriptor) : Hidden :=
  { valid := true, base := d.base, limit := d.limit, g := d.g, typ := 2, s := false, dpl := d.dpl, p := true
    db := d.db, avl := d.avl }

/-- `kind` of a logical access (R98). -/
inductive SegAccess where
  | read
  | write
  | exec
  deriving DecidableEq, Repr

/-- `SegFault(s)`: `#SS(0)` through SS, `#GP(0)` through any other register (R98, 60_exceptions.md R295). -/
def segFault (r : SReg) : State → Fault :=
  if r = .ss then .stackFault 0 else .generalProtection 0

/-- The access-rights part of `SegCheck` (R98). -/
def rightsOk (r : SReg) (h : Hidden) (kind : SegAccess) : Bool :=
  h.valid &&
    match kind with
    | .write => isWritableData h.typ
    | .read => isReadable h.typ
    | .exec => r == .cs && isCode h.typ

/-- An expand-down data segment (R100). -/
def isExpandDown (typ : BitVec 4) : Bool := !isCode typ && isDownOrConforming typ

/-- The upper bound of an expand-down segment (R100). -/
def upperBound (db : Bool) : Nat := if db then 0xFFFFFFFF else 0xFFFF

/-- The limit part of `SegCheck`, over natural numbers (R99, R100): every one of the `n` bytes within the segment. -/
def limitOk (h : Hidden) (off : Dword) (n : Nat) : Bool :=
  if isExpandDown h.typ then
    decide ((effLimit h.limit h.g).toNat < off.toNat) && decide (off.toNat + n - 1 ≤ upperBound h.db)
  else decide (off.toNat + n - 1 ≤ (effLimit h.limit h.g).toNat)

/-- `SegCheck` passes (R98 to R100). It looks at the hidden part alone. -/
def segCheck (r : SReg) (h : Hidden) (off : Dword) (n : Nat) (kind : SegAccess) : Bool :=
  rightsOk r h kind && limitOk h off n

/-- `LogicalToLinear(s, off, n, kind)` (R101, R102): base plus offset modulo 2^32. -/
def logicalToLinear (r : SReg) (off : Dword) (n : Nat) (kind : SegAccess) (c : Ctx) : Except Stop Linear :=
  if segCheck r (c.cur.seg r).h off n kind then .ok ((c.cur.seg r).h.base + off) else raise (segFault r) c

/-- `MemRead(s, off, n)`: the bytes at a logical address, at the level CPL gives (41_memory_access_ops.md R220). -/
def memRead (r : SReg) (off : Dword) (n : Nat) (c : Ctx) : Except Stop (List Byte × Ctx) := do
  let lin ← logicalToLinear r off n .read c
  linRead lin n c.cur.level c

/-- `MemWrite(s, off, n, v)` (R221), the value as its bytes. -/
def memWrite (r : SReg) (off : Dword) (bytes : List Byte) (c : Ctx) : Except Stop Ctx := do
  let lin ← logicalToLinear r off bytes.length .write c
  linWrite lin bytes c.cur.level c

/-- The base of the table a selector names: GDTR or LDTR (R82). -/
def State.tableBase (s : State) (sel : Selector) : Linear := if selTI sel then s.ldtr.h.base else s.gdtr.base

/-- The last valid byte offset of that table (R97). -/
def State.tableLimit (s : State) (sel : Selector) : Nat :=
  if selTI sel then (effLimit s.ldtr.h.limit s.ldtr.h.g).toNat else s.gdtr.limit.toNat

/-- `Index * 8` (R82, R136 (a)). -/
def descOffset (sel : Selector) : Dword := (selIndex sel).setWidth 32 * 8

/-- The linear address of the descriptor a selector names, modulo 2^32 (R82). -/
def State.descAddr (s : State) (sel : Selector) : Linear := s.tableBase sel + descOffset sel

/-- Steps (1) and (2) of R97: there is a table, and the whole descriptor lies in it. -/
def State.selectorInTable (s : State) (sel : Selector) : Bool :=
  (!selTI sel || s.ldtr.h.valid) && decide ((descOffset sel).toNat + 7 ≤ s.tableLimit sel)

/-- Step (3) of R97: bit 21 of the second double word is reserved (R93). -/
def reservedBitSet (hi : Dword) : Bool := hi.getLsbD 21

/-- `FetchDescriptor(sel)` (R97), two linear reads at supervisor level. -/
def fetchDescriptor (sel : Selector) (c : Ctx) : Except Stop (Descriptor × Ctx) := do
  if !c.cur.selectorInTable sel then raise (.generalProtection (selCode sel)) c
  else
    let la := c.cur.descAddr sel
    let (lo, c) ← linRead la 4 .supervisor c
    let (hi, c) ← linRead (la + 4) 4 .supervisor c
    if reservedBitSet (leValue 32 hi) then refuse .reservedBit
    else .ok (decodeDescriptor (leValue 32 lo) (leValue 32 hi), c)

/-- `DataPrivOK(sel, d)` (R196). -/
def dataPrivOk (cpl : BitVec 2) (sel : Selector) (d : Descriptor) : Bool :=
  (isCode d.typ && isDownOrConforming d.typ) || (decide (selRPL sel ≤ d.dpl) && decide (cpl ≤ d.dpl))

/-- `SetAccessed(sel, d)` (R197): bit 0 of byte 5 of the descriptor, through paging at supervisor level. -/
def setAccessed (sel : Selector) (d : Descriptor) (c : Ctx) : Except Stop Ctx := do
  if isAccessed d.typ then .ok c
  else
    let la := c.cur.descAddr sel + 5
    let (b, c) ← linRead la 1 .supervisor c
    linWrite la (b.map (· ||| 1)) .supervisor c

/-- Put a selector and a loaded descriptor into a segment register (R190). -/
def Ctx.loadSeg (c : Ctx) (r : SReg) (sel : Selector) (d : Descriptor) : Ctx :=
  c.onCur fun s => s.setSeg r { sel := sel, h := d.loaded }

/-- LDSEG's checks of a fetched descriptor, but P (R190): code or data, readable, `DataPrivOK`. -/
def dataLoadOk (cpl : BitVec 2) (sel : Selector) (d : Descriptor) : Bool :=
  d.s && isReadable d.typ && dataPrivOk cpl sel d

/-- LDSEG (R190). A null selector loads without reading memory, and leaves the other hidden fields as they were. -/
def ldseg (r : SReg) (sel : Selector) (c : Ctx) : Except Stop Ctx := do
  if isNull sel then .ok (c.onCur fun s => s.setSeg r { sel := sel, h := { (s.seg r).h with valid := false } })
  else
    let (d, c) ← fetchDescriptor sel c
    if !dataLoadOk c.cur.cpl sel d then raise (.generalProtection (selCode sel)) c
    else if !d.p then raise (.segmentNotPresent (selCode sel)) c
    else
      let c ← setAccessed sel d c
      .ok (c.loadSeg r sel d)

/-- LDSS's checks of a fetched descriptor, but P (R191): RPL = CPL, writable data, DPL = CPL. -/
def stackLoadOk (cpl : BitVec 2) (sel : Selector) (d : Descriptor) : Bool :=
  selRPL sel == cpl && d.s && isWritableData d.typ && d.dpl == cpl

/-- `SS_NP_EXC` (R191, D10). -/
def stackNotPresent (e : StackNotPresent) (code : BitVec 16) : State → Fault :=
  match e with
  | .np => .segmentNotPresent code
  | .ss => .stackFault code

/-- LDSS (R191). -/
def ldss (sel : Selector) (c : Ctx) : Except Stop Ctx := do
  if isNull sel then raise (.generalProtection 0) c
  else
    let (d, c) ← fetchDescriptor sel c
    if !stackLoadOk c.cur.cpl sel d then raise (.generalProtection (selCode sel)) c
    else if !d.p then raise (stackNotPresent c.cur.platform.ssNotPresent (selCode sel)) c
    else
      let c ← setAccessed sel d c
      .ok (c.loadSeg .ss sel d)

/-- LDCS's type and privilege checks (R192). -/
def codeLoadOk (cpl : BitVec 2) (sel : Selector) (d : Descriptor) : Bool :=
  isCode d.typ &&
    (if isDownOrConforming d.typ then decide (d.dpl ≤ cpl) else decide (selRPL sel ≤ cpl) && d.dpl == cpl)

/-- The selector CS holds after LDCS: CPL in bits 1:0 (R192). -/
def codeSelector (cpl : BitVec 2) (sel : Selector) : Selector := sel.extractLsb' 2 14 ++ cpl

/-- LDCS (R192): CPL does not change. -/
def ldcs (sel : Selector) (c : Ctx) : Except Stop Ctx := do
  if isNull sel then raise (.generalProtection 0) c
  else
    let (d, c) ← fetchDescriptor sel c
    if !d.s then refuse .gateOrTss
    else if !codeLoadOk c.cur.cpl sel d then raise (.generalProtection (selCode sel)) c
    else if !d.p then raise (.segmentNotPresent (selCode sel)) c
    else
      let c ← setAccessed sel d c
      .ok (c.loadSeg .cs (codeSelector c.cur.cpl sel) d)

/-- The operations that only level 0 may execute raise `#GP(0)` elsewhere (60_exceptions.md R304). -/
def requireLevel0 (c : Ctx) : Except Stop Unit :=
  if c.cur.cpl ≠ 0#2 then raise (.generalProtection 0) c else .ok ()

/-- LGDTR (R194). -/
def lgdtr (base : Linear) (limit : BitVec 16) (c : Ctx) : Except Stop Ctx := do
  requireLevel0 c
  .ok (c.onCur fun s => { s with gdtr := { base := base, limit := limit } })

/-- LLDTR after its privilege check (R195). -/
def loadLdtr (sel : Selector) (c : Ctx) : Except Stop Ctx := do
  if isNull sel then .ok (c.onCur fun s => { s with ldtr := { sel := sel, h := { s.ldtr.h with valid := false } } })
  else if selTI sel then raise (.generalProtection (selCode sel)) c
  else
    let (d, c) ← fetchDescriptor sel c
    if d.s || d.typ != 2#4 then raise (.generalProtection (selCode sel)) c
    else if !d.p then raise (.segmentNotPresent (selCode sel)) c
    else .ok (c.onCur fun s => { s with ldtr := { sel := sel, h := d.cachedLdt } })

/-- LLDTR (R195). -/
def lldtr (sel : Selector) (c : Ctx) : Except Stop Ctx := do
  requireLevel0 c
  loadLdtr sel c

/-- The stack pointer the B flag of SS selects, as an offset (41_memory_access_ops.md R223, R224). -/
def State.stackPointer (s : State) : Dword :=
  if (s.seg .ss).h.db then s.esp else (s.esp.setWidth 16).setWidth 32

/-- ESP with the selected stack pointer replaced: with B = 0 only its low half (R223, R224). -/
def State.withStackPointer (s : State) (sp : Dword) : State :=
  s.setEsp (if (s.seg .ss).h.db then sp else s.esp.extractLsb' 16 16 ++ sp.extractLsb' 0 16)

/-- A stack pointer moved by `k`, modulo 2^32 or 2^16 (R223, R224). -/
def State.movedPointer (s : State) (k : Dword) : Dword :=
  if (s.seg .ss).h.db then s.esp + k else ((s.esp + k).setWidth 16).setWidth 32

/-- SPUSH (R223): the bytes go below the stack pointer. -/
def spush (bytes : List Byte) (c : Ctx) : Except Stop Ctx := do
  let sp := c.cur.movedPointer (-(BitVec.ofNat 32 bytes.length))
  let c ← memWrite .ss sp bytes c
  .ok (c.onCur (·.withStackPointer sp))

/-- SPOP (R224): the bytes at the stack pointer, which then moves up. -/
def spop (n : Nat) (c : Ctx) : Except Stop (List Byte × Ctx) := do
  let (bs, c) ← memRead .ss c.cur.stackPointer n c
  .ok (bs, c.onCur fun s => s.withStackPointer (s.movedPointer (BitVec.ofNat 32 n)))

end Sys2Proof.Machine
end

