-- ==== Sys2Proof/WellFormed.lean ====
section
/-! DEFINITION. Which terms of `Instr` stand for an operation or instruction of the spec: the operand ranges of
spec/30_encoding.md R152 and of spec/opcode_table.json. -/

namespace Sys2Proof

/-- LDSEG takes one of DS, ES, FS, GS (R152, format SR). -/
def SReg.isData : SReg → Bool
  | .ds | .es | .fs | .gs => true
  | .cs | .ss => false

/-- How many displacement bytes follow a memory form (PRESUMED, log 10). -/
def MemArg.dispLen (a32 : Bool) (mod : BitVec 2) (rm : BitVec 3) (sib : Option Byte) : Nat :=
  if mod = 1#2 then 1
  else if mod = 2#2 then (if a32 then 4 else 2)
  else if a32 then
    (if rm = 5#3 ∨ (rm = 4#3 ∧ (sib.getD 0).extractLsb' 0 3 = 5#3) then 4 else 0)
  else (if rm = 6#3 then 2 else 0)

/-- Whether a SIB byte follows ModRM (PRESUMED, log 10). -/
def MemArg.hasSib (a32 : Bool) (rm : BitVec 3) : Bool := a32 && rm == 4#3

/-- A memory form has `mod` other than 3 and exactly the SIB and displacement bytes its fields call for. -/
def MemArg.wf (m : MemArg) : Bool :=
  m.mod != 3#2 && (m.sib.isSome == MemArg.hasSib m.a32 m.rm) &&
    m.disp.length == MemArg.dispLen m.a32 m.mod m.rm m.sib

/-- A register operand is always well-formed. -/
def RM.wf : RM → Bool
  | .reg _ => true
  | .mem m => m.wf

/-- MREAD and MWRITE take 1, 2 or 4 bytes (R152). -/
def accessWidthOk (n : Nat) : Bool := n == 1 || n == 2 || n == 4

/-- SPUSH and SPOP take 2 or 4 bytes (R152). -/
def stackWidthOk (n : Nat) : Bool := n == 2 || n == 4

/-- A value of `8n` bits (R152, operand `v`). -/
def valueFits (n : Nat) (v : Dword) : Bool := v.toNat < 2 ^ (8 * n)

/-- The control registers of RDCR and of the moves: 0, 3 or 4 (R152, format CR). -/
def controlRegOk (k : Nat) : Bool := k == 0 || k == 3 || k == 4

/-- The offset after a moffs opcode is 16 bits under 16-bit address size (spec/opcode_table.json, row MOV EAX, moffs32). -/
def moffsOk (a32 : Bool) (off : Dword) : Bool := a32 || off.toNat < 2 ^ 16

/-- The operand ranges, constructor by constructor. -/
def Instr.wf : Instr → Bool
  | .ldseg sreg _ => sreg.isData
  | .mread _ _ n => accessWidthOk n
  | .mwrite _ _ n v => accessWidthOk n && valueFits n v
  | .mfetch _ n => 1 ≤ n && n ≤ 15
  | .spush n v => stackWidthOk n && valueFits n v
  | .spop n => stackWidthOk n
  | .rdcr k => controlRegOk k
  | .movSregRm16 sreg src => sreg != .cs && src.wf
  | .movRm16Sreg dst _ => dst.wf
  | .les _ m | .lds _ m | .lss _ m | .lfs _ m | .lgs _ m => m.wf
  | .jmpMem m | .callMem m | .lgdt m | .sgdt m => m.wf
  | .lldt src => src.wf
  | .sldt dst => dst.wf
  | .movCrR32 k _ => controlRegOk k.toNat
  | .movR32Cr _ k => controlRegOk k.toNat
  | .movEaxMoffs a off | .movAlMoffs a off | .movMoffsEax a off | .movMoffsAl a off => moffsOk a off
  | .ldss _ | .ldcs _ | .rdsel _ | .lgdtr _ _ | .lldtr _ | .pfx66 | .pfx67 | .wrcr0 _ | .wrcr3 _ | .wrcr4 _
  | .tasksw | .maccess64 _ _ | .popEs | .popSs | .popDs | .popFs | .popGs | .jmpPtr _ _ | .callPtr _ _ | .retf
  | .retfImm _ | .iret | .pushR32 _ | .popR32 _ | .segEs | .segCs | .segSs | .segDs | .segFs | .segGs => true

/-- The address size of a memory operand, of one that has it. -/
def RM.addr32 : RM → Option Bool
  | .reg _ => none
  | .mem m => some m.a32

/-- The address size under which an instruction's bytes were read, where its operand depends on it (R226). -/
def Instr.addr32 : Instr → Option Bool
  | .movSregRm16 _ rm | .movRm16Sreg rm _ | .lldt rm | .sldt rm => rm.addr32
  | .les _ m | .lds _ m | .lss _ m | .lfs _ m | .lgs _ m | .jmpMem m | .callMem m | .lgdt m | .sgdt m => some m.a32
  | .movEaxMoffs a _ | .movAlMoffs a _ | .movMoffsEax a _ | .movMoffsAl a _ => some a
  | .ldseg _ _ | .ldss _ | .ldcs _ | .rdsel _ | .lgdtr _ _ | .lldtr _ | .mread _ _ _ | .mwrite _ _ _ _ | .mfetch _ _
  | .spush _ _ | .spop _ | .pfx66 | .pfx67 | .wrcr0 _ | .wrcr3 _ | .wrcr4 _ | .rdcr _ | .tasksw | .maccess64 _ _
  | .popEs | .popSs | .popDs | .popFs | .popGs | .jmpPtr _ _ | .callPtr _ _ | .retf | .retfImm _ | .iret
  | .movCrR32 _ _ | .movR32Cr _ _ | .pushR32 _ | .popR32 _ | .segEs | .segCs | .segSs | .segDs | .segFs | .segGs => none

/-- An instruction's operand agrees with the address size in force. -/
def Instr.readsUnder (i : Instr) (a32 : Bool) : Bool := i.addr32 == none || i.addr32 == some a32

end Sys2Proof
end

