-- ==== Sys2Proof/Machine/Operands.lean ====
section
/-! DEFINITION. Operand and address sizes (spec/41_memory_access_ops.md R225, R226), and the operand forms of the annex's
instructions (spec/30_encoding.md R159; addressing modes PRESUMED from the family, log 10). -/

namespace Sys2Proof.Machine

/-- Whether the operand size is 32 bits: the D flag of CS, reversed by 66 (R225). -/
def State.operand32 (s : State) : Bool := xor (s.seg .cs).h.db s.pfx.op66

/-- `OperandSize / 8`, the `n` an instruction passes on (R225). -/
def State.operandBytes (s : State) : Nat := if s.operand32 then 4 else 2

/-- Whether the address size is 32 bits: the D flag of CS, reversed by 67 (R226). -/
def State.address32 (s : State) : Bool := xor (s.seg .cs).h.db s.pfx.addr67

/-- `OperandSize` in bits (R225). -/
def State.operandSize (s : State) : Nat := if s.operand32 then 32 else 16

/-- `AddressSize` in bits (R226). -/
def State.addressSize (s : State) : Nat := if s.address32 then 32 else 16

/-- An offset under an address size: with 16 bits it is computed modulo 2^16 and zero-extended (R226). -/
def narrowOffset (a32 : Bool) (off : Dword) : Dword := if a32 then off else (off.setWidth 16).setWidth 32

/-- The displacement bytes as a 32-bit number: one byte is sign-extended (PRESUMED, log 10). -/
def dispValue (disp : List Byte) : Dword :=
  match disp with
  | [b] => b.signExtend 32
  | bs => leValue 32 bs

/-- The base and index of a 16-bit memory form, by `rm` (PRESUMED, log 10). -/
def base16 (s : State) (mod : BitVec 2) (rm : BitVec 3) : Dword :=
  if rm = 0#3 then s.gpr.ebx + s.gpr.esi
  else if rm = 1#3 then s.gpr.ebx + s.gpr.edi
  else if rm = 2#3 then s.gpr.ebp + s.gpr.esi
  else if rm = 3#3 then s.gpr.ebp + s.gpr.edi
  else if rm = 4#3 then s.gpr.esi
  else if rm = 5#3 then s.gpr.edi
  else if rm = 6#3 then (if mod = 0#2 then 0 else s.gpr.ebp)
  else s.gpr.ebx

/-- Base plus scaled index of a SIB byte: scale 7:6, index 5:3 (4 is none), base 2:0 (PRESUMED, log 10). -/
def sibValue (s : State) (mod : BitVec 2) (sib : Byte) : Dword :=
  let base := sib.extractLsb' 0 3
  let index := sib.extractLsb' 3 3
  (if base = 5#3 ∧ mod = 0#2 then 0 else s.reg base) +
    (if index = 4#3 then 0 else s.reg index <<< (sib.extractLsb' 6 2).toNat)

/-- The base of a 32-bit memory form (PRESUMED, log 10). -/
def base32 (s : State) (m : MemArg) : Dword :=
  if m.rm = 4#3 then sibValue s m.mod (m.sib.getD 0)
  else if m.rm = 5#3 ∧ m.mod = 0#2 then 0
  else s.reg m.rm

/-- The offset a memory form computes (PRESUMED, log 10). -/
def State.effectiveOffset (s : State) (m : MemArg) : Dword :=
  narrowOffset m.a32 ((if m.a32 then base32 s m else base16 s m.mod m.rm) + dispValue m.disp)

/-- Whether the address uses EBP or ESP as its base (R159; which forms do, PRESUMED, log 10). -/
def memUsesStackBase (m : MemArg) : Bool :=
  if m.a32 then
    if m.rm = 4#3 then
      let base := (m.sib.getD 0).extractLsb' 0 3
      base == 4#3 || (base == 5#3 && m.mod != 0#2)
    else m.rm == 5#3 && m.mod != 0#2
  else m.rm == 2#3 || m.rm == 3#3 || (m.rm == 6#3 && m.mod != 0#2)

/-- The segment register of a memory operand: the override prefix's, else SS when the address uses EBP or ESP, else DS
(R159). -/
def State.operandSeg (s : State) (usesStack : Bool) : SReg :=
  s.pfx.seg.getD (if usesStack then .ss else .ds)

/-- Read `n` bytes of a memory form. -/
def readMem (m : MemArg) (n : Nat) (c : Ctx) : Except Stop (List Byte × Ctx) :=
  memRead (c.cur.operandSeg (memUsesStackBase m)) (c.cur.effectiveOffset m) n c

/-- Write bytes to a memory form. -/
def writeMem (m : MemArg) (bytes : List Byte) (c : Ctx) : Except Stop Ctx :=
  memWrite (c.cur.operandSeg (memUsesStackBase m)) (c.cur.effectiveOffset m) bytes c

/-- The 16-bit source r/m16 (R159). -/
def readRM16 (rm : RM) (c : Ctx) : Except Stop (BitVec 16 × Ctx) :=
  match rm with
  | .reg r => .ok ((c.cur.reg r).setWidth 16, c)
  | .mem m => do
    let (bs, c) ← readMem m 2 c
    .ok (leValue 16 bs, c)

/-- The destination r/m16 of a 16-bit value: two bytes of memory, or a general register, zero-extended under 32-bit operand
size (PRESUMED, log 9). -/
def writeRM16 (rm : RM) (v : BitVec 16) (c : Ctx) : Except Stop Ctx :=
  match rm with
  | .reg r => .ok (c.onCur fun s => s.setRegLow r s.operandBytes (v.setWidth 32))
  | .mem m => writeMem m (leBytes 2 v) c

/-- A far pointer in memory: 6 bytes, the 32-bit offset and then the selector (30_encoding.md R153 (b)). They are one
access, with one segment check of all 6 (DESIGN CHOICE, log 21). -/
def readFarPointer (m : MemArg) (c : Ctx) : Except Stop (Dword × Selector × Ctx) := do
  let (bs, c) ← readMem m 6 c
  .ok (leValue 32 (bs.take 4), leValue 16 (bs.drop 4), c)

/-- The pseudo-descriptor in memory: 6 bytes, the 16-bit limit and then the base (R153 (c)), in one access with one
segment check of all 6 (DESIGN CHOICE, log 21). -/
def readTablePointer (m : MemArg) (c : Ctx) : Except Stop (Linear × BitVec 16 × Ctx) := do
  let (bs, c) ← readMem m 6 c
  .ok (leValue 32 (bs.drop 2), leValue 16 (bs.take 2), c)

/-- The bytes SGDT stores (R153 (c)). -/
def tablePointerBytes (g : Gdtr) : List Byte := leBytes 2 g.limit ++ leBytes 4 g.base

end Sys2Proof.Machine
end

