-- ==== Sys2Proof/Machine/SegmentOps.lean ====
section
/-! DEFINITION. The operations of spec/40_segment_register_ops.md: LDSEG, LDSS, LDCS, RDSEL, LGDTR, LLDTR. -/

namespace Sys2Proof.Machine

/-- An operation that returns nothing. -/
def runQuiet (f : Ctx → Except Stop Ctx) (s : State) : Host.Outcome State Fault Refusal :=
  runOp (fun c => do
    let c ← f c
    .ok (.none, c)) s

/-- LDSEG (R190). -/
def execLdseg (sreg : SReg) (sel : Selector) (s : State) : Host.Outcome State Fault Refusal :=
  runQuiet (ldseg sreg sel) s

/-- LDSS (R191). -/
def execLdss (sel : Selector) (s : State) : Host.Outcome State Fault Refusal := runQuiet (ldss sel) s

/-- LDCS (R192). -/
def execLdcs (sel : Selector) (s : State) : Host.Outcome State Fault Refusal := runQuiet (ldcs sel) s

/-- RDSEL (R193): the visible part; reads no memory, checks nothing, cannot fault. -/
def execRdsel (sreg : SReg) (s : State) : Host.Outcome State Fault Refusal :=
  runOp (fun c => .ok (.value 2 ((c.cur.seg sreg).sel.setWidth 32), c)) s

/-- LGDTR (R194). -/
def execLgdtr (base : Linear) (limit : BitVec 16) (s : State) : Host.Outcome State Fault Refusal :=
  runQuiet (lgdtr base limit) s

/-- LLDTR (R195). -/
def execLldtr (sel : Selector) (s : State) : Host.Outcome State Fault Refusal := runQuiet (lldtr sel) s

end Sys2Proof.Machine
end

