-- ==== Sys2Proof/Machine/MemoryOps.lean ====
section
/-! DEFINITION. The operations of spec/41_memory_access_ops.md: MREAD, MWRITE, MFETCH, SPUSH, SPOP, PFX66, PFX67. -/

namespace Sys2Proof.Machine

/-- A value read as bytes, little-endian (20_memory.md R76). -/
def valueOf (bs : List Byte) : Result := .value bs.length (leValue 32 bs)

/-- MREAD (R220). -/
def execMread (sreg : SReg) (off : Dword) (n : Nat) (s : State) : Host.Outcome State Fault Refusal :=
  runOp (fun c => do
    let (bs, c) ← memRead sreg off n c
    .ok (valueOf bs, c)) s

/-- MWRITE (R221). -/
def execMwrite (sreg : SReg) (off : Dword) (n : Nat) (v : Dword) (s : State) : Host.Outcome State Fault Refusal :=
  runQuiet (memWrite sreg off (leBytes n v)) s

/-- The bytes of a fetch, each a linear read of its own (R222). -/
def fetchBytes (lvl : Level) : Nat → Linear → Ctx → Except Stop (List Byte × Ctx)
  | 0, _, c => .ok ([], c)
  | n + 1, la, c => do
    let (b, c) ← linRead la 1 lvl c
    let (bs, c) ← fetchBytes lvl n (la + 1) c
    .ok (b ++ bs, c)

/-- MFETCH (R222). -/
def execMfetch (off : Dword) (n : Nat) (s : State) : Host.Outcome State Fault Refusal :=
  runOp (fun c => do
    let lin ← logicalToLinear .cs off n .exec c
    let (bs, c) ← fetchBytes c.cur.level n lin c
    .ok (.bytes bs, c)) s

/-- SPUSH (R223). -/
def execSpush (n : Nat) (v : Dword) (s : State) : Host.Outcome State Fault Refusal := runQuiet (spush (leBytes n v)) s

/-- SPOP (R224). -/
def execSpop (n : Nat) (s : State) : Host.Outcome State Fault Refusal :=
  runOp (fun c => do
    let (bs, c) ← spop n c
    .ok (valueOf bs, c)) s

/-- PFX66 (R225): pending for the one instruction that follows; it writes no other state. -/
def execPfx66 (s : State) : Host.Outcome State Fault Refusal :=
  .next { s with pfx := { s.pfx with op66 := true }, result := .none }

/-- PFX67 (R226): pending for the one instruction that follows; it writes no other state. -/
def execPfx67 (s : State) : Host.Outcome State Fault Refusal :=
  .next { s with pfx := { s.pfx with addr67 := true }, result := .none }

end Sys2Proof.Machine
end

