-- ==== Sys2Proof/Machine/ControlOps.lean ====
section
/-! DEFINITION. The operations of spec/42_paging_control_ops.md (WRCR0, WRCR3, WRCR4, RDCR, TASKSW) and of
spec/43_long_mode.md (MACCESS64, with the index split that file records). -/

namespace Sys2Proof.Machine

/-- Set CR0.PG; a change empties the TLB (R250, 20_memory.md R129 (e)). -/
def State.setPg (s : State) (b : Bool) : State := { s with pg := b, tlb := if b = s.pg then s.tlb else [] }

/-- Set CR4.PSE, CR4.PAE, CR4.PGE; a change empties the TLB (R252, R129 (e)). -/
def State.setCr4 (s : State) (f : Cr4) : State := { s with cr4 := f, tlb := if f = s.cr4 then s.tlb else [] }

/-- The flags of CR4 in a 32-bit value: PSE bit 4, PAE bit 5, PGE bit 7 (10_state.md R29). -/
def cr4Of (v : Dword) : Cr4 := { pse := v.getLsbD 4, pae := v.getLsbD 5, pge := v.getLsbD 7 }

/-- A CR4 value asks only for flags the processor has (R252). -/
def cr4Supported (p : Platform) (f : Cr4) : Bool := (!f.pse || p.hasPSE) && (!f.pae || p.hasPAE) && (!f.pge || p.hasPGE)

/-- Write CR0 (R250). -/
def writeCr0 (v : Dword) (c : Ctx) : Except Stop Ctx := do
  requireLevel0 c
  .ok (c.onCur (·.setPg (v.getLsbD 31)))

/-- Load CR3: the records that are not global go, and the global ones too unless CR4.PGE = 1 (R251, R129 (d)). -/
def writeCr3 (v : Dword) (c : Ctx) : Except Stop Ctx := do
  requireLevel0 c
  .ok (c.onCur fun s => { s.flushNonGlobal with cr3 := v })

/-- Write CR4 (R252). -/
def writeCr4 (v : Dword) (c : Ctx) : Except Stop Ctx := do
  requireLevel0 c
  if cr4Supported c.cur.platform (cr4Of v) then .ok (c.onCur (·.setCr4 (cr4Of v))) else raise (.generalProtection 0) c

/-- Replace the bits of `mask` in a drawn value by those of `v`: the other bits are not given (R253, U10, log 5). -/
def withDrawn (s : State) (mask v : Dword) : Dword := (Config.controlBits s.draws &&& ~~~mask) ||| (v &&& mask)

/-- CR4's three flags in place (R29). -/
def cr4Bits (f : Cr4) : Dword := (if f.pse then 0x10 else 0) ||| (if f.pae then 0x20 else 0) ||| (if f.pge then 0x80 else 0)

/-- Read CR0, CR3 or CR4 (R253); `k` is 0, 3 or 4. -/
def readCr (k : Nat) (c : Ctx) : Except Stop (Dword × Ctx) := do
  requireLevel0 c
  if k = 3 then .ok (c.cur.cr3, c)
  else if k = 0 then .ok (withDrawn c.cur 0x80000000 (if c.cur.pg then 0x80000000 else 0), c.tick)
  else .ok (withDrawn c.cur 0xB0 (cr4Bits c.cur.cr4), c.tick)

/-- Write CR0, CR3 or CR4 by number. -/
def writeCr (k : Nat) (v : Dword) (c : Ctx) : Except Stop Ctx :=
  if k = 0 then writeCr0 v c else if k = 3 then writeCr3 v c else writeCr4 v c

/-- WRCR0 (R250). -/
def execWrcr0 (v : Dword) (s : State) : Host.Outcome State Fault Refusal := runQuiet (writeCr0 v) s

/-- WRCR3 (R251). -/
def execWrcr3 (v : Dword) (s : State) : Host.Outcome State Fault Refusal := runQuiet (writeCr3 v) s

/-- WRCR4 (R252). -/
def execWrcr4 (v : Dword) (s : State) : Host.Outcome State Fault Refusal := runQuiet (writeCr4 v) s

/-- RDCR (R253). -/
def execRdcr (k : Nat) (s : State) : Host.Outcome State Fault Refusal :=
  runOp (fun c => do
    let (v, c) ← readCr k c
    .ok (.value 4 v, c)) s

/-- TASKSW (R254): the TLB effect, then `refuse(task_switch)`, which holds the state with that effect. -/
def execTasksw (s : State) : Host.Outcome State Fault Refusal :=
  .refused (.taskSwitch (s.flushNonGlobal.finish .none))

/-- `IsCanonical(va)` with `w` implemented bits: `va = sext_64(va[w-1:0])` (43_long_mode.md R271, R272). -/
def isCanonical (w : Nat) (va : BitVec 64) : Bool := va == (va.setWidth w).signExtend 64

/-- MACCESS64 (R273): the canonical check, then `refuse(long_mode_translation)`. -/
def maccess64 (va : BitVec 64) (c : Ctx) : Except Stop (Result × Ctx) :=
  if isCanonical c.cur.platform.vaBits va then refuse .longModeTranslation
  else raise (.nonCanonical c.cur.platform.nonCanonical) c

/-- MACCESS64 (R273). Reads and writes are checked alike. -/
def execMaccess64 (va : BitVec 64) (_kind : PageAccess) (s : State) : Host.Outcome State Fault Refusal :=
  runOp (maccess64 va) s

/-- The indices of a 64-bit virtual address, from the root down, and the page offset for each of the three page sizes
(43_long_mode.md R274, D44): 4 KB, 2 MB (mapped from a page-directory entry) and 1 GB (from a page-directory-pointer entry).
Recorded by the spec, used by no operation, since a model refuses translation in long mode. -/
structure LongSplit where
  pml4 : BitVec 9
  pointer : BitVec 9
  directory : BitVec 9
  table : BitVec 9
  offset4K : BitVec 12
  offset2M : BitVec 21
  offset1G : BitVec 30
  deriving DecidableEq, Repr

/-- The split of R274. -/
def longSplit (va : BitVec 64) : LongSplit :=
  { pml4 := va.extractLsb' 39 9
    pointer := va.extractLsb' 30 9
    directory := va.extractLsb' 21 9
    table := va.extractLsb' 12 9
    offset4K := va.extractLsb' 0 12
    offset2M := va.extractLsb' 0 21
    offset1G := va.extractLsb' 0 30 }

end Sys2Proof.Machine
end

