-- ==== Sys2Proof/Machine/AnnexSegment.lean ====
section
/-! DEFINITION. The annex's instructions that load, read or store segment registers and table registers
(spec/30_encoding.md R159): each performs the operations its row of spec/opcode_table.json names. -/

namespace Sys2Proof.Machine

/-- LDSS for SS, LDSEG for the others (row MOV Sreg, r/m16). -/
def loadSreg (r : SReg) (sel : Selector) (c : Ctx) : Except Stop Ctx :=
  if r = .ss then ldss sel c else ldseg r sel c

/-- SPOP with `n = OperandSize / 8`, then the load of the low 16 bits (rows POP ES to POP GS). -/
def popSreg (r : SReg) (c : Ctx) : Except Stop Ctx := do
  let (bs, c) ← spop c.cur.operandBytes c
  loadSreg r (leValue 16 bs) c

/-- Read a far pointer, load the segment register, and write the offset to a general register (rows LES to LGS). -/
def loadFar (r : SReg) (dst : BitVec 3) (m : MemArg) (c : Ctx) : Except Stop Ctx := do
  let (off, sel, c) ← readFarPointer m c
  let c ← loadSreg r sel c
  .ok (c.onCur (·.setReg dst off))

/-- MOV Sreg, r/m16: LDSEG or LDSS. -/
def execMovSregRm16 (sreg : SReg) (src : RM) (s : State) : Host.Outcome State Fault Refusal :=
  runQuiet (fun c => do
    let (sel, c) ← readRM16 src c
    loadSreg sreg sel c) s

/-- MOV r/m16, Sreg: RDSEL, to a general register or memory. -/
def execMovRm16Sreg (dst : RM) (sreg : SReg) (s : State) : Host.Outcome State Fault Refusal :=
  runQuiet (fun c => writeRM16 dst (c.cur.seg sreg).sel c) s

/-- POP ES: SPOP then LDSEG ES. -/
def execPopEs (s : State) : Host.Outcome State Fault Refusal := runQuiet (popSreg .es) s

/-- POP SS: SPOP then LDSS. -/
def execPopSs (s : State) : Host.Outcome State Fault Refusal := runQuiet (popSreg .ss) s

/-- POP DS: SPOP then LDSEG DS. -/
def execPopDs (s : State) : Host.Outcome State Fault Refusal := runQuiet (popSreg .ds) s

/-- POP FS: SPOP then LDSEG FS. -/
def execPopFs (s : State) : Host.Outcome State Fault Refusal := runQuiet (popSreg .fs) s

/-- POP GS: SPOP then LDSEG GS. -/
def execPopGs (s : State) : Host.Outcome State Fault Refusal := runQuiet (popSreg .gs) s

/-- LES r32, m16:32. -/
def execLes (r : BitVec 3) (m : MemArg) (s : State) : Host.Outcome State Fault Refusal := runQuiet (loadFar .es r m) s

/-- LDS r32, m16:32. -/
def execLds (r : BitVec 3) (m : MemArg) (s : State) : Host.Outcome State Fault Refusal := runQuiet (loadFar .ds r m) s

/-- LSS r32, m16:32. -/
def execLss (r : BitVec 3) (m : MemArg) (s : State) : Host.Outcome State Fault Refusal := runQuiet (loadFar .ss r m) s

/-- LFS r32, m16:32. -/
def execLfs (r : BitVec 3) (m : MemArg) (s : State) : Host.Outcome State Fault Refusal := runQuiet (loadFar .fs r m) s

/-- LGS r32, m16:32. -/
def execLgs (r : BitVec 3) (m : MemArg) (s : State) : Host.Outcome State Fault Refusal := runQuiet (loadFar .gs r m) s

/-- LGDT m16&32: LGDTR with the limit and base of 6 bytes of memory; the privilege check comes first (R159). -/
def execLgdt (m : MemArg) (s : State) : Host.Outcome State Fault Refusal :=
  runQuiet (fun c => do
    requireLevel0 c
    let (base, limit, c) ← readTablePointer m c
    lgdtr base limit c) s

/-- SGDT m16&32: stores GDTR as LGDT reads it (R153 (c); log 12), the 6 bytes in one access with one segment check (DESIGN CHOICE,
log 21). -/
def execSgdt (m : MemArg) (s : State) : Host.Outcome State Fault Refusal :=
  runQuiet (fun c => writeMem m (tablePointerBytes c.cur.gdtr) c) s

/-- LLDT r/m16: LLDTR; the privilege check comes first (R159). -/
def execLldt (src : RM) (s : State) : Host.Outcome State Fault Refusal :=
  runQuiet (fun c => do
    requireLevel0 c
    let (sel, c) ← readRM16 src c
    lldtr sel c) s

/-- SLDT r/m16: stores the selector of LDTR (log 12). -/
def execSldt (dst : RM) (s : State) : Host.Outcome State Fault Refusal :=
  runQuiet (fun c => writeRM16 dst c.cur.ldtr.sel c) s

end Sys2Proof.Machine
end

