-- ==== Sys2Proof/Machine/AnnexTransfer.lean ====
section
/-! DEFINITION. The annex's far control transfers (spec/30_encoding.md R159). Of these only the CS load is within the spec: a
jump is LDCS, and the offset at which it continues is what it returns, the operand of the next MFETCH
(spec/40_segment_register_ops.md R192, D39); a call and a return are refused after their CS load. -/

namespace Sys2Proof.Machine

/-- A far jump: LDCS, and the new offset. -/
def farJump (off : Dword) (sel : Selector) (c : Ctx) : Except Stop (Result × Ctx) := do
  let c ← ldcs sel c
  .ok (.target off, c)

/-- What a far call or return does besides its CS load is refused; the refusal holds the state with that load (R159, R11). -/
def restRefused {α : Type} (c : Ctx) : Except Stop α := refuse (.farTransfer (c.cur.finish .none))

/-- A far call: LDCS, and the rest refused. -/
def farCall (sel : Selector) (c : Ctx) : Except Stop Ctx := do
  let c ← ldcs sel c
  restRefused c

/-- The CS load of a far return: a return to an outer level is refused (R192, R306), a null selector is LDCS's `#GP(0)`. -/
def returnLoad (sel : Selector) (c : Ctx) : Except Stop Ctx :=
  if !isNull sel && decide (c.cur.cpl < selRPL sel) then refuse .privilegeChange else ldcs sel c

/-- The selector a far return finds on the stack: two reads of `OperandSize / 8` bytes, the second holds it in its low 16 bits
(PRESUMED, log 8). The move of the stack pointer is part of the rest, which is refused. -/
def returnSelector (c : Ctx) : Except Stop (Selector × Ctx) := do
  let n := c.cur.operandBytes
  let esp := c.cur.esp
  let (_, c) ← spop n c
  let (sel, c) ← spop n c
  .ok (leValue 16 sel, c.onCur (·.setEsp esp))

/-- A far return: the CS load, and the rest refused. -/
def farReturn (c : Ctx) : Except Stop Ctx := do
  let (sel, c) ← returnSelector c
  let c ← returnLoad sel c
  restRefused c

/-- JMP ptr16:32. -/
def execJmpPtr (off : Dword) (sel : Selector) (s : State) : Host.Outcome State Fault Refusal := runOp (farJump off sel) s

/-- CALL ptr16:32: the CS load, and the rest refused (R159). -/
def execCallPtr (_off : Dword) (sel : Selector) (s : State) : Host.Outcome State Fault Refusal := runQuiet (farCall sel) s

/-- JMP m16:32. -/
def execJmpMem (m : MemArg) (s : State) : Host.Outcome State Fault Refusal :=
  runOp (fun c => do
    let (off, sel, c) ← readFarPointer m c
    farJump off sel c) s

/-- CALL m16:32: the CS load, and the rest refused (R159). -/
def execCallMem (m : MemArg) (s : State) : Host.Outcome State Fault Refusal :=
  runQuiet (fun c => do
    let (_, sel, c) ← readFarPointer m c
    farCall sel c) s

/-- RETF: the CS load, and the rest refused (R159). -/
def execRetf (s : State) : Host.Outcome State Fault Refusal := runQuiet farReturn s

/-- RETF imm16: the CS load, and the rest refused (R159). -/
def execRetfImm (_imm : BitVec 16) (s : State) : Host.Outcome State Fault Refusal := runQuiet farReturn s

/-- IRET: the CS load, and the rest refused (R159). -/
def execIret (s : State) : Host.Outcome State Fault Refusal := runQuiet farReturn s

end Sys2Proof.Machine
end

