-- ==== Sys2Proof/Machine/AnnexMoves.lean ====
section
/-! DEFINITION. The annex's moves to and from control registers and memory, PUSH and POP, and the segment-override
prefixes (spec/30_encoding.md R159). -/

namespace Sys2Proof.Machine

/-- MREAD at a moffs offset into the accumulator, `n` bytes (rows MOV EAX, moffs32 and MOV AL, moffs8). -/
def loadAccumulator (a32 : Bool) (off : Dword) (n : Nat) (c : Ctx) : Except Stop Ctx := do
  let (bs, c) ← memRead (c.cur.operandSeg false) (narrowOffset a32 off) n c
  .ok (c.onCur fun s => s.setRegLow 0 n (leValue 32 bs))

/-- MWRITE of the accumulator at a moffs offset, `n` bytes (rows MOV moffs32, EAX and MOV moffs8, AL). -/
def storeAccumulator (a32 : Bool) (off : Dword) (n : Nat) (c : Ctx) : Except Stop Ctx :=
  memWrite (c.cur.operandSeg false) (narrowOffset a32 off) (leBytes n (c.cur.reg 0)) c

/-- MOV CRn, r32: WRCR0, WRCR3 or WRCR4. -/
def execMovCrR32 (k r : BitVec 3) (s : State) : Host.Outcome State Fault Refusal :=
  runQuiet (fun c => writeCr k.toNat (c.cur.reg r) c) s

/-- MOV r32, CRn: RDCR. -/
def execMovR32Cr (r k : BitVec 3) (s : State) : Host.Outcome State Fault Refusal :=
  runQuiet (fun c => do
    let (v, c) ← readCr k.toNat c
    .ok (c.onCur (·.setReg r v))) s

/-- MOV EAX, moffs32: MREAD with `n = OperandSize / 8`. -/
def execMovEaxMoffs (a32 : Bool) (off : Dword) (s : State) : Host.Outcome State Fault Refusal :=
  runQuiet (fun c => loadAccumulator a32 off c.cur.operandBytes c) s

/-- MOV AL, moffs8: MREAD with `n = 1`. -/
def execMovAlMoffs (a32 : Bool) (off : Dword) (s : State) : Host.Outcome State Fault Refusal :=
  runQuiet (loadAccumulator a32 off 1) s

/-- MOV moffs32, EAX: MWRITE with `n = OperandSize / 8`. -/
def execMovMoffsEax (a32 : Bool) (off : Dword) (s : State) : Host.Outcome State Fault Refusal :=
  runQuiet (fun c => storeAccumulator a32 off c.cur.operandBytes c) s

/-- MOV moffs8, AL: MWRITE with `n = 1`. -/
def execMovMoffsAl (a32 : Bool) (off : Dword) (s : State) : Host.Outcome State Fault Refusal :=
  runQuiet (storeAccumulator a32 off 1) s

/-- PUSH r32: SPUSH with `n = OperandSize / 8`. PUSH ESP stores ESP as it was before the push (PRESUMED, log 9). -/
def execPushR32 (r : BitVec 3) (s : State) : Host.Outcome State Fault Refusal :=
  runQuiet (fun c => spush (leBytes c.cur.operandBytes (c.cur.reg r)) c) s

/-- POP r32: SPOP with `n = OperandSize / 8`, and then the register is written: POP ESP leaves the popped value, over the pointer
that the pop moved (PRESUMED, log 9). -/
def execPopR32 (r : BitVec 3) (s : State) : Host.Outcome State Fault Refusal :=
  runQuiet (fun c => do
    let n := c.cur.operandBytes
    let (bs, c) ← spop n c
    .ok (c.onCur fun s => s.setRegLow r n (leValue 32 bs))) s

/-- A segment-override prefix is pending for the instruction it precedes; of several, the last (log 11). -/
def overrideWith (r : SReg) (s : State) : Host.Outcome State Fault Refusal :=
  .next { s with pfx := { s.pfx with seg := some r }, result := .none }

/-- Segment-override prefix ES. -/
def execSegEs (s : State) : Host.Outcome State Fault Refusal := overrideWith .es s

/-- Segment-override prefix CS. -/
def execSegCs (s : State) : Host.Outcome State Fault Refusal := overrideWith .cs s

/-- Segment-override prefix SS. -/
def execSegSs (s : State) : Host.Outcome State Fault Refusal := overrideWith .ss s

/-- Segment-override prefix DS. -/
def execSegDs (s : State) : Host.Outcome State Fault Refusal := overrideWith .ds s

/-- Segment-override prefix FS. -/
def execSegFs (s : State) : Host.Outcome State Fault Refusal := overrideWith .fs s

/-- Segment-override prefix GS. -/
def execSegGs (s : State) : Host.Outcome State Fault Refusal := overrideWith .gs s

end Sys2Proof.Machine
end

