-- ==== Sys2Proof/Machine/Dispatch.lean ====
section
/-! DEFINITION. One arm per constructor of Instr, each one direct call of its meaning. -/

namespace Sys2Proof.Machine

def exec (i : Instr) (s : State) : Host.Outcome State Fault Refusal :=
  match i with
  | .ldseg sreg sel => Sys2Proof.Machine.execLdseg sreg sel s
  | .ldss sel => Sys2Proof.Machine.execLdss sel s
  | .ldcs sel => Sys2Proof.Machine.execLdcs sel s
  | .rdsel sreg => Sys2Proof.Machine.execRdsel sreg s
  | .lgdtr base limit => Sys2Proof.Machine.execLgdtr base limit s
  | .lldtr sel => Sys2Proof.Machine.execLldtr sel s
  | .mread sreg off n => Sys2Proof.Machine.execMread sreg off n s
  | .mwrite sreg off n v => Sys2Proof.Machine.execMwrite sreg off n v s
  | .mfetch off n => Sys2Proof.Machine.execMfetch off n s
  | .spush n v => Sys2Proof.Machine.execSpush n v s
  | .spop n => Sys2Proof.Machine.execSpop n s
  | .pfx66 => Sys2Proof.Machine.execPfx66 s
  | .pfx67 => Sys2Proof.Machine.execPfx67 s
  | .wrcr0 v => Sys2Proof.Machine.execWrcr0 v s
  | .wrcr3 v => Sys2Proof.Machine.execWrcr3 v s
  | .wrcr4 v => Sys2Proof.Machine.execWrcr4 v s
  | .rdcr k => Sys2Proof.Machine.execRdcr k s
  | .tasksw => Sys2Proof.Machine.execTasksw s
  | .maccess64 va kind => Sys2Proof.Machine.execMaccess64 va kind s
  | .movSregRm16 sreg src => Sys2Proof.Machine.execMovSregRm16 sreg src s
  | .movRm16Sreg dst sreg => Sys2Proof.Machine.execMovRm16Sreg dst sreg s
  | .popEs => Sys2Proof.Machine.execPopEs s
  | .popSs => Sys2Proof.Machine.execPopSs s
  | .popDs => Sys2Proof.Machine.execPopDs s
  | .popFs => Sys2Proof.Machine.execPopFs s
  | .popGs => Sys2Proof.Machine.execPopGs s
  | .les r m => Sys2Proof.Machine.execLes r m s
  | .lds r m => Sys2Proof.Machine.execLds r m s
  | .lss r m => Sys2Proof.Machine.execLss r m s
  | .lfs r m => Sys2Proof.Machine.execLfs r m s
  | .lgs r m => Sys2Proof.Machine.execLgs r m s
  | .jmpPtr off sel => Sys2Proof.Machine.execJmpPtr off sel s
  | .callPtr off sel => Sys2Proof.Machine.execCallPtr off sel s
  | .jmpMem m => Sys2Proof.Machine.execJmpMem m s
  | .callMem m => Sys2Proof.Machine.execCallMem m s
  | .retf => Sys2Proof.Machine.execRetf s
  | .retfImm imm => Sys2Proof.Machine.execRetfImm imm s
  | .iret => Sys2Proof.Machine.execIret s
  | .lgdt m => Sys2Proof.Machine.execLgdt m s
  | .sgdt m => Sys2Proof.Machine.execSgdt m s
  | .lldt src => Sys2Proof.Machine.execLldt src s
  | .sldt dst => Sys2Proof.Machine.execSldt dst s
  | .movCrR32 k r => Sys2Proof.Machine.execMovCrR32 k r s
  | .movR32Cr r k => Sys2Proof.Machine.execMovR32Cr r k s
  | .movEaxMoffs a32 off => Sys2Proof.Machine.execMovEaxMoffs a32 off s
  | .movAlMoffs a32 off => Sys2Proof.Machine.execMovAlMoffs a32 off s
  | .movMoffsEax a32 off => Sys2Proof.Machine.execMovMoffsEax a32 off s
  | .movMoffsAl a32 off => Sys2Proof.Machine.execMovMoffsAl a32 off s
  | .pushR32 r => Sys2Proof.Machine.execPushR32 r s
  | .popR32 r => Sys2Proof.Machine.execPopR32 r s
  | .segEs => Sys2Proof.Machine.execSegEs s
  | .segCs => Sys2Proof.Machine.execSegCs s
  | .segSs => Sys2Proof.Machine.execSegSs s
  | .segDs => Sys2Proof.Machine.execSegDs s
  | .segFs => Sys2Proof.Machine.execSegFs s
  | .segGs => Sys2Proof.Machine.execSegGs s

end Sys2Proof.Machine
end

