-- ==== Sys2Proof/Decode.lean ====
section
/-! DEFINITION. Reading an item of a program as an instruction, total and rejecting by name: operations by the formats of
spec/30_encoding.md R152, instruction bytes by the annex R159; then the encoder, the annex's table, and the host's
`decodeTableWord`. -/

namespace Sys2Proof

open Sys2Proof.Machine (DecodeError leValue leBytes natBytes)

/-- The number of a segment register in a `reg` field (R159). -/
def SReg.number : SReg → BitVec 3
  | .es => 0
  | .cs => 1
  | .ss => 2
  | .ds => 3
  | .fs => 4
  | .gs => 5

/-- The segment register a `reg` field names; 6 and 7 name none (R159). -/
def SReg.ofNumber (r : BitVec 3) : Option SReg :=
  if r = 0#3 then some .es
  else if r = 1#3 then some .cs
  else if r = 2#3 then some .ss
  else if r = 3#3 then some .ds
  else if r = 4#3 then some .fs
  else if r = 5#3 then some .gs
  else none

/-- Take `n` bytes off the front. -/
def takeBytes (n : Nat) (bs : List Byte) : Except DecodeError (List Byte × List Byte) :=
  if n ≤ bs.length then .ok (bs.take n, bs.drop n) else .error .truncated

/-- Take a SIB byte off the front, where one follows. -/
def takeSib (has : Bool) (bs : List Byte) : Except DecodeError (Option Byte × List Byte) :=
  if has then
    match bs with
    | b :: bs => .ok (some b, bs)
    | [] => .error .truncated
  else .ok (none, bs)

/-- A ModRM byte (R159: `mod` 7:6, `reg` 5:3, `rm` 2:0) and the SIB and displacement bytes its memory form calls for. -/
def decodeModRM (a32 : Bool) : List Byte → Except DecodeError (BitVec 3 × RM × List Byte)
  | [] => .error .truncated
  | b :: bs => do
    let mod := b.extractLsb' 6 2
    let reg := b.extractLsb' 3 3
    let rm := b.extractLsb' 0 3
    if mod = 3#2 then .ok (reg, .reg rm, bs)
    else
      let (sib, bs) ← takeSib (MemArg.hasSib a32 rm) bs
      let (disp, bs) ← takeBytes (MemArg.dispLen a32 mod rm sib) bs
      .ok (reg, .mem { a32 := a32, mod := mod, rm := rm, sib := sib, disp := disp }, bs)

/-- A ModRM operand that must be memory. -/
def memOnly (op : Byte) : RM → Except DecodeError MemArg
  | .mem m => .ok m
  | .reg _ => .error (.invalidForm op)

/-- The offset after a moffs opcode: 32 bits, or 16 under 16-bit address size. -/
def decodeMoffs (a32 : Bool) (bs : List Byte) : Except DecodeError (Dword × List Byte) := do
  let (o, bs) ← takeBytes (if a32 then 4 else 2) bs
  .ok (leValue 32 o, bs)

/-- An opcode followed by a moffs offset. -/
def decodeMoffsAs (f : Bool → Dword → Instr) (a32 : Bool) (bs : List Byte) : Except DecodeError (Instr × List Byte) := do
  let (o, bs) ← decodeMoffs a32 bs
  .ok (f a32 o, bs)

/-- A far pointer in the instruction: the 32-bit offset, then the selector. -/
def decodeFarAs (f : Dword → Selector → Instr) (bs : List Byte) : Except DecodeError (Instr × List Byte) := do
  let (o, bs) ← takeBytes 4 bs
  let (s, bs) ← takeBytes 2 bs
  .ok (f (leValue 32 o) (leValue 16 s), bs)

/-- A far-pointer load: a general register and memory. -/
def decodeFarLoadAs (f : BitVec 3 → MemArg → Instr) (op : Byte) (a32 : Bool) (bs : List Byte) :
    Except DecodeError (Instr × List Byte) := do
  let (reg, rm, bs) ← decodeModRM a32 bs
  let m ← memOnly op rm
  .ok (f reg m, bs)

/-- 8E: MOV Sreg, r/m16; `reg` = 1 (CS) is an invalid opcode. -/
def decodeMovToSreg (a32 : Bool) (bs : List Byte) : Except DecodeError (Instr × List Byte) := do
  let (reg, rm, bs) ← decodeModRM a32 bs
  match SReg.ofNumber reg with
  | some r => if r = .cs then .error (.invalidForm 0x8E) else .ok (.movSregRm16 r rm, bs)
  | none => .error (.invalidForm 0x8E)

/-- 8C: MOV r/m16, Sreg. -/
def decodeMovFromSreg (a32 : Bool) (bs : List Byte) : Except DecodeError (Instr × List Byte) := do
  let (reg, rm, bs) ← decodeModRM a32 bs
  match SReg.ofNumber reg with
  | some r => .ok (.movRm16Sreg rm r, bs)
  | none => .error (.invalidForm 0x8C)

/-- FF /5 and FF /3: JMP and CALL m16:32. -/
def decodeGroupFF (a32 : Bool) (bs : List Byte) : Except DecodeError (Instr × List Byte) := do
  let (reg, rm, bs) ← decodeModRM a32 bs
  if reg = 5#3 then
    let m ← memOnly 0xFF rm
    .ok (.jmpMem m, bs)
  else if reg = 3#3 then
    let m ← memOnly 0xFF rm
    .ok (.callMem m, bs)
  else .error (.unknownOpcode 0xFF)

/-- 0F 00 /2 and /0: LLDT and SLDT r/m16. -/
def decodeGroup0F00 (a32 : Bool) (bs : List Byte) : Except DecodeError (Instr × List Byte) := do
  let (reg, rm, bs) ← decodeModRM a32 bs
  if reg = 2#3 then .ok (.lldt rm, bs)
  else if reg = 0#3 then .ok (.sldt rm, bs)
  else .error (.unknownOpcode 0x0F)

/-- 0F 01 /2 and /0: LGDT and SGDT m16&32. -/
def decodeGroup0F01 (a32 : Bool) (bs : List Byte) : Except DecodeError (Instr × List Byte) := do
  let (reg, rm, bs) ← decodeModRM a32 bs
  if reg = 2#3 then
    let m ← memOnly 0x0F rm
    .ok (.lgdt m, bs)
  else if reg = 0#3 then
    let m ← memOnly 0x0F rm
    .ok (.sgdt m, bs)
  else .error (.unknownOpcode 0x0F)

/-- 0F 22 and 0F 20: the ModRM byte's `reg` is the control register, `rm` the general register; `mod` is not looked at
(PRESUMED, log 10). -/
def decodeMovCr (toCr : Bool) : List Byte → Except DecodeError (Instr × List Byte)
  | [] => .error .truncated
  | b :: bs =>
    let k := b.extractLsb' 3 3
    let r := b.extractLsb' 0 3
    if controlRegOk k.toNat then .ok (if toCr then .movCrR32 k r else .movR32Cr r k, bs) else .error (.invalidForm 0x0F)

/-- The two-byte opcodes of the annex, after 0F. -/
def decodeTwoByte (a32 : Bool) : List Byte → Except DecodeError (Instr × List Byte)
  | [] => .error .truncated
  | b :: bs =>
    if b = 0x00 then decodeGroup0F00 a32 bs
    else if b = 0x01 then decodeGroup0F01 a32 bs
    else if b = 0x20 then decodeMovCr false bs
    else if b = 0x22 then decodeMovCr true bs
    else if b = 0xA1 then .ok (.popFs, bs)
    else if b = 0xA9 then .ok (.popGs, bs)
    else if b = 0xB2 then decodeFarLoadAs .lss 0x0F a32 bs
    else if b = 0xB4 then decodeFarLoadAs .lfs 0x0F a32 bs
    else if b = 0xB5 then decodeFarLoadAs .lgs 0x0F a32 bs
    else .error (.unknownOpcode 0x0F)

/-- The one-byte opcodes with operand bytes. -/
def decodeWithOperands (a32 : Bool) (b : Byte) (bs : List Byte) : Except DecodeError (Instr × List Byte) :=
  if b = 0x0F then decodeTwoByte a32 bs
  else if b = 0x8C then decodeMovFromSreg a32 bs
  else if b = 0x8E then decodeMovToSreg a32 bs
  else if b = 0x9A then decodeFarAs .callPtr bs
  else if b = 0xA0 then decodeMoffsAs .movAlMoffs a32 bs
  else if b = 0xA1 then decodeMoffsAs .movEaxMoffs a32 bs
  else if b = 0xA2 then decodeMoffsAs .movMoffsAl a32 bs
  else if b = 0xA3 then decodeMoffsAs .movMoffsEax a32 bs
  else if b = 0xC4 then decodeFarLoadAs .les 0xC4 a32 bs
  else if b = 0xC5 then decodeFarLoadAs .lds 0xC5 a32 bs
  else if b = 0xCA then do
    let (i, bs) ← takeBytes 2 bs
    .ok (.retfImm (leValue 16 i), bs)
  else if b = 0xEA then decodeFarAs .jmpPtr bs
  else if b = 0xFF then decodeGroupFF a32 bs
  else .error (.unknownOpcode b)

/-- The one-byte opcodes that stand alone: prefixes, POP of a segment register, PUSH and POP of a general register, far
returns. -/
def decodeAlone (b : Byte) : Option Instr :=
  if b = 0x66 then some .pfx66
  else if b = 0x67 then some .pfx67
  else if b = 0x26 then some .segEs
  else if b = 0x2E then some .segCs
  else if b = 0x36 then some .segSs
  else if b = 0x3E then some .segDs
  else if b = 0x64 then some .segFs
  else if b = 0x65 then some .segGs
  else if b = 0x07 then some .popEs
  else if b = 0x17 then some .popSs
  else if b = 0x1F then some .popDs
  else if b = 0xCB then some .retf
  else if b = 0xCF then some .iret
  else if b.extractLsb' 3 5 = 0b01010#5 then some (.pushR32 (b.extractLsb' 0 3))
  else if b.extractLsb' 3 5 = 0b01011#5 then some (.popR32 (b.extractLsb' 0 3))
  else none

/-- One instruction off the front of a stream of bytes, under an address size (R159, R226). -/
def decodeCode (a32 : Bool) : List Byte → Except DecodeError (Instr × List Byte)
  | [] => .error .empty
  | b :: bs =>
    match decodeAlone b with
    | some i => .ok (i, bs)
    | none => decodeWithOperands a32 b bs

/-- A number as an operand of `w` bits. -/
def argBits (name : OpName) (w n : Nat) : Except DecodeError (BitVec w) :=
  if n < 2 ^ w then .ok (BitVec.ofNat w n) else .error (.operandRange name)

/-- An operation whose operands lie in the ranges of R152. -/
def checked (name : OpName) (i : Instr) : Except DecodeError Instr :=
  if i.wf then .ok i else .error (.operandRange name)

/-- An operation of the spec from its mnemonic and operands, in the order of R152's table. -/
def decodeOp (name : OpName) (args : List Arg) : Except DecodeError Instr :=
  match name, args with
  | .LDSEG, [.sreg r, .num sel] => do checked name (.ldseg r (← argBits name 16 sel))
  | .LDSS, [.num sel] => do checked name (.ldss (← argBits name 16 sel))
  | .LDCS, [.num sel] => do checked name (.ldcs (← argBits name 16 sel))
  | .RDSEL, [.sreg r] => .ok (.rdsel r)
  | .LGDTR, [.num base, .num limit] => do checked name (.lgdtr (← argBits name 32 base) (← argBits name 16 limit))
  | .LLDTR, [.num sel] => do checked name (.lldtr (← argBits name 16 sel))
  | .MREAD, [.sreg r, .num off, .num n] => do checked name (.mread r (← argBits name 32 off) n)
  | .MWRITE, [.sreg r, .num off, .num n, .num v] => do
    checked name (.mwrite r (← argBits name 32 off) n (← argBits name 32 v))
  | .MFETCH, [.num off, .num n] => do checked name (.mfetch (← argBits name 32 off) n)
  | .SPUSH, [.num n, .num v] => do checked name (.spush n (← argBits name 32 v))
  | .SPOP, [.num n] => checked name (.spop n)
  | .PFX66, [] => .ok .pfx66
  | .PFX67, [] => .ok .pfx67
  | .WRCR0, [.num v] => do checked name (.wrcr0 (← argBits name 32 v))
  | .WRCR3, [.num v] => do checked name (.wrcr3 (← argBits name 32 v))
  | .WRCR4, [.num v] => do checked name (.wrcr4 (← argBits name 32 v))
  | .RDCR, [.num k] => checked name (.rdcr k)
  | .TASKSW, [] => .ok .tasksw
  | .MACCESS64, [.num va, .kind k] => do checked name (.maccess64 (← argBits name 64 va) k)
  | _, _ => .error (.badOperands name)

/-- The next instruction of an item, and what is left of the item: the rest of its bytes, if any. -/
def decodeItem (a32 : Bool) : Item → Except DecodeError (Instr × List Item)
  | .op name args => do
    let i ← decodeOp name args
    .ok (i, [])
  | .code bytes => do
    let (i, rest) ← decodeCode a32 bytes
    .ok (i, if rest = [] then [] else [.code rest])

/-- A ModRM byte from its fields. -/
def modRM (mod : BitVec 2) (reg rm : BitVec 3) : Byte := mod ++ reg ++ rm

/-- The bytes of a ModRM operand. -/
def encodeModRM (reg : BitVec 3) : RM → List Byte
  | .reg r => [modRM 3 reg r]
  | .mem m => modRM m.mod reg m.rm :: (m.sib.toList ++ m.disp)

/-- The bytes of a moffs offset. -/
def encodeMoffs (a32 : Bool) (off : Dword) : List Byte := leBytes (if a32 then 4 else 2) off

/-- The bytes of a far pointer (R153 (b)). -/
def encodeFar (off : Dword) (sel : Selector) : List Byte := leBytes 4 off ++ leBytes 2 sel

/-- The encoder: an operation of the spec as its mnemonic and operands (R152), an instruction of the annex and the two
prefixes as bytes (R155, R159). -/
def encode : Instr → Item
  | .ldseg r sel => .op .LDSEG [.sreg r, .num sel.toNat]
  | .ldss sel => .op .LDSS [.num sel.toNat]
  | .ldcs sel => .op .LDCS [.num sel.toNat]
  | .rdsel r => .op .RDSEL [.sreg r]
  | .lgdtr base limit => .op .LGDTR [.num base.toNat, .num limit.toNat]
  | .lldtr sel => .op .LLDTR [.num sel.toNat]
  | .mread r off n => .op .MREAD [.sreg r, .num off.toNat, .num n]
  | .mwrite r off n v => .op .MWRITE [.sreg r, .num off.toNat, .num n, .num v.toNat]
  | .mfetch off n => .op .MFETCH [.num off.toNat, .num n]
  | .spush n v => .op .SPUSH [.num n, .num v.toNat]
  | .spop n => .op .SPOP [.num n]
  | .pfx66 => .code [0x66]
  | .pfx67 => .code [0x67]
  | .wrcr0 v => .op .WRCR0 [.num v.toNat]
  | .wrcr3 v => .op .WRCR3 [.num v.toNat]
  | .wrcr4 v => .op .WRCR4 [.num v.toNat]
  | .rdcr k => .op .RDCR [.num k]
  | .tasksw => .op .TASKSW []
  | .maccess64 va k => .op .MACCESS64 [.num va.toNat, .kind k]
  | .movSregRm16 r src => .code (0x8E :: encodeModRM r.number src)
  | .movRm16Sreg dst r => .code (0x8C :: encodeModRM r.number dst)
  | .popEs => .code [0x07]
  | .popSs => .code [0x17]
  | .popDs => .code [0x1F]
  | .popFs => .code [0x0F, 0xA1]
  | .popGs => .code [0x0F, 0xA9]
  | .les r m => .code (0xC4 :: encodeModRM r (.mem m))
  | .lds r m => .code (0xC5 :: encodeModRM r (.mem m))
  | .lss r m => .code (0x0F :: 0xB2 :: encodeModRM r (.mem m))
  | .lfs r m => .code (0x0F :: 0xB4 :: encodeModRM r (.mem m))
  | .lgs r m => .code (0x0F :: 0xB5 :: encodeModRM r (.mem m))
  | .jmpPtr off sel => .code (0xEA :: encodeFar off sel)
  | .callPtr off sel => .code (0x9A :: encodeFar off sel)
  | .jmpMem m => .code (0xFF :: encodeModRM 5 (.mem m))
  | .callMem m => .code (0xFF :: encodeModRM 3 (.mem m))
  | .retf => .code [0xCB]
  | .retfImm imm => .code (0xCA :: leBytes 2 imm)
  | .iret => .code [0xCF]
  | .lgdt m => .code (0x0F :: 0x01 :: encodeModRM 2 (.mem m))
  | .sgdt m => .code (0x0F :: 0x01 :: encodeModRM 0 (.mem m))
  | .lldt src => .code (0x0F :: 0x00 :: encodeModRM 2 src)
  | .sldt dst => .code (0x0F :: 0x00 :: encodeModRM 0 dst)
  | .movCrR32 k r => .code [0x0F, 0x22, modRM 3 k r]
  | .movR32Cr r k => .code [0x0F, 0x20, modRM 3 k r]
  | .movEaxMoffs a off => .code (0xA1 :: encodeMoffs a off)
  | .movAlMoffs a off => .code (0xA0 :: encodeMoffs a off)
  | .movMoffsEax a off => .code (0xA3 :: encodeMoffs a off)
  | .movMoffsAl a off => .code (0xA2 :: encodeMoffs a off)
  | .pushR32 r => .code [(0b01010#5 ++ r : BitVec 8)]
  | .popR32 r => .code [(0b01011#5 ++ r : BitVec 8)]
  | .segEs => .code [0x26]
  | .segCs => .code [0x2E]
  | .segSs => .code [0x36]
  | .segDs => .code [0x3E]
  | .segFs => .code [0x64]
  | .segGs => .code [0x65]

/-- A row of spec/opcode_table.json with an encoding: its `match` and `mask`, byte by byte in stream order (R159). -/
structure TableRow where
  pattern : List Byte
  mask : List Byte
  deriving DecidableEq, Repr

/-- The row of an instruction, of one that has an encoding. -/
def tableRow : Instr → Option TableRow
  | .ldseg _ _ | .ldss _ | .ldcs _ | .rdsel _ | .lgdtr _ _ | .lldtr _ | .mread _ _ _ | .mwrite _ _ _ _ | .mfetch _ _
  | .spush _ _ | .spop _ | .wrcr0 _ | .wrcr3 _ | .wrcr4 _ | .rdcr _ | .tasksw | .maccess64 _ _ => none
  | .pfx66 => some { pattern := [0x66], mask := [0xFF] }
  | .pfx67 => some { pattern := [0x67], mask := [0xFF] }
  | .movSregRm16 _ _ => some { pattern := [0x8E], mask := [0xFF] }
  | .movRm16Sreg _ _ => some { pattern := [0x8C], mask := [0xFF] }
  | .popEs => some { pattern := [0x07], mask := [0xFF] }
  | .popSs => some { pattern := [0x17], mask := [0xFF] }
  | .popDs => some { pattern := [0x1F], mask := [0xFF] }
  | .popFs => some { pattern := [0x0F, 0xA1], mask := [0xFF, 0xFF] }
  | .popGs => some { pattern := [0x0F, 0xA9], mask := [0xFF, 0xFF] }
  | .les _ _ => some { pattern := [0xC4], mask := [0xFF] }
  | .lds _ _ => some { pattern := [0xC5], mask := [0xFF] }
  | .lss _ _ => some { pattern := [0x0F, 0xB2], mask := [0xFF, 0xFF] }
  | .lfs _ _ => some { pattern := [0x0F, 0xB4], mask := [0xFF, 0xFF] }
  | .lgs _ _ => some { pattern := [0x0F, 0xB5], mask := [0xFF, 0xFF] }
  | .jmpPtr _ _ => some { pattern := [0xEA], mask := [0xFF] }
  | .callPtr _ _ => some { pattern := [0x9A], mask := [0xFF] }
  | .jmpMem _ => some { pattern := [0xFF, 0x28], mask := [0xFF, 0x38] }
  | .callMem _ => some { pattern := [0xFF, 0x18], mask := [0xFF, 0x38] }
  | .retf => some { pattern := [0xCB], mask := [0xFF] }
  | .retfImm _ => some { pattern := [0xCA], mask := [0xFF] }
  | .iret => some { pattern := [0xCF], mask := [0xFF] }
  | .lgdt _ => some { pattern := [0x0F, 0x01, 0x10], mask := [0xFF, 0xFF, 0x38] }
  | .sgdt _ => some { pattern := [0x0F, 0x01, 0x00], mask := [0xFF, 0xFF, 0x38] }
  | .lldt _ => some { pattern := [0x0F, 0x00, 0x10], mask := [0xFF, 0xFF, 0x38] }
  | .sldt _ => some { pattern := [0x0F, 0x00, 0x00], mask := [0xFF, 0xFF, 0x38] }
  | .movCrR32 _ _ => some { pattern := [0x0F, 0x22], mask := [0xFF, 0xFF] }
  | .movR32Cr _ _ => some { pattern := [0x0F, 0x20], mask := [0xFF, 0xFF] }
  | .movEaxMoffs _ _ => some { pattern := [0xA1], mask := [0xFF] }
  | .movAlMoffs _ _ => some { pattern := [0xA0], mask := [0xFF] }
  | .movMoffsEax _ _ => some { pattern := [0xA3], mask := [0xFF] }
  | .movMoffsAl _ _ => some { pattern := [0xA2], mask := [0xFF] }
  | .pushR32 _ => some { pattern := [0x50], mask := [0xF8] }
  | .popR32 _ => some { pattern := [0x58], mask := [0xF8] }
  | .segEs => some { pattern := [0x26], mask := [0xFF] }
  | .segCs => some { pattern := [0x2E], mask := [0xFF] }
  | .segSs => some { pattern := [0x36], mask := [0xFF] }
  | .segDs => some { pattern := [0x3E], mask := [0xFF] }
  | .segFs => some { pattern := [0x64], mask := [0xFF] }
  | .segGs => some { pattern := [0x65], mask := [0xFF] }

/-- Bytes match a row: `(bytes & mask) = match`, over the row's bytes (R159). -/
def TableRow.matches (row : TableRow) (bytes : List Byte) : Bool :=
  row.mask.length ≤ bytes.length && (List.zipWith (· &&& ·) bytes row.mask == row.pattern)

/-- How many bits the table gives an instruction's row. -/
def tableBits (i : Instr) : Nat :=
  match tableRow i with
  | some row => 8 * row.mask.length
  | none => 0

/-- Whether bytes decode, at 32-bit address size, to an instruction whose row has `nbits` bits. -/
def decodesWithBits (nbits : Nat) (bytes : List Byte) : Bool :=
  match decodeCode true bytes with
  | .ok (i, _) => tableBits i == nbits
  | .error _ => false

/-- The instruction stream of a table word, padded with zero bytes to 15, the longest instruction (41_memory_access_ops.md
R222). A row of several bytes is one number in spec/opcode_table.json, its first stream byte most significant (R159); a word
that is no row of that length so is read with its first byte least significant (log 13). -/
def tableBytes (nbits w : Nat) : List Byte :=
  let k := nbits / 8
  let low := natBytes k w
  let pad := List.replicate (15 - k) (0 : Byte)
  if decodesWithBits nbits (low.reverse ++ pad) then low.reverse ++ pad else low ++ pad

/-- The instruction the decoder reads from a table word. -/
def decodeTableWord (nbits w : Nat) : Option Instr :=
  match decodeCode true (tableBytes nbits w) with
  | .ok (i, _) => some i
  | .error _ => none

end Sys2Proof
end

