-- ==== Sys2Proof/Machine/Fetch.lean ====
section
/-! DEFINITION. What comes next in the schedule (spec/30_encoding.md R151, log 1): the processor's next item, decoded; a
write by the environment agent (spec/20_memory.md R131); a TLB record vanishing (R129 (c)). -/

namespace Sys2Proof.Machine

/-- What a step does. -/
inductive Next where
  /-- Run an instruction, with the schedule that is left after it. -/
  | run (i : Instr) (rest : List Event)
  /-- Another agent moves. -/
  | agent (s : State)
  /-- No instruction can be read. -/
  | stop (r : Refusal)
  deriving DecidableEq, Repr

/-- The environment agent writes a byte of read-write memory, and of nothing else (R131). -/
def State.environmentWrite (s : State) (pa : PhysAddr) (b : Byte) : State :=
  if s.kindAt pa = .readWrite then s.setMem (s.mem.write pa.toNat b) else s

/-- A record of the TLB vanishes (R129 (c)). -/
def State.dropRecord (s : State) (k : Nat) : State := s.setTlb (s.tlb.eraseIdx k)

/-- The next event of the schedule. -/
def nextOf (s : State) : Next :=
  match s.queue with
  | [] => .stop .endOfProgram
  | .environment pa b :: q => .agent ((s.environmentWrite pa b).setQueue q)
  | .tlbDrop k :: q => .agent ((s.dropRecord k).setQueue q)
  | .processor item :: q =>
    match decodeItem s.address32 item with
    | .ok (i, rest) => .run i (rest.map Event.processor ++ q)
    | .error e => .stop (.undecodable e)

/-- After an instruction, the schedule moves on; an exception leaves its own item in place, since the instruction is restarted
(60_exceptions.md R299). -/
def advance (rest : List Event) (o : Host.Outcome State Fault Refusal) : Host.Outcome State Fault Refusal :=
  match o with
  | .next s => .next (s.setQueue rest)
  | .fault f => .fault f
  | .refused r => .refused r

end Sys2Proof.Machine
end

