-- ==== Sys2Proof/Machine/Step.lean ====
section
/-! DEFINITION. One step of the machine, and the placing of a program's next instruction (log 1). -/

namespace Sys2Proof.Machine

/-- One step: the next event of the schedule. Its outcomes are a next state, an exception, a refusal (00_scope.md R11). -/
def step (s : State) : Host.Outcome State Fault Refusal :=
  match nextOf s with
  | .run i rest => advance rest (exec i s)
  | .agent t => .next t
  | .stop r => .refused r

/-- The bytes of a table word become the next item of the schedule (log 1, log 13). -/
def State.withFetchWord (s : State) (nbits w : Nat) : State :=
  s.setQueue (.processor (.code (tableBytes nbits w)) :: s.queue)

end Sys2Proof.Machine
end

