-- ==== Sys2Proof/Laws/PerInstr.lean ====
section
/-! SUPPORT. Statements about each instruction as syntax, one lemma per constructor: the encoder writes bytes that match the
instruction's row of spec/opcode_table.json. -/

namespace Sys2Proof.Laws.EncodeMatchesTable

/-- An instruction's encoding matches the `match` and `mask` of its row, and it has one where the table has one. -/
def Statement (i : Instr) : Prop :=
  match encode i, tableRow i with
  | .code bytes, some row => row.matches bytes = true
  | .op _ _, none => True
  | .code _, none => False
  | .op _ _, some _ => False

/-- The `reg` field of a ModRM byte, under the mask that holds it. -/
theorem modRM_masked (mod : BitVec 2) (rm : BitVec 3) :
    modRM mod 0#3 rm &&& 0x38#8 = 0x00#8 ∧ modRM mod 2#3 rm &&& 0x38#8 = 0x10#8 ∧ modRM mod 3#3 rm &&& 0x38#8 = 0x18#8 ∧
      modRM mod 5#3 rm &&& 0x38#8 = 0x28#8 := by
  revert mod rm; decide

theorem ldseg (sreg : SReg) (sel : Selector) : Statement (.ldseg sreg sel) := trivial

theorem ldss (sel : Selector) : Statement (.ldss sel) := trivial

theorem ldcs (sel : Selector) : Statement (.ldcs sel) := trivial

theorem rdsel (sreg : SReg) : Statement (.rdsel sreg) := trivial

theorem lgdtr (base : Linear) (limit : BitVec 16) : Statement (.lgdtr base limit) := trivial

theorem lldtr (sel : Selector) : Statement (.lldtr sel) := trivial

theorem mread (sreg : SReg) (off : Dword) (n : Nat) : Statement (.mread sreg off n) := trivial

theorem mwrite (sreg : SReg) (off : Dword) (n : Nat) (v : Dword) : Statement (.mwrite sreg off n v) := trivial

theorem mfetch (off : Dword) (n : Nat) : Statement (.mfetch off n) := trivial

theorem spush (n : Nat) (v : Dword) : Statement (.spush n v) := trivial

theorem spop (n : Nat) : Statement (.spop n) := trivial

theorem pfx66 : Statement .pfx66 := rfl

theorem pfx67 : Statement .pfx67 := rfl

theorem wrcr0 (v : Dword) : Statement (.wrcr0 v) := trivial

theorem wrcr3 (v : Dword) : Statement (.wrcr3 v) := trivial

theorem wrcr4 (v : Dword) : Statement (.wrcr4 v) := trivial

theorem rdcr (k : Nat) : Statement (.rdcr k) := trivial

theorem tasksw : Statement .tasksw := trivial

theorem maccess64 (va : BitVec 64) (kind : PageAccess) : Statement (.maccess64 va kind) := trivial

theorem movSregRm16 (sreg : SReg) (src : RM) : Statement (.movSregRm16 sreg src) := by
  simp [Statement, encode, tableRow, TableRow.matches]

theorem movRm16Sreg (dst : RM) (sreg : SReg) : Statement (.movRm16Sreg dst sreg) := by
  simp [Statement, encode, tableRow, TableRow.matches]

theorem popEs : Statement .popEs := rfl

theorem popSs : Statement .popSs := rfl

theorem popDs : Statement .popDs := rfl

theorem popFs : Statement .popFs := rfl

theorem popGs : Statement .popGs := rfl

theorem les (r : BitVec 3) (m : MemArg) : Statement (.les r m) := by
  simp [Statement, encode, tableRow, TableRow.matches]

theorem lds (r : BitVec 3) (m : MemArg) : Statement (.lds r m) := by
  simp [Statement, encode, tableRow, TableRow.matches]

theorem lss (r : BitVec 3) (m : MemArg) : Statement (.lss r m) := by
  simp [Statement, encode, tableRow, TableRow.matches]

theorem lfs (r : BitVec 3) (m : MemArg) : Statement (.lfs r m) := by
  simp [Statement, encode, tableRow, TableRow.matches]

theorem lgs (r : BitVec 3) (m : MemArg) : Statement (.lgs r m) := by
  simp [Statement, encode, tableRow, TableRow.matches]

theorem jmpPtr (off : Dword) (sel : Selector) : Statement (.jmpPtr off sel) := by
  simp [Statement, encode, tableRow, TableRow.matches]

theorem callPtr (off : Dword) (sel : Selector) : Statement (.callPtr off sel) := by
  simp [Statement, encode, tableRow, TableRow.matches]

theorem jmpMem (m : MemArg) : Statement (.jmpMem m) := by
  have h := (modRM_masked m.mod m.rm).2.2.2
  simp [Statement, encode, tableRow, TableRow.matches, encodeModRM, h]

theorem callMem (m : MemArg) : Statement (.callMem m) := by
  have h := (modRM_masked m.mod m.rm).2.2.1
  simp [Statement, encode, tableRow, TableRow.matches, encodeModRM, h]

theorem retf : Statement .retf := rfl

theorem retfImm (imm : BitVec 16) : Statement (.retfImm imm) := by
  simp [Statement, encode, tableRow, TableRow.matches]

theorem iret : Statement .iret := rfl

theorem lgdt (m : MemArg) : Statement (.lgdt m) := by
  have h := (modRM_masked m.mod m.rm).2.1
  simp [Statement, encode, tableRow, TableRow.matches, encodeModRM, h]

theorem sgdt (m : MemArg) : Statement (.sgdt m) := by
  have h := (modRM_masked m.mod m.rm).1
  simp [Statement, encode, tableRow, TableRow.matches, encodeModRM, h]

theorem lldt (src : RM) : Statement (.lldt src) := by
  cases src with
  | reg r =>
    have h := (modRM_masked 3#2 r).2.1
    simp [Statement, encode, tableRow, TableRow.matches, encodeModRM, h]
  | mem m =>
    have h := (modRM_masked m.mod m.rm).2.1
    simp [Statement, encode, tableRow, TableRow.matches, encodeModRM, h]

theorem sldt (dst : RM) : Statement (.sldt dst) := by
  cases dst with
  | reg r =>
    have h := (modRM_masked 3#2 r).1
    simp [Statement, encode, tableRow, TableRow.matches, encodeModRM, h]
  | mem m =>
    have h := (modRM_masked m.mod m.rm).1
    simp [Statement, encode, tableRow, TableRow.matches, encodeModRM, h]

theorem movCrR32 (k : BitVec 3) (r : BitVec 3) : Statement (.movCrR32 k r) := by
  simp [Statement, encode, tableRow, TableRow.matches]

theorem movR32Cr (r : BitVec 3) (k : BitVec 3) : Statement (.movR32Cr r k) := by
  simp [Statement, encode, tableRow, TableRow.matches]

theorem movEaxMoffs (a32 : Bool) (off : Dword) : Statement (.movEaxMoffs a32 off) := by
  simp [Statement, encode, tableRow, TableRow.matches]

theorem movAlMoffs (a32 : Bool) (off : Dword) : Statement (.movAlMoffs a32 off) := by
  simp [Statement, encode, tableRow, TableRow.matches]

theorem movMoffsEax (a32 : Bool) (off : Dword) : Statement (.movMoffsEax a32 off) := by
  simp [Statement, encode, tableRow, TableRow.matches]

theorem movMoffsAl (a32 : Bool) (off : Dword) : Statement (.movMoffsAl a32 off) := by
  simp [Statement, encode, tableRow, TableRow.matches]

theorem pushR32 (r : BitVec 3) : Statement (.pushR32 r) := by
  have h : ∀ r : BitVec 3, (match encode (.pushR32 r), tableRow (.pushR32 r) with | .code b, some w => w.matches b | _, _ => false) = true := by decide
  exact h r

theorem popR32 (r : BitVec 3) : Statement (.popR32 r) := by
  have h : ∀ r : BitVec 3, (match encode (.popR32 r), tableRow (.popR32 r) with | .code b, some w => w.matches b | _, _ => false) = true := by decide
  exact h r

theorem segEs : Statement .segEs := rfl

theorem segCs : Statement .segCs := rfl

theorem segSs : Statement .segSs := rfl

theorem segDs : Statement .segDs := rfl

theorem segFs : Statement .segFs := rfl

theorem segGs : Statement .segGs := rfl

end Sys2Proof.Laws.EncodeMatchesTable
end

