-- ==== Sys2Proof/Safety.lean ====
section
/-! DEFINITION. The terms claims are stated in: the launch premises of spec/70_reset_and_hazards.md R331, the invariant of
every step, what an exception may leave, and what loads, reads and stores do with paging off. -/

namespace Sys2Proof.Machine

/-- R331 (a): CPL is the RPL field of CS. -/
abbrev cplMatchesCs (s : State) : Prop := s.cpl = selRPL s.segs.cs.sel

/-- R331 (b): CS holds a code segment. -/
abbrev csIsCode (s : State) : Prop := s.segs.cs.h.valid = true ∧ s.segs.cs.h.s = true ∧ isCode s.segs.cs.h.typ = true

/-- R331 (c): SS holds a writable data segment. -/
abbrev ssIsStack (s : State) : Prop :=
  s.segs.ss.h.valid = true ∧ s.segs.ss.h.s = true ∧ isWritableData s.segs.ss.h.typ = true

/-- R331 (d) for one segment register: a valid hidden part is present and no system descriptor's. -/
abbrev validIsPresent (h : Hidden) : Prop := h.valid = true → h.p = true ∧ h.s = true

/-- R331 (d) for every segment register. -/
abbrev segmentsPresent (s : State) : Prop := ∀ r : SReg, validIsPresent (s.seg r).h

/-- R331 (d) for LDTR: a valid cached part is a present LDT's. -/
abbrev ldtrIsLdt (s : State) : Prop :=
  s.ldtr.h.valid = true → s.ldtr.h.p = true ∧ s.ldtr.h.s = false ∧ s.ldtr.h.typ = 2#4

/-- R331 (e): a register other than CS and SS with a null selector is not valid. -/
abbrev nullIsInvalid (s : State) : Prop :=
  ∀ r : SReg, r.isData = true → isNull (s.seg r).sel = true → (s.seg r).h.valid = false

/-- R331 (g): PAE is clear whenever paging is on. -/
abbrev noPae (s : State) : Prop := s.pg = true → s.cr4.pae = false

/-- The invariant of every step: memory in canonical form, and R331 (a) to (e). -/
structure Inv (s : State) : Prop where
  memory : s.mem.wf = true
  cpl : cplMatchesCs s
  code : csIsCode s
  stack : ssIsStack s
  present : segmentsPresent s
  ldt : ldtrIsLdt s
  null : nullIsInvalid s

/-- A byte `b'` differs from `b` at most by A and D bits newly set (20_memory.md R121, R122, R128). -/
abbrev flagsOnly (b b' : Byte) : Prop := b' = b ∨ b' = b ||| 0x20 ∨ b' = b ||| 0x40 ∨ b' = b ||| 0x60

/-- What an exception may leave (60_exceptions.md R300): the state before the operation, but for bits 5 and 6 of bytes of memory
newly set (where A and D stand in an entry's first byte), TLB records added, and the count of draws. -/
structure SameButFlags (s t : State) : Prop where
  rest : t = { s with mem := t.mem, tlb := t.tlb, draws := t.draws }
  bytes : ∀ a : Nat, flagsOnly (s.mem.read a) (t.mem.read a)
  records : ∀ r ∈ s.tlb, r ∈ t.tlb

/-- A linear address as the physical address it is with paging off (20_memory.md R110). -/
def flat (la : Linear) : PhysAddr := la.setWidth 36

/-- The bytes at `n` linear addresses from `la` on, modulo 2^32, with paging off. -/
def State.flatBytes (s : State) (la : Linear) : Nat → List Byte
  | 0 => []
  | n + 1 => s.byteAt (flat la) :: s.flatBytes (la + 1) n

/-- Memory backs a physical address: a read returns the stored byte (R227). -/
abbrev State.isMemory (s : State) (pa : PhysAddr) : Prop := s.kindAt pa = .readWrite ∨ s.kindAt pa = .readOnly

/-- With paging off, `n` bytes from `la` on are memory. -/
abbrev State.flatReadable (s : State) (la : Linear) (n : Nat) : Prop :=
  ∀ i : Nat, i < n → s.isMemory (flat (la + BitVec.ofNat 32 i))

/-- With paging off, `n` bytes from `la` on are read-write memory. -/
abbrev State.flatWritable (s : State) (la : Linear) (n : Nat) : Prop :=
  ∀ i : Nat, i < n → s.kindAt (flat (la + BitVec.ofNat 32 i)) = .readWrite

/-- Bytes stored from `la` on, modulo 2^32, with paging off. -/
def State.flatStore (s : State) (la : Linear) : List Byte → State
  | [] => s
  | b :: bs => (s.setMem (s.mem.write (flat la).toNat b)).flatStore (la + 1) bs

/-- The descriptor a selector names, as memory holds it with paging off (20_memory.md R85, R97). -/
def State.flatDescriptor (s : State) (sel : Selector) : Descriptor :=
  decodeDescriptor (leValue 32 (s.flatBytes (s.descAddr sel) 4)) (leValue 32 (s.flatBytes (s.descAddr sel + 4) 4))

/-- With paging off, a descriptor fetch returns: the selector lies in its table, the table in memory, bit 21 is 0 (R97). -/
structure State.flatFetchable (s : State) (sel : Selector) : Prop where
  pagingOff : s.pg = false
  inTable : s.selectorInTable sel = true
  lo : s.flatReadable (s.descAddr sel) 4
  hi : s.flatReadable (s.descAddr sel + 4) 4
  reserved : reservedBitSet (leValue 32 (s.flatBytes (s.descAddr sel + 4) 4)) = false

/-- The accessed bit set in memory where it is clear (40_segment_register_ops.md R197), with paging off. -/
def State.flatMark (s : State) (sel : Selector) : State :=
  if isAccessed (s.flatDescriptor sel).typ then s
  else s.flatStore (s.descAddr sel + 5) [s.byteAt (flat (s.descAddr sel + 5)) ||| 1]

/-- The type and privilege checks of a load into `r` (R190, R191, R192). -/
def loadChecks (r : SReg) (cpl : BitVec 2) (sel : Selector) (d : Descriptor) : Bool :=
  match r with
  | .cs => d.s && codeLoadOk cpl sel d
  | .ss => stackLoadOk cpl sel d
  | .ds | .es | .fs | .gs => dataLoadOk cpl sel d

/-- With paging off, the load of a selector that is not null into `r` completes (R190 to R192): the descriptor can be
fetched, passes the checks, is present, and its accessed bit can be written where it is clear. -/
structure State.flatLoadable (s : State) (r : SReg) (sel : Selector) : Prop where
  notNull : isNull sel = false
  fetch : s.flatFetchable sel
  checks : loadChecks r s.cpl sel (s.flatDescriptor sel) = true
  present : (s.flatDescriptor sel).p = true
  mark : isAccessed (s.flatDescriptor sel).typ = false → s.kindAt (flat (s.descAddr sel + 5)) = .readWrite

/-- The selector `r` holds after the load: in CS, with CPL in bits 1:0 (R192). -/
def loadedSelector (r : SReg) (cpl : BitVec 2) (sel : Selector) : Selector :=
  if r = .cs then (sel &&& 0xFFFC) ||| cpl.setWidth 16 else sel

/-- The state after that load: the accessed bit set, the register holding the selector and the descriptor's fields. -/
def State.flatLoaded (s : State) (r : SReg) (sel : Selector) : State :=
  (s.flatMark sel).setSeg r { sel := loadedSelector r s.cpl sel, h := (s.flatDescriptor sel).loaded }

/-- The operation of the spec that loads `r` (30_encoding.md R154). -/
def loadOf (r : SReg) (sel : Selector) : Instr :=
  match r with
  | .cs => .ldcs sel
  | .ss => .ldss sel
  | .ds | .es | .fs | .gs => .ldseg r sel

/-- The state after a null selector is loaded into a register other than CS and SS (R190). -/
def State.nullLoaded (s : State) (r : SReg) (sel : Selector) : State :=
  s.setSeg r { sel := sel, h := { (s.seg r).h with valid := false } }

/-- A load of `r` with `sel` completes, with paging off: a null selector into a data register, or a loadable one. -/
abbrev State.flatLoadOk (s : State) (r : SReg) (sel : Selector) : Prop :=
  (r.isData = true ∧ isNull sel = true) ∨ s.flatLoadable r sel

/-- The state it completes with. -/
def State.afterLoad (s : State) (r : SReg) (sel : Selector) : State :=
  if isNull sel then s.nullLoaded r sel else s.flatLoaded r sel

/-- With paging off, a logical read of `n` bytes completes. -/
structure State.flatMemReadable (s : State) (r : SReg) (off : Dword) (n : Nat) : Prop where
  pagingOff : s.pg = false
  check : segCheck r (s.seg r).h off n .read = true
  memory : s.flatReadable ((s.seg r).h.base + off) n

/-- The bytes it reads. -/
def State.flatMemBytes (s : State) (r : SReg) (off : Dword) (n : Nat) : List Byte :=
  s.flatBytes ((s.seg r).h.base + off) n

/-- With paging off, a logical write of `n` bytes completes. -/
structure State.flatMemWritable (s : State) (r : SReg) (off : Dword) (n : Nat) : Prop where
  pagingOff : s.pg = false
  check : segCheck r (s.seg r).h off n .write = true
  memory : s.flatWritable ((s.seg r).h.base + off) n

/-- The state after it. -/
def State.flatMemStore (s : State) (r : SReg) (off : Dword) (bytes : List Byte) : State :=
  s.flatStore ((s.seg r).h.base + off) bytes

/-- The offset a push of `n` bytes writes at, and the new stack pointer: with B = 1 `ESP - n`, with B = 0
`zext_32((ESP[15:0] - n) mod 2^16)` (41_memory_access_ops.md R223). -/
def State.pushOffset (s : State) (n : Nat) : Dword :=
  if s.segs.ss.h.db then s.esp - BitVec.ofNat 32 n
  else (s.esp.extractLsb' 0 16 - BitVec.ofNat 16 n).setWidth 32

/-- The offset a pop reads at (R224). -/
def State.popOffset (s : State) : Dword := if s.segs.ss.h.db then s.esp else (s.esp.extractLsb' 0 16).setWidth 32

/-- ESP after a push of `n` bytes (R223). -/
def State.pushedEsp (s : State) (n : Nat) : Dword :=
  if s.segs.ss.h.db then s.esp - BitVec.ofNat 32 n
  else s.esp.extractLsb' 16 16 ++ (s.esp.extractLsb' 0 16 - BitVec.ofNat 16 n)

/-- ESP after a pop of `n` bytes (R224). -/
def State.poppedEsp (s : State) (n : Nat) : Dword :=
  if s.segs.ss.h.db then s.esp + BitVec.ofNat 32 n
  else s.esp.extractLsb' 16 16 ++ (s.esp.extractLsb' 0 16 + BitVec.ofNat 16 n)

/-- The state after a push of bytes, with paging off. -/
def State.flatPushed (s : State) (bytes : List Byte) : State :=
  (s.flatMemStore .ss (s.pushOffset bytes.length) bytes).setEsp (s.pushedEsp bytes.length)

/-- The bytes a pop of `n` returns, with paging off. -/
def State.flatPopBytes (s : State) (n : Nat) : List Byte := s.flatMemBytes .ss s.popOffset n

/-- The state after a pop of `n` bytes. -/
def State.popped (s : State) (n : Nat) : State := s.setEsp (s.poppedEsp n)

/-- A pop of `n` bytes completes, with paging off. -/
abbrev State.flatPoppable (s : State) (n : Nat) : Prop := s.flatMemReadable .ss s.popOffset n

/-- A push of `n` bytes completes, with paging off. -/
abbrev State.flatPushable (s : State) (n : Nat) : Prop := s.flatMemWritable .ss (s.pushOffset n) n

/-- The segment register and offset of a memory operand, as one pair (30_encoding.md R159). -/
def State.operandAt (s : State) (m : MemArg) : SReg × Dword := (s.operandSeg (memUsesStackBase m), s.effectiveOffset m)

/-- With paging off, `n` bytes of a memory operand can be read. -/
abbrev State.flatOperandReadable (s : State) (m : MemArg) (n : Nat) : Prop :=
  s.flatMemReadable (s.operandAt m).1 (s.operandAt m).2 n

/-- The bytes of a memory operand. -/
def State.flatOperandBytes (s : State) (m : MemArg) (n : Nat) : List Byte :=
  s.flatMemBytes (s.operandAt m).1 (s.operandAt m).2 n

/-- With paging off, the 16-bit source r/m16 can be read. -/
abbrev State.flatSource16 (s : State) : RM → Prop
  | .reg _ => True
  | .mem m => s.flatOperandReadable m 2

/-- Its value. -/
def State.source16 (s : State) : RM → BitVec 16
  | .reg r => (s.reg r).setWidth 16
  | .mem m => leValue 16 (s.flatOperandBytes m 2)

/-- With paging off, the destination r/m16 can be written. -/
abbrev State.flatDest16 (s : State) : RM → Prop
  | .reg _ => True
  | .mem m => s.flatMemWritable (s.operandAt m).1 (s.operandAt m).2 2

/-- The state after it. -/
def State.stored16 (s : State) (dst : RM) (v : BitVec 16) : State :=
  match dst with
  | .reg r => s.setRegLow r s.operandBytes (v.setWidth 32)
  | .mem m => s.flatMemStore (s.operandAt m).1 (s.operandAt m).2 (leBytes 2 v)

/-- A physical address that is none of the `n` bytes from `la` on, with paging off. -/
abbrev outside (la : Linear) (n a : Nat) : Prop := ∀ i : Nat, i < n → a ≠ (flat (la + BitVec.ofNat 32 i)).toNat

/-- With paging off, LLDTR completes at level 0 (40_segment_register_ops.md R195): a null selector, or one that names a present
LDT descriptor of the GDT. -/
abbrev State.flatLdtOk (s : State) (sel : Selector) : Prop :=
  isNull sel = true ∨ (selTI sel = false ∧ s.flatFetchable sel ∧ (s.flatDescriptor sel).s = false ∧
    (s.flatDescriptor sel).typ = 2#4 ∧ (s.flatDescriptor sel).p = true)

/-- The state after it. -/
def State.afterLdt (s : State) (sel : Selector) : State :=
  if isNull sel then { s with ldtr := { sel := sel, h := { s.ldtr.h with valid := false } } }
  else { s with ldtr := { sel := sel, h := (s.flatDescriptor sel).cachedLdt } }

/-- The offset and the selector of a far pointer in memory (30_encoding.md R153 (b)). -/
def State.farOffset (s : State) (m : MemArg) : Dword := leValue 32 ((s.flatOperandBytes m 6).take 4)

/-- The selector of a far pointer in memory. -/
def State.farSelector (s : State) (m : MemArg) : Selector := leValue 16 ((s.flatOperandBytes m 6).drop 4)

/-- What a far call or return makes of the outcome of its CS load: the rest is refused with the state it leaves, and an exception or
a refusal stays (30_encoding.md R159). -/
def onlyCsLoad : Host.Outcome State Fault Refusal → Host.Outcome State Fault Refusal
  | .next t => .refused (.farTransfer t)
  | .fault f => .fault f
  | .refused r => .refused r

/-- The selector a far return finds on the stack, with paging off: above the first item (log 8). -/
def State.returnSelector (s : State) : Selector := leValue 16 ((s.popped s.operandBytes).flatPopBytes s.operandBytes)

/-- A page-directory or page-table entry as memory holds it (20_memory.md R76, R111). -/
def State.entryAt (s : State) (pa : PhysAddr) : Dword :=
  leValue 32 [s.byteAt pa, s.byteAt (pa + 1), s.byteAt (pa + 2), s.byteAt (pa + 3)]

/-- Its four bytes are memory. -/
abbrev State.entryBacked (s : State) (pa : PhysAddr) : Prop :=
  s.isMemory pa ∧ s.isMemory (pa + 1) ∧ s.isMemory (pa + 2) ∧ s.isMemory (pa + 3)

/-- The PDE of a linear address. -/
def State.pdeOf (s : State) (lin : Linear) : Dword := s.entryAt (s.pdeAddr lin)

/-- The PTE of a linear address, where its PDE points to a page table. -/
def State.pteOf (s : State) (lin : Linear) : Dword := s.entryAt (pteAddr (s.pdeOf lin) lin)

/-- Paging is on without PAE, and no TLB record stands in for a walk. -/
structure State.walks (s : State) : Prop where
  pagingOn : s.pg = true
  noPae : s.cr4.pae = false
  noRecords : s.tlb = []

/-- A walk reaches the PTE of `lin`: its PDE is present, points to a page table, and both are in memory (20_memory.md R126). -/
structure State.reachesPte (s : State) (lin : Linear) : Prop where
  walks : s.walks
  pdeBacked : s.entryBacked (s.pdeAddr lin)
  pdePresent : entryP (s.pdeOf lin) = true
  small : (s.cr4.pse && entryPS (s.pdeOf lin)) = false
  pdeReserved : entryD (s.pdeOf lin) = false
  pteBacked : s.entryBacked (pteAddr (s.pdeOf lin) lin)

/-- A 4-KByte page maps `lin`. -/
structure State.mapsSmall (s : State) (lin : Linear) : Prop where
  reaches : s.reachesPte lin
  ptePresent : entryP (s.pteOf lin) = true
  pteReserved : entryPS (s.pteOf lin) = false

/-- A 4-MByte page maps `lin` (20_memory.md R123). -/
structure State.mapsBig (s : State) (lin : Linear) : Prop where
  walks : s.walks
  pdeBacked : s.entryBacked (s.pdeAddr lin)
  pdePresent : entryP (s.pdeOf lin) = true
  big : s.cr4.pse = true ∧ entryPS (s.pdeOf lin) = true
  reserved : (s.pdeOf lin).extractLsb' 12 10 = 0#10

/-- A 4-KByte mapping permits an access at a level: the rights of both entries (20_memory.md R127 (a)). -/
def State.smallPermits (s : State) (lin : Linear) (lvl : Level) (kind : PageAccess) : Bool :=
  permitted s.platform.supervisorWP kind lvl (entryRW (s.pdeOf lin) && entryRW (s.pteOf lin))
    (entryUS (s.pdeOf lin) && entryUS (s.pteOf lin))

/-- A 4-MByte mapping permits an access at a level. -/
def State.bigPermits (s : State) (lin : Linear) (lvl : Level) (kind : PageAccess) : Bool :=
  permitted s.platform.supervisorWP kind lvl (entryRW (s.pdeOf lin)) (entryUS (s.pdeOf lin))

/-- R331 (f) `tlb_empty`, its first reading: the TLB holds no record. -/
abbrev tlbEmpty (s : State) : Prop := s.tlb = []

/-- A TLB record agrees with the tables in memory: they map each address of its page, with the record's frame, rights and flags
(R331 (f); 20_memory.md R129 (a)). -/
def State.recordAgrees (s : State) (r : TlbRecord) : Prop :=
  ∀ lin : Linear, r.covers lin = true → entryP (s.pdeOf lin) = true ∧
    match r.size with
    | .kb4 =>
      (s.cr4.pse && entryPS (s.pdeOf lin)) = false ∧ entryP (s.pteOf lin) = true ∧ r.physBase = smallFrame (s.pteOf lin) ∧
        r.rw = (entryRW (s.pdeOf lin) && entryRW (s.pteOf lin)) ∧ r.us = (entryUS (s.pdeOf lin) && entryUS (s.pteOf lin)) ∧
        r.global = entryG (s.pteOf lin) ∧ r.dirty = entryD (s.pteOf lin)
    | .mb4 =>
      (s.cr4.pse && entryPS (s.pdeOf lin)) = true ∧ r.physBase = bigFrame (s.pdeOf lin) ∧ r.rw = entryRW (s.pdeOf lin) ∧
        r.us = entryUS (s.pdeOf lin) ∧ r.global = entryG (s.pdeOf lin) ∧ r.dirty = entryD (s.pdeOf lin)

/-- R331 (f), its second reading: every record agrees with the tables in memory. -/
abbrev tlbAgrees (s : State) : Prop := ∀ r ∈ s.tlb, s.recordAgrees r

/-- R331 (h) for the operation that begins in `s`: the bytes its walks and descriptor fetches can reach are read-write memory. They
are the PDEs; the PTEs of present PDEs that point to a page table; and the bytes of the descriptors in the GDT and LDT, at the
addresses their translation can give whatever the free values drawn. -/
structure tablesBackedIn (s : State) : Prop where
  directory : s.pg = true → s.cr4.pae = false → ∀ (lin : Linear) (i : Nat), i < 4 →
    s.kindAt (s.pdeAddr lin + BitVec.ofNat 36 i) = .readWrite
  pageTables : s.pg = true → s.cr4.pae = false → ∀ (lin : Linear) (i : Nat), i < 4 → entryP (s.pdeOf lin) = true →
    (s.cr4.pse && entryPS (s.pdeOf lin)) = false → s.kindAt (pteAddr (s.pdeOf lin) lin + BitVec.ofNat 36 i) = .readWrite
  descriptors : ∀ sel : Selector, isNull sel = false → s.selectorInTable sel = true → ∀ i : Nat, i < 8 →
    ∀ (draws : Nat) (kind : PageAccess) (x : Xlat) (c : Ctx),
      translate (s.descAddr sel + BitVec.ofNat 32 i) kind .supervisor (Ctx.start { s with draws := draws }) = .ok (x, c) →
      s.kindAt x.pa = .readWrite

/-- The states a program comes to from `s`, the state with its schedule (log 1). -/
inductive Reaches (s : State) : State → Prop where
  | here : Reaches s s
  | next {t u : State} : Reaches s t → step t = .next u → Reaches s u

/-- R331 (h) `tables_backed`: in every operation of the program. -/
def tablesBacked (s : State) : Prop := ∀ t : State, Reaches s t → tablesBackedIn t

/-- All the premises of R331 about a launch state, (a) to (h). -/
structure LaunchPremises (s : State) : Prop where
  cpl_matches_cs : cplMatchesCs s
  cs_is_code : csIsCode s
  ss_is_stack : ssIsStack s
  valid_means_present : segmentsPresent s ∧ ldtrIsLdt s
  null_means_invalid : nullIsInvalid s
  tlb_empty : tlbEmpty s ∨ tlbAgrees s
  no_pae : noPae s
  tables_backed : tablesBacked s

/-- The bits an access sets in the entry that maps the page: A, and D on a write (20_memory.md R128). -/
def accessBits (kind : PageAccess) : Byte :=
  match kind with
  | .read => 0x20
  | .write => 0x60

/-- The first byte of an entry with bits set, where it lies in read-write memory; elsewhere as it was (R128, R227). -/
def State.marked (s : State) (pa : PhysAddr) (bits : Byte) : Byte :=
  if s.kindAt pa = .readWrite then s.byteAt pa ||| bits else s.byteAt pa

/-- What a walk through a 4-KByte page of `lin` leaves, and all it leaves: A in the PDE, A and on a write D in the PTE (one entry that
is both has both), and at most the one TLB record of R129 (a) (20_memory.md R126, R128). -/
structure State.SmallWalked (s t : State) (lin : Linear) (kind : PageAccess) : Prop where
  rest : t = { s with mem := t.mem, tlb := t.tlb, draws := t.draws }
  bytes : ∀ a : Nat, a ≠ (s.pdeAddr lin).toNat → a ≠ (pteAddr (s.pdeOf lin) lin).toNat → t.mem.read a = s.mem.read a
  pte : t.byteAt (pteAddr (s.pdeOf lin) lin) = s.marked (pteAddr (s.pdeOf lin) lin) (accessBits kind)
  pde : s.pdeAddr lin ≠ pteAddr (s.pdeOf lin) lin → t.byteAt (s.pdeAddr lin) = s.marked (s.pdeAddr lin) (accessBits .read)
  record : t.tlb = [] ∨ t.tlb =
    [{ linPage := lin.extractLsb' 12 20, size := .kb4, physBase := s.pteOf lin &&& 0xFFFFF000
       rw := entryRW (s.pdeOf lin) && entryRW (s.pteOf lin), us := entryUS (s.pdeOf lin) && entryUS (s.pteOf lin)
       global := entryG (s.pteOf lin), dirty := (t.byteAt (pteAddr (s.pdeOf lin) lin)).getLsbD 6 }]

/-- The same for a 4-MByte page, whose one entry is the PDE (R123, R126, R128, R129 (a)). -/
structure State.BigWalked (s t : State) (lin : Linear) (kind : PageAccess) : Prop where
  rest : t = { s with mem := t.mem, tlb := t.tlb, draws := t.draws }
  bytes : ∀ a : Nat, a ≠ (s.pdeAddr lin).toNat → t.mem.read a = s.mem.read a
  pde : t.byteAt (s.pdeAddr lin) = s.marked (s.pdeAddr lin) (accessBits kind)
  record : t.tlb = [] ∨ t.tlb =
    [{ linPage := (lin.extractLsb' 22 10).setWidth 20, size := .mb4, physBase := s.pdeOf lin &&& 0xFFC00000
       rw := entryRW (s.pdeOf lin), us := entryUS (s.pdeOf lin), global := entryG (s.pdeOf lin)
       dirty := (t.byteAt (s.pdeAddr lin)).getLsbD 6 }]

/-- With paging on, the first byte of a PDE or PTE of some linear address: the only bytes whose A and D bits a translation sets
(20_memory.md R76, R126, R128). -/
def State.entryByte (s : State) (a : Nat) : Prop :=
  s.pg = true ∧ ∃ lin : Linear, a = (s.pdeAddr lin).toNat ∨ a = (pteAddr (s.pdeOf lin) lin).toNat

/-- The bytes at `n` physical addresses from `pa` on. -/
def State.physBytes (s : State) (pa : PhysAddr) : Nat → List Byte
  | 0 => []
  | n + 1 => s.byteAt pa :: s.physBytes (pa + 1) n

/-- The segment register an instruction loads, of one that loads one (10_state.md R24). -/
def loadsSeg : Instr → Option SReg
  | .ldseg r _ | .movSregRm16 r _ => some r
  | .ldss _ | .popSs | .lss _ _ => some .ss
  | .ldcs _ | .jmpPtr _ _ | .callPtr _ _ | .jmpMem _ | .callMem _ | .retf | .retfImm _ | .iret => some .cs
  | .popEs | .les _ _ => some .es
  | .popDs | .lds _ _ => some .ds
  | .popFs | .lfs _ _ => some .fs
  | .popGs | .lgs _ _ => some .gs
  | .rdsel _ | .lgdtr _ _ | .lldtr _ | .mread _ _ _ | .mwrite _ _ _ _ | .mfetch _ _ | .spush _ _ | .spop _ | .pfx66 | .pfx67
  | .wrcr0 _ | .wrcr3 _ | .wrcr4 _ | .rdcr _ | .tasksw | .maccess64 _ _ | .movRm16Sreg _ _ | .lgdt _ | .sgdt _ | .lldt _
  | .sldt _ | .movCrR32 _ _ | .movR32Cr _ _ | .movEaxMoffs _ _ | .movAlMoffs _ _ | .movMoffsEax _ _ | .movMoffsAl _ _
  | .pushR32 _ | .popR32 _ | .segEs | .segCs | .segSs | .segDs | .segFs | .segGs => none

/-- The instructions that only level 0 may execute (60_exceptions.md R304; 30_encoding.md R159). -/
def onlyLevel0 : Instr → Bool
  | .lgdtr _ _ | .lldtr _ | .wrcr0 _ | .wrcr3 _ | .wrcr4 _ | .rdcr _ | .lgdt _ | .lldt _ | .movCrR32 _ _ | .movR32Cr _ _ => true
  | .ldseg _ _ | .ldss _ | .ldcs _ | .rdsel _ | .mread _ _ _ | .mwrite _ _ _ _ | .mfetch _ _ | .spush _ _ | .spop _ | .pfx66
  | .pfx67 | .tasksw | .maccess64 _ _ | .movSregRm16 _ _ | .movRm16Sreg _ _ | .popEs | .popSs | .popDs | .popFs | .popGs
  | .les _ _ | .lds _ _ | .lss _ _ | .lfs _ _ | .lgs _ _ | .jmpPtr _ _ | .callPtr _ _ | .jmpMem _ | .callMem _ | .retf
  | .retfImm _ | .iret | .sgdt _ | .sldt _ | .movEaxMoffs _ _ | .movAlMoffs _ _ | .movMoffsEax _ _ | .movMoffsAl _ _
  | .pushR32 _ | .popR32 _ | .segEs | .segCs | .segSs | .segDs | .segFs | .segGs => false

/-- The instructions that store nothing to memory but A and D flags of page entries. -/
def storesNothing : Instr → Bool
  | .rdsel _ | .lgdtr _ _ | .lldtr _ | .mread _ _ _ | .mfetch _ _ | .spop _ | .pfx66 | .pfx67 | .wrcr0 _ | .wrcr3 _ | .wrcr4 _
  | .rdcr _ | .tasksw | .maccess64 _ _ | .lgdt _ | .lldt _ | .movCrR32 _ _ | .movR32Cr _ _ | .movEaxMoffs _ _
  | .movAlMoffs _ _ | .popR32 _ | .segEs | .segCs | .segSs | .segDs | .segFs | .segGs => true
  | .ldseg _ _ | .ldss _ | .ldcs _ | .mwrite _ _ _ _ | .spush _ _ | .movSregRm16 _ _ | .movRm16Sreg _ _ | .popEs | .popSs
  | .popDs | .popFs | .popGs | .les _ _ | .lds _ _ | .lss _ _ | .lfs _ _ | .lgs _ _ | .jmpPtr _ _ | .callPtr _ _ | .jmpMem _
  | .callMem _ | .retf | .retfImm _ | .iret | .sgdt _ | .sldt _ | .movMoffsEax _ _ | .movMoffsAl _ _ | .pushR32 _ => false

/-- The state only level 0 may change: descriptor-table registers and control registers (60_exceptions.md R304). -/
abbrev sameSystem (s t : State) : Prop :=
  t.gdtr = s.gdtr ∧ t.ldtr = s.ldtr ∧ t.pg = s.pg ∧ t.cr3 = s.cr3 ∧ t.cr4 = s.cr4

end Sys2Proof.Machine
end

