-- ==== Sys2Proof/Certificates/Slice0/Obligations.lean ====
section
/-! DEFINITION. The statements for the provers. "Paging off" statements use the vocabulary of Sys2Proof/Safety.lean: the bytes a
`flat…` operation reads or stores are those at the linear address segment base plus offset. -/

open Sys2Proof Sys2Proof.Machine

/-! Encoding. -/

/-- Decoding an encoded well-formed instruction gives it back, with every operand at every value, and in a longer stream of
bytes takes exactly its own (R152, R155, R159; lengths PRESUMED, log 10). -/
def Obligations.DecodeEncodeAgree : Prop :=
  ∀ (i : Instr) (a32 : Bool), i.wf = true → i.readsUnder a32 = true →
    decodeItem a32 (encode i) = .ok (i, []) ∧
    ∀ bytes rest : List Byte, encode i = .code bytes → decodeCode a32 (bytes ++ rest) = .ok (i, rest)

/-- What the decoder accepts lies in the operand ranges of R152 and, for the annex, of R159 (the lengths of SIB, displacement and moffs
bytes are the model's, PRESUMED, log 10), and under the address size in force. -/
def Obligations.DecodedIsWellFormed : Prop :=
  ∀ (a32 : Bool) (item : Item) (i : Instr) (rest : List Item), decodeItem a32 item = .ok (i, rest) →
    i.wf = true ∧ i.readsUnder a32 = true

/-- Every encoding matches the `match` and `mask` of its row of spec/opcode_table.json (R159). -/
def Obligations.EncodingsMatchTheTable : Prop := ∀ i : Instr, Sys2Proof.Laws.EncodeMatchesTable.Statement i

/-- A few words and operations written from R152, R155 and R159 decode to what they stand for, and two reserved ones are refused. That A1
takes 2 offset bytes under 16-bit address size is the model's (PRESUMED, log 10). -/
def Obligations.WordsDecode : Prop :=
  decodeCode true [0x8E, 0xD8] = .ok (.movSregRm16 .ds (.reg 0), []) ∧
  decodeCode true [0x66] = .ok (.pfx66, []) ∧
  decodeCode true [0x67] = .ok (.pfx67, []) ∧
  decodeCode true [0xEA, 0x78, 0x56, 0x34, 0x12, 0x08, 0x00] = .ok (.jmpPtr 0x12345678 0x0008, []) ∧
  decodeCode true [0x0F, 0x22, 0xD8] = .ok (.movCrR32 3 0, []) ∧
  decodeCode false [0xA1, 0x34, 0x12] = .ok (.movEaxMoffs false 0x1234, []) ∧
  decodeOp .LDSEG [.sreg .ds, .num 0x0010] = .ok (.ldseg .ds 0x0010) ∧
  decodeCode true [0x8E, 0xC8] = .error (.invalidForm 0x8E) ∧
  decodeOp .LDSEG [.sreg .cs, .num 0x0010] = .error (.operandRange .LDSEG)

/-- `DecodeDescriptor` of `MakeDescriptor` gives the fields back, and bit 21 is 0 (R85, R158). -/
def Obligations.DescriptorRoundTrip : Prop :=
  ∀ d : Descriptor, decodeDescriptor d.lo d.hi = d ∧ reservedBitSet d.hi = false

/-- The null selectors are 0, 1, 2, 3 (R81). -/
def Obligations.NullSelectors : Prop := ∀ sel : Selector, isNull sel = true ↔ sel.toNat < 4

/-- The size in bytes that a limit field and the G flag give (R86). -/
def Obligations.EffectiveLimitSizes : Prop :=
  ∀ limit : BitVec 20, (effLimit limit false).toNat + 1 = limit.toNat + 1 ∧
    (effLimit limit true).toNat + 1 = (limit.toNat + 1) * 4096

/-- Canonical addresses with 48 implemented bits: the two ranges, and bits 63:48 copies of bit 47 (R271). -/
def Obligations.CanonicalRanges : Prop :=
  ∀ va : BitVec 64,
    (isCanonical 48 va = true ↔ va.toNat ≤ 0x00007FFFFFFFFFFF ∨ 0xFFFF800000000000 ≤ va.toNat) ∧
    (isCanonical 48 va = true ↔ va.extractLsb' 48 16 = if va.getLsbD 47 then 0xFFFF else 0x0000)

/-! One step. -/

/-- When the next item of the schedule decodes to `i`, a step is exec of `i`, and the rest of the item and of the schedule comes
next; the items that come before the processor's are the other agents' (R131, R151; log 1). -/
def Obligations.StepRunsTheDecoded : Prop :=
  ∀ (s : State) (item : Item) (q : List Event) (i : Instr) (rest : List Item),
    s.queue = .processor item :: q → decodeItem s.address32 item = .ok (i, rest) →
    step s = match exec i s with
      | .next t => .next (t.setQueue (rest.map Event.processor ++ q))
      | .fault f => .fault f
      | .refused r => .refused r

/-- Between steps the environment may write a byte of read-write memory and nothing else, and a TLB record may vanish; neither
touches another part of the state (R129 (c), (f), R131). -/
def Obligations.OtherAgentsMove : Prop :=
  ∀ (s : State) (q : List Event),
    (∀ (pa : PhysAddr) (b : Byte), s.queue = .environment pa b :: q →
      (s.kindAt pa = .readWrite → step s = .next { s with mem := s.mem.write pa.toNat b, queue := q }) ∧
      (s.kindAt pa ≠ .readWrite → step s = .next { s with queue := q })) ∧
    (∀ k : Nat, s.queue = .tlbDrop k :: q → step s = .next { s with tlb := s.tlb.eraseIdx k, queue := q })

/-- An exception leaves its instruction to be restarted: the state it leaves reads the same instruction next (R299, R300). -/
def Obligations.FaultRestarts : Prop :=
  ∀ (s : State) (f : Fault), step s = .fault f →
    ∃ (i : Instr) (rest : List Event), nextOf s = .run i rest ∧ nextOf f.left = .run i rest

/-! Loads of segment registers (paging off where a descriptor is read). -/

/-- LDSEG, LDSS and LDCS complete with the register loaded, CS with CPL in bits 1:0 of its selector (R190, R191, R192). -/
def Obligations.LoadsComplete : Prop :=
  ∀ (sel : Selector) (s : State),
    (∀ r : SReg, r.isData = true → s.flatLoadOk r sel → exec (.ldseg r sel) s = .next ((s.afterLoad r sel).finish .none)) ∧
    (s.flatLoadable .ss sel → exec (.ldss sel) s = .next ((s.flatLoaded .ss sel).finish .none)) ∧
    (s.flatLoadable .cs sel → exec (.ldcs sel) s = .next ((s.flatLoaded .cs sel).finish .none))

/-- A load that completes with paging off leaves every byte of memory as it was but the one that holds the accessed bit, and sets
that bit (R197). -/
def Obligations.LoadMarksAccessed : Prop :=
  ∀ (s : State) (r : SReg) (sel : Selector), s.flatLoadable r sel → s.mem.wf = true →
    ∃ t : State, exec (loadOf r sel) s = .next t ∧
      (∀ a : Nat, outside (s.descAddr sel + 5) 1 a → t.mem.read a = s.mem.read a) ∧
      t.mem.read (flat (s.descAddr sel + 5)).toNat = s.mem.read (flat (s.descAddr sel + 5)).toNat ||| 1

/-- The checks of LDSEG, by the type's number in R94's table: `DataPrivOK` (R196: a conforming code segment, or RPL and CPL at most
DPL), and a data or readable code descriptor that meets it (R190). -/
def Obligations.DataLoadChecks : Prop :=
  ∀ (cpl : BitVec 2) (sel : Selector) (d : Descriptor),
    (dataPrivOk cpl sel d = true ↔
      d.typ.toNat ∈ [12, 13, 14, 15] ∨ (sel.toNat % 4 ≤ d.dpl.toNat ∧ cpl.toNat ≤ d.dpl.toNat)) ∧
    (dataLoadOk cpl sel d = true ↔
      d.s = true ∧ d.typ.toNat ∈ [0, 1, 2, 3, 4, 5, 6, 7, 10, 11, 14, 15] ∧
        (d.typ.toNat ∈ [14, 15] ∨ (sel.toNat % 4 ≤ d.dpl.toNat ∧ cpl.toNat ≤ d.dpl.toNat)))

/-- The checks of LDSS: RPL and DPL equal to CPL, and a writable data segment, by its number in R94's table (R191). -/
def Obligations.StackLoadChecks : Prop :=
  ∀ (cpl : BitVec 2) (sel : Selector) (d : Descriptor),
    stackLoadOk cpl sel d = true ↔
      sel.toNat % 4 = cpl.toNat ∧ d.s = true ∧ d.typ.toNat ∈ [2, 3, 6, 7] ∧ d.dpl.toNat = cpl.toNat

/-- The checks of LDCS after S: a non-conforming code segment with RPL at most CPL and DPL equal to CPL, or a conforming one with DPL
at most CPL, by its number in R94's table (R192). -/
def Obligations.CodeLoadChecks : Prop :=
  ∀ (cpl : BitVec 2) (sel : Selector) (d : Descriptor),
    codeLoadOk cpl sel d = true ↔
      (d.typ.toNat ∈ [8, 9, 10, 11] ∧ sel.toNat % 4 ≤ cpl.toNat ∧ d.dpl.toNat = cpl.toNat) ∨
        (d.typ.toNat ∈ [12, 13, 14, 15] ∧ d.dpl.toNat ≤ cpl.toNat)

/-- A null selector: no exception for DS, ES, FS, GS, and no memory read; `#GP(0)` for SS and CS (R190, R191, R192). -/
def Obligations.NullLoads : Prop :=
  ∀ (sel : Selector) (s : State), isNull sel = true →
    (∀ r : SReg, r.isData = true → exec (.ldseg r sel) s =
      .next ((s.setSeg r { sel := sel, h := { (s.seg r).h with valid := false } }).finish .none)) ∧
    exec (.ldss sel) s = .fault (.generalProtection 0 s) ∧
    exec (.ldcs sel) s = .fault (.generalProtection 0 s)

/-- With the descriptor fetched, the checks of a load in their order: type and privilege, then P; a system descriptor in CS is
refused (R190, R191, R192, R195, R298 (a)). -/
def Obligations.LoadFaultOrder : Prop :=
  ∀ (sel : Selector) (s : State), isNull sel = false → s.flatFetchable sel →
    (∀ r : SReg, r.isData = true →
      (dataLoadOk s.cpl sel (s.flatDescriptor sel) = false →
        exec (.ldseg r sel) s = .fault (.generalProtection (sel &&& 0xFFFC) s)) ∧
      (dataLoadOk s.cpl sel (s.flatDescriptor sel) = true → (s.flatDescriptor sel).p = false →
        exec (.ldseg r sel) s = .fault (.segmentNotPresent (sel &&& 0xFFFC) s))) ∧
    (stackLoadOk s.cpl sel (s.flatDescriptor sel) = false →
      exec (.ldss sel) s = .fault (.generalProtection (sel &&& 0xFFFC) s)) ∧
    (stackLoadOk s.cpl sel (s.flatDescriptor sel) = true → (s.flatDescriptor sel).p = false →
      exec (.ldss sel) s = match s.platform.ssNotPresent with
        | .np => .fault (.segmentNotPresent (sel &&& 0xFFFC) s)
        | .ss => .fault (.stackFault (sel &&& 0xFFFC) s)) ∧
    ((s.flatDescriptor sel).s = false → exec (.ldcs sel) s = .refused .gateOrTss) ∧
    ((s.flatDescriptor sel).s = true → codeLoadOk s.cpl sel (s.flatDescriptor sel) = false →
      exec (.ldcs sel) s = .fault (.generalProtection (sel &&& 0xFFFC) s)) ∧
    ((s.flatDescriptor sel).s = true → codeLoadOk s.cpl sel (s.flatDescriptor sel) = true → (s.flatDescriptor sel).p = false →
      exec (.ldcs sel) s = .fault (.segmentNotPresent (sel &&& 0xFFFC) s)) ∧
    (s.cpl = 0#2 → selTI sel = false → ((s.flatDescriptor sel).s = true ∨ (s.flatDescriptor sel).typ ≠ 2#4) →
      exec (.lldtr sel) s = .fault (.generalProtection (sel &&& 0xFFFC) s)) ∧
    (s.cpl = 0#2 → selTI sel = false → (s.flatDescriptor sel).s = false → (s.flatDescriptor sel).typ = 2#4 →
      (s.flatDescriptor sel).p = false → exec (.lldtr sel) s = .fault (.segmentNotPresent (sel &&& 0xFFFC) s))

/-- Descriptor fetches that fail (R93, R97): a selector beyond its table's limit, or in an LDT that is not loaded, raises `#GP`
with the selector; with paging off, a descriptor whose reserved bit 21 is set is refused. -/
def Obligations.FetchFailures : Prop :=
  ∀ (sel : Selector) (s : State), isNull sel = false →
    (s.selectorInTable sel = false →
      (∀ r : SReg, r.isData = true → exec (.ldseg r sel) s = .fault (.generalProtection (sel &&& 0xFFFC) s)) ∧
      exec (.ldss sel) s = .fault (.generalProtection (sel &&& 0xFFFC) s) ∧
      exec (.ldcs sel) s = .fault (.generalProtection (sel &&& 0xFFFC) s) ∧
      (s.cpl = 0#2 → exec (.lldtr sel) s = .fault (.generalProtection (sel &&& 0xFFFC) s))) ∧
    (s.pg = false → s.selectorInTable sel = true → s.flatReadable (s.descAddr sel) 4 → s.flatReadable (s.descAddr sel + 4) 4 →
      reservedBitSet (leValue 32 (s.flatBytes (s.descAddr sel + 4) 4)) = true →
      (∀ r : SReg, r.isData = true → exec (.ldseg r sel) s = .refused .reservedBit) ∧
      exec (.ldss sel) s = .refused .reservedBit ∧ exec (.ldcs sel) s = .refused .reservedBit ∧
      (s.cpl = 0#2 → selTI sel = false → exec (.lldtr sel) s = .refused .reservedBit))

/-- Paging on or off, a loaded register holds the selector and the descriptor that was fetched for it, checked and present
(R22, R190, R191, R192). -/
def Obligations.LoadedFromItsDescriptor : Prop :=
  ∀ (sel : Selector) (s t : State), isNull sel = false →
    (∀ r : SReg, r.isData = true → exec (.ldseg r sel) s = .next t →
      ∃ (d : Descriptor) (c : Ctx), fetchDescriptor sel (Ctx.start s) = .ok (d, c) ∧ dataLoadOk s.cpl sel d = true ∧
        d.p = true ∧ t.seg r = { sel := sel, h := d.loaded }) ∧
    (exec (.ldss sel) s = .next t →
      ∃ (d : Descriptor) (c : Ctx), fetchDescriptor sel (Ctx.start s) = .ok (d, c) ∧ stackLoadOk s.cpl sel d = true ∧
        d.p = true ∧ t.segs.ss = { sel := sel, h := d.loaded }) ∧
    (exec (.ldcs sel) s = .next t →
      ∃ (d : Descriptor) (c : Ctx), fetchDescriptor sel (Ctx.start s) = .ok (d, c) ∧ d.s = true ∧
        codeLoadOk s.cpl sel d = true ∧ d.p = true ∧
        t.segs.cs = { sel := (sel &&& 0xFFFC) ||| s.cpl.setWidth 16, h := d.loaded })

/-- RDSEL returns the visible part and changes nothing else (R193). -/
def Obligations.RdselReads : Prop :=
  ∀ (r : SReg) (s : State), exec (.rdsel r) s = .next (s.finish (.value 2 ((s.seg r).sel.setWidth 32)))

/-- LGDTR at level 0 loads base and limit and checks nothing else (R194); LLDTR at level 0, paging off, loads LDTR or makes it not
valid, and a selector into the LDT raises `#GP` (R195). Above level 0 LGDTR raises `#GP(0)`. -/
def Obligations.TableRegisterLoads : Prop :=
  (∀ (base : Linear) (limit : BitVec 16) (s : State),
    (s.cpl ≠ 0#2 → exec (.lgdtr base limit) s = .fault (.generalProtection 0 s)) ∧
    (s.cpl = 0#2 → exec (.lgdtr base limit) s = .next ({ s with gdtr := { base := base, limit := limit } }.finish .none))) ∧
  ∀ (sel : Selector) (s : State), s.cpl = 0#2 →
    (s.flatLdtOk sel → exec (.lldtr sel) s = .next ((s.afterLdt sel).finish .none)) ∧
    (isNull sel = false → selTI sel = true → exec (.lldtr sel) s = .fault (.generalProtection (sel &&& 0xFFFC) s))

/-! Memory accesses. -/

/-- The limit check admits an access when every one of its bytes lies within the segment: offsets do not wrap (R98 to R100). -/
def Obligations.SegmentLimits : Prop :=
  ∀ (r : SReg) (h : Hidden) (off : Dword) (n : Nat) (kind : SegAccess), 0 < n →
    (segCheck r h off n kind = true ↔
      rightsOk r h kind = true ∧
        if isExpandDown h.typ = true then
          (effLimit h.limit h.g).toNat < off.toNat ∧
            ∀ i : Nat, i < n → off.toNat + i ≤ if h.db = true then 0xFFFFFFFF else 0xFFFF
        else ∀ i : Nat, i < n → off.toNat + i ≤ (effLimit h.limit h.g).toNat)

/-- The access rights of a segment register, by the type's number in R94's table: valid; a write needs a writable data segment, a
read any data segment or readable code, a fetch CS with a code segment (R98). -/
def Obligations.AccessRights : Prop :=
  ∀ (r : SReg) (h : Hidden),
    (rightsOk r h .write = true ↔ h.valid = true ∧ h.typ.toNat ∈ [2, 3, 6, 7]) ∧
    (rightsOk r h .read = true ↔ h.valid = true ∧ h.typ.toNat ∈ [0, 1, 2, 3, 4, 5, 6, 7, 10, 11, 14, 15]) ∧
    (rightsOk r h .exec = true ↔ h.valid = true ∧ r = .cs ∧ 8 ≤ h.typ.toNat)

/-- An access that fails the segment checks raises `#SS(0)` through SS and `#GP(0)` through any other register, and changes
nothing (R98, R295). -/
def Obligations.AccessViolationFaults : Prop :=
  ∀ (r : SReg) (off : Dword) (n : Nat) (v : Dword) (s : State),
    (segCheck r (s.seg r).h off n .read = false →
      exec (.mread r off n) s = .fault (if r = .ss then .stackFault 0 s else .generalProtection 0 s)) ∧
    (segCheck r (s.seg r).h off n .write = false →
      exec (.mwrite r off n v) s = .fault (if r = .ss then .stackFault 0 s else .generalProtection 0 s)) ∧
    (segCheck .cs s.segs.cs.h off n .exec = false → exec (.mfetch off n) s = .fault (.generalProtection 0 s))

/-- MREAD and MFETCH, paging off: the bytes at base plus offset, as a little-endian value and in address order; nothing changes
(R76, R101, R220, R222). -/
def Obligations.ReadsComplete : Prop :=
  ∀ (off : Dword) (n : Nat) (s : State),
    (∀ r : SReg, s.flatMemReadable r off n →
      exec (.mread r off n) s = .next (s.finish (.value n (leValue 32 (s.flatMemBytes r off n))))) ∧
    (s.pg = false → segCheck .cs s.segs.cs.h off n .exec = true → s.flatReadable (s.segs.cs.h.base + off) n →
      exec (.mfetch off n) s = .next (s.finish (.bytes (s.flatBytes (s.segs.cs.h.base + off) n))))

/-- MWRITE, paging off: the value's bytes at base plus offset, little-endian, and no other byte of memory (R221, R101, R76). -/
def Obligations.MwriteCompletes : Prop :=
  ∀ (r : SReg) (off : Dword) (n : Nat) (v : Dword) (s : State), s.flatMemWritable r off n →
    ∃ t : State, exec (.mwrite r off n v) s = .next t ∧ t = (s.flatMemStore r off (leBytes n v)).finish .none ∧
      t = { s with mem := t.mem, result := .none, pfx := Pending.none } ∧
      ∀ a : Nat, outside ((s.seg r).h.base + off) n a → t.mem.read a = s.mem.read a

/-- SPUSH and SPOP, paging off: the bytes below and at the stack pointer that the B flag of SS selects (R223, R224). -/
def Obligations.StackCompletes : Prop :=
  ∀ (n : Nat) (s : State),
    (s.flatPushable n → ∀ v : Dword, ∃ t : State, exec (.spush n v) s = .next t ∧
      t = (s.flatPushed (leBytes n v)).finish .none ∧
      t = { s with mem := t.mem, esp := s.pushedEsp n, result := .none, pfx := Pending.none } ∧
      ∀ a : Nat, outside (s.segs.ss.h.base + s.pushOffset n) n a → t.mem.read a = s.mem.read a) ∧
    (s.flatPoppable n → exec (.spop n) s = .next ((s.popped n).finish (.value n (leValue 32 (s.flatPopBytes n)))))

/-- Paging on or off, a read returns the bytes at the physical addresses its translation gives, each as it stands after the translations
up to its own, and is refused at the first byte where nothing is, whatever the bytes after it translate to (R126, R220, R227). A write
stores at the addresses its translation gives, byte `i` of the value at address `i` where no two are the same, and nowhere else
(R126, R130, R221). The translation changes memory, the TLB and the count of draws alone, so neither moves a register. -/
def Obligations.AccessFollowsTranslation : Prop :=
  ∀ (r : SReg) (off : Dword) (n : Nat) (v : Dword) (s : State) (pas : List PhysAddr) (c : Ctx),
    (segCheck r (s.seg r).h off n .read = true →
      translateBytes .read s.level n ((s.seg r).h.base + off) none (Ctx.start s) = .ok (pas, c) →
      (∀ pa ∈ pas, s.isMemory pa) →
      c.cur = { s with mem := c.cur.mem, tlb := c.cur.tlb, draws := c.cur.draws } ∧
      ∃ bs : List Byte, exec (.mread r off n) s = .next (c.cur.finish (.value n (leValue 32 bs))) ∧ bs.length = n ∧
        ∀ i : Nat, i < n → ∃ (ps : List PhysAddr) (d : Ctx) (pa : PhysAddr),
          translateBytes .read s.level (i + 1) ((s.seg r).h.base + off) none (Ctx.start s) = .ok (ps, d) ∧
          pas[i]? = some pa ∧ bs[i]? = some (d.cur.byteAt pa)) ∧
    (segCheck r (s.seg r).h off n .read = true →
      ∀ (i : Nat) (pa : PhysAddr), i < n →
        translateBytes .read s.level (i + 1) ((s.seg r).h.base + off) none (Ctx.start s) = .ok (pas ++ [pa], c) →
        (∀ p ∈ pas, s.isMemory p) → s.kindAt pa = .nothing → exec (.mread r off n) s = .refused (.unbacked pa)) ∧
    (segCheck r (s.seg r).h off n .write = true →
      translateBytes .write s.level n ((s.seg r).h.base + off) none (Ctx.start s) = .ok (pas, c) →
      (∀ pa ∈ pas, c.cur.kindAt pa = .readWrite) →
      c.cur = { s with mem := c.cur.mem, tlb := c.cur.tlb, draws := c.cur.draws } ∧
      ∃ t : State, exec (.mwrite r off n v) s = .next t ∧
        t = { c.cur with mem := t.mem, result := .none, pfx := Pending.none } ∧
        (∀ a : Nat, (∀ pa ∈ pas, a ≠ pa.toNat) → t.mem.read a = c.cur.mem.read a) ∧
        (s.mem.wf = true → pas.Nodup → ∀ (i : Nat) (pa : PhysAddr), pas[i]? = some pa →
          (leBytes n v)[i]? = some (t.byteAt pa)))

/-- Reading `m` bytes where `n` were written, `m` at most `n`, returns the low `8m` bits of the value (R76), paging off. -/
def Obligations.ReadAfterWrite : Prop :=
  ∀ (r : SReg) (off : Dword) (n m : Nat) (v : Dword) (s t : State), s.mem.wf = true → n ≤ 4 → 0 < m → m ≤ n →
    s.flatMemWritable r off n → exec (.mwrite r off n v) s = .next t →
    exec (.mread r off m) t = .next (t.finish (.value m (BitVec.ofNat 32 (v.toNat % 2 ^ (8 * m)))))

/-- A pop after a push returns the value pushed and the stack pointer as it was, for both sizes of the stack pointer, where the
pop's own segment check passes (R223, R224), paging off. -/
def Obligations.PopAfterPush : Prop :=
  ∀ (n : Nat) (v : Dword) (s t : State), s.mem.wf = true → (n = 2 ∨ n = 4) → valueFits n v = true → s.flatPushable n →
    exec (.spush n v) s = .next t →
    exec (.spop n) t = .next ({ t with esp := s.esp }.finish (.value n v))

/-- A byte written to read-only memory changes nothing, one written to memory-mapped I/O goes to the environment, one written
where nothing is, is refused; reads likewise, and I/O reads some byte (R227), paging off. -/
def Obligations.PhysicalKinds : Prop :=
  ∀ (r : SReg) (off : Dword) (v : Dword) (s : State), s.pg = false →
    (segCheck r (s.seg r).h off 1 .write = true →
      (s.kindAt (flat ((s.seg r).h.base + off)) = .readOnly → exec (.mwrite r off 1 v) s = .next (s.finish .none)) ∧
      (s.kindAt (flat ((s.seg r).h.base + off)) = .io →
        exec (.mwrite r off 1 v) s =
          .next ({ s with ioOut := s.ioOut ++ [((flat ((s.seg r).h.base + off)).toNat, v.setWidth 8)] }.finish .none)) ∧
      (s.kindAt (flat ((s.seg r).h.base + off)) = .nothing →
        exec (.mwrite r off 1 v) s = .refused (.unbacked (flat ((s.seg r).h.base + off))))) ∧
    (segCheck r (s.seg r).h off 1 .read = true →
      (s.kindAt (flat ((s.seg r).h.base + off)) = .io →
        ∃ b : Byte, exec (.mread r off 1) s = .next ({ s with draws := s.draws + 1 }.finish (.value 1 (b.setWidth 32)))) ∧
      (s.kindAt (flat ((s.seg r).h.base + off)) = .nothing →
        exec (.mread r off 1) s = .refused (.unbacked (flat ((s.seg r).h.base + off)))))

/-- The size prefixes complete, and reverse the size the D flag of CS gives; under 16-bit addressing an operand's offset lies below 2^16
(R225, R226). That a prefix is a step of its own which leaves a pending mark, and that the same prefix twice counts once, are the
model's (DESIGN CHOICE and PRESUMED, log 11). -/
def Obligations.SizePrefixes : Prop :=
  ∀ s : State,
    exec .pfx66 s = .next { s with pfx := { s.pfx with op66 := true }, result := .none } ∧
    exec .pfx67 s = .next { s with pfx := { s.pfx with addr67 := true }, result := .none } ∧
    s.operandSize = (if xor s.segs.cs.h.db s.pfx.op66 = true then 32 else 16) ∧
    s.operandBytes = s.operandSize / 8 ∧
    s.addressSize = (if xor s.segs.cs.h.db s.pfx.addr67 = true then 32 else 16) ∧
    ∀ m : MemArg, m.a32 = false → (s.effectiveOffset m).toNat < 2 ^ 16

/-- Each segment-override prefix completes, and selects the segment register of the memory operand it precedes; without one
it is SS where the address uses EBP or ESP, else DS (R159; log 10, log 11). -/
def Obligations.OverridePrefixes : Prop :=
  ∀ s : State,
    (∀ p ∈ [(Instr.segEs, SReg.es), (.segCs, .cs), (.segSs, .ss), (.segDs, .ds), (.segFs, .fs), (.segGs, .gs)],
      ∃ t : State, exec p.1 s = .next t ∧ t = { s with pfx := { s.pfx with seg := some p.2 }, result := .none } ∧
        ∀ stack : Bool, t.operandSeg stack = p.2) ∧
    (s.pfx.seg = none → s.operandSeg true = .ss ∧ s.operandSeg false = .ds)

/-! Paging. -/

/-- The walk of a 4-KByte page and of a 4-MByte page, at either level: it returns frame and offset, and leaves A set in the entries it
used, D on a write in the one that maps the page, at most the record of R129 (a) in the TLB, and nothing else changed but the
count of draws (R123, R126, R128, R129 (a)). -/
def Obligations.PageWalks : Prop :=
  ∀ (lin : Linear) (kind : PageAccess) (lvl : Level) (s : State),
    (s.mapsSmall lin → s.smallPermits lin lvl kind = true →
      ∃ (x : Xlat) (c : Ctx), Machine.translate lin kind lvl (Ctx.start s) = .ok (x, c) ∧
        x.pa.toNat = (s.pteOf lin).toNat / 4096 * 4096 + lin.toNat % 4096 ∧ s.SmallWalked c.cur lin kind) ∧
    (s.mapsBig lin → s.bigPermits lin lvl kind = true →
      ∃ (x : Xlat) (c : Ctx), Machine.translate lin kind lvl (Ctx.start s) = .ok (x, c) ∧
        x.pa.toNat = (s.pdeOf lin).toNat / 2 ^ 22 * 2 ^ 22 + lin.toNat % 2 ^ 22 ∧ s.BigWalked c.cur lin kind)

/-- `Permitted` (R127 (c)): a user needs U/S for a read and R/W besides for a write; a supervisor may read any page, and write a
read-only one unless `SUPERVISOR_WP`. -/
def Obligations.PagePermissions : Prop :=
  ∀ wp rw us : Bool,
    permitted wp .read .supervisor rw us = true ∧
    (permitted wp .write .supervisor rw us = true ↔ rw = true ∨ wp = false) ∧
    (permitted wp .read .user rw us = true ↔ us = true) ∧
    (permitted wp .write .user rw us = true ↔ us = true ∧ rw = true)

/-- The page faults of a read and of a write, and the state they leave: an entry that is not present, or rights that do not
permit the access (R115, R126, R127, R293). -/
def Obligations.PageFaults : Prop :=
  ∀ (r : SReg) (off : Dword) (n : Nat) (v : Dword) (s : State) (lin : Linear), lin = (s.seg r).h.base + off → 0 < n → s.walks →
    (segCheck r (s.seg r).h off n .read = true →
      (s.entryBacked (s.pdeAddr lin) → entryP (s.pdeOf lin) = false →
        exec (.mread r off n) s = .fault (.pageFault lin .read s.level false s)) ∧
      (s.reachesPte lin → entryP (s.pteOf lin) = false →
        exec (.mread r off n) s = .fault (.pageFault lin .read s.level false s)) ∧
      (s.mapsSmall lin → s.smallPermits lin s.level .read = false →
        exec (.mread r off n) s = .fault (.pageFault lin .read s.level true s)) ∧
      (s.mapsBig lin → s.bigPermits lin s.level .read = false →
        exec (.mread r off n) s = .fault (.pageFault lin .read s.level true s))) ∧
    (segCheck r (s.seg r).h off n .write = true →
      (s.entryBacked (s.pdeAddr lin) → entryP (s.pdeOf lin) = false →
        exec (.mwrite r off n v) s = .fault (.pageFault lin .write s.level false s)) ∧
      (s.reachesPte lin → entryP (s.pteOf lin) = false →
        exec (.mwrite r off n v) s = .fault (.pageFault lin .write s.level false s)) ∧
      (s.mapsSmall lin → s.smallPermits lin s.level .write = false →
        exec (.mwrite r off n v) s = .fault (.pageFault lin .write s.level true s)) ∧
      (s.mapsBig lin → s.bigPermits lin s.level .write = false →
        exec (.mwrite r off n v) s = .fault (.pageFault lin .write s.level true s)))

/-- A read within one 4-KByte page completes with the page's bytes as they stand after the walk; the A flags of the PDE and the PTE are
set, and nothing else of memory changes (R126, R128, R220). -/
def Obligations.PagedReadCompletes : Prop :=
  ∀ (r : SReg) (off : Dword) (n : Nat) (s : State) (lin : Linear) (pa : PhysAddr), lin = (s.seg r).h.base + off → 0 < n →
    segCheck r (s.seg r).h off n .read = true → s.mapsSmall lin → s.smallPermits lin s.level .read = true →
    lin.toNat % 4096 + n ≤ 4096 → pa.toNat = (s.pteOf lin).toNat / 4096 * 4096 + lin.toNat % 4096 →
    (∀ i : Nat, i < n → s.isMemory (pa + BitVec.ofNat 36 i)) →
    ∃ t : State, exec (.mread r off n) s = .next t ∧ t.result = .value n (leValue 32 (t.physBytes pa n)) ∧
      t.pfx = Pending.none ∧ s.SmallWalked { t with result := s.result, pfx := s.pfx } lin .read

/-- A walk under PAE, and one that meets a reserved bit, are refused (R118, R125). -/
def Obligations.WalkRefusals : Prop :=
  ∀ (lin : Linear) (kind : PageAccess) (lvl : Level) (s : State),
    (s.pg = true → s.cr4.pae = true → Machine.translate lin kind lvl (Ctx.start s) = .error (.refused .pae)) ∧
    (s.walks → s.entryBacked (s.pdeAddr lin) → entryP (s.pdeOf lin) = true →
      (s.cr4.pse = true → entryPS (s.pdeOf lin) = true → (s.pdeOf lin).extractLsb' 12 10 ≠ 0#10 →
        Machine.translate lin kind lvl (Ctx.start s) = .error (.refused .reservedBit)) ∧
      ((s.cr4.pse && entryPS (s.pdeOf lin)) = false → entryD (s.pdeOf lin) = true →
        Machine.translate lin kind lvl (Ctx.start s) = .error (.refused .reservedBit))) ∧
    (s.reachesPte lin → entryP (s.pteOf lin) = true → entryPS (s.pteOf lin) = true →
      Machine.translate lin kind lvl (Ctx.start s) = .error (.refused .reservedBit))

/-- A translation walks the tables, or is answered by a record of the TLB for that page, and by nothing else (R129 (b)). -/
def Obligations.TlbAnswersOrWalks : Prop :=
  ∀ (lin : Linear) (kind : PageAccess) (lvl : Level) (c : Ctx), c.cur.pg = true → c.cur.cr4.pae = false →
    ∃ d : Ctx, (d = c ∨ d = c.tick) ∧
      (Machine.translate lin kind lvl c = walk lin kind lvl d ∨
        ∃ r ∈ c.cur.tlb, r.covers lin = true ∧
          Machine.translate lin kind lvl c =
            if permitted c.cur.platform.supervisorWP kind lvl r.rw r.us = false then
              .error (.fault (.pageFault lin kind lvl true d.kept))
            else if kind = .read ∨ r.dirty = true then .ok (xlatOf r.size r.physBase lin, d)
            else walk lin kind lvl d)

/-- WRCR0, WRCR3 and WRCR4 (R250, R251, R252): PG from bit 31, the TLB emptied if it changes; CR3, and the TLB keeps global records
alone, and those only with CR4.PGE = 1; the three flags of CR4, `#GP(0)` for one the processor lacks, the TLB emptied if a flag
changes. Each raises `#GP(0)` above level 0. -/
def Obligations.ControlRegisterWrites : Prop :=
  (∀ (v : Dword) (s : State),
    (s.cpl ≠ 0#2 → exec (.wrcr0 v) s = .fault (.generalProtection 0 s)) ∧
    (s.cpl = 0#2 → exec (.wrcr0 v) s =
      .next ({ s with pg := v.getLsbD 31, tlb := if v.getLsbD 31 ≠ s.pg then [] else s.tlb }.finish .none))) ∧
  (∀ (v : Dword) (s : State),
    (s.cpl ≠ 0#2 → exec (.wrcr3 v) s = .fault (.generalProtection 0 s)) ∧
    (s.cpl = 0#2 → exec (.wrcr3 v) s =
      .next ({ s with cr3 := v, tlb := if s.cr4.pge = true then s.tlb.filter (·.global) else [] }.finish .none))) ∧
  ∀ (v : Dword) (s : State),
    (s.cpl ≠ 0#2 → exec (.wrcr4 v) s = .fault (.generalProtection 0 s)) ∧
    (s.cpl = 0#2 →
      ((v.getLsbD 4 = true ∧ s.platform.hasPSE = false) ∨ (v.getLsbD 5 = true ∧ s.platform.hasPAE = false) ∨
        (v.getLsbD 7 = true ∧ s.platform.hasPGE = false) → exec (.wrcr4 v) s = .fault (.generalProtection 0 s)) ∧
      (¬((v.getLsbD 4 = true ∧ s.platform.hasPSE = false) ∨ (v.getLsbD 5 = true ∧ s.platform.hasPAE = false) ∨
        (v.getLsbD 7 = true ∧ s.platform.hasPGE = false)) →
        exec (.wrcr4 v) s = .next (({ s with
          cr4 := { pse := v.getLsbD 4, pae := v.getLsbD 5, pge := v.getLsbD 7 }
          tlb := if s.cr4 = { pse := v.getLsbD 4, pae := v.getLsbD 5, pge := v.getLsbD 7 } then s.tlb else [] } : State).finish .none)))

/-- RDCR (R253): `#GP(0)` above level 0; CR3 whole; PG in bit 31 of CR0; PSE, PAE, PGE in bits 4, 5, 7 of CR4; the other bits
are free (log 5). -/
def Obligations.RdcrReads : Prop :=
  ∀ s : State,
    (s.cpl ≠ 0#2 → ∀ k : Nat, exec (.rdcr k) s = .fault (.generalProtection 0 s)) ∧
    (s.cpl = 0#2 →
      exec (.rdcr 3) s = .next (s.finish (.value 4 s.cr3)) ∧
      (∃ v : Dword, exec (.rdcr 0) s = .next ({ s with draws := s.draws + 1 }.finish (.value 4 v)) ∧ v.getLsbD 31 = s.pg) ∧
      (∃ v : Dword, exec (.rdcr 4) s = .next ({ s with draws := s.draws + 1 }.finish (.value 4 v)) ∧
        v.getLsbD 4 = s.cr4.pse ∧ v.getLsbD 5 = s.cr4.pae ∧ v.getLsbD 7 = s.cr4.pge))

/-- TASKSW is refused after its TLB effect, which the refusal holds (R254); MACCESS64 raises the exception for an address that is not
canonical, else long-mode translation is refused (R273). -/
def Obligations.OperationsThatStop : Prop :=
  (∀ s : State, exec .tasksw s = .refused (.taskSwitch
    ({ s with tlb := if s.cr4.pge = true then s.tlb.filter (·.global) else [] }.finish .none))) ∧
  ∀ (va : BitVec 64) (kind : PageAccess) (s : State),
    (isCanonical s.platform.vaBits va = false →
      exec (.maccess64 va kind) s = .fault (.nonCanonical s.platform.nonCanonical s)) ∧
    (isCanonical s.platform.vaBits va = true → exec (.maccess64 va kind) s = .refused .longModeTranslation)

/-! The annex (R159), paging off where memory is used. -/

/-- MOV Sreg, r/m16 loads the register with its operand (any register but CS). POP of a segment register is a stack read and the load
(R159); that it is SPOP of operand-size bytes, of which the low 16 bits are the selector, is the model's (PRESUMED, log 8). -/
def Obligations.SregLoadsComplete : Prop :=
  ∀ s : State,
    (∀ (r : SReg) (src : RM), r ≠ .cs → s.flatSource16 src → s.flatLoadOk r (s.source16 src) →
      exec (.movSregRm16 r src) s = .next ((s.afterLoad r (s.source16 src)).finish .none)) ∧
    ∀ sel : Selector, s.flatPoppable s.operandBytes → sel = leValue 16 (s.flatPopBytes s.operandBytes) →
      ∀ p ∈ [(Instr.popEs, SReg.es), (.popSs, .ss), (.popDs, .ds), (.popFs, .fs), (.popGs, .gs)],
        (s.popped s.operandBytes).flatLoadOk p.2 sel →
        exec p.1 s = .next (((s.popped s.operandBytes).afterLoad p.2 sel).finish .none)

/-- MOV r/m16, Sreg and SLDT r/m16 store a selector in a general register (its upper half zero under 32-bit operand size, kept
under 16-bit, log 9) or in two bytes of memory, and no other byte (SLDT: log 12). -/
def Obligations.SelectorStoresComplete : Prop :=
  ∀ (dst : RM) (s : State), s.flatDest16 dst →
    (∀ r : SReg, exec (.movRm16Sreg dst r) s = .next ((s.stored16 dst (s.seg r).sel).finish .none)) ∧
    exec (.sldt dst) s = .next ((s.stored16 dst s.ldtr.sel).finish .none) ∧
    ∀ (v : BitVec 16) (a : Nat),
      match dst with
      | .reg _ => (s.stored16 dst v).mem = s.mem
      | .mem m => outside ((s.seg (s.operandAt m).1).h.base + (s.operandAt m).2) 2 a →
          (s.stored16 dst v).mem.read a = s.mem.read a

/-- LES, LDS, LSS, LFS, LGS: the far pointer's selector loads the segment register, its offset the general register (R153 (b), R159). That
6 bytes are read and all 32 bits of the general register written whatever the operand size is the model's (PRESUMED, log 9, log 10), and so
is that they are one access (DESIGN CHOICE, log 21). -/
def Obligations.FarLoadsComplete : Prop :=
  ∀ (s : State) (g : BitVec 3) (m : MemArg), s.flatOperandReadable m 6 →
    ∀ p ∈ [(Instr.les g m, SReg.es), (.lds g m, .ds), (.lss g m, .ss), (.lfs g m, .fs), (.lgs g m, .gs)],
      s.flatLoadOk p.2 (s.farSelector m) →
      exec p.1 s = .next (((s.afterLoad p.2 (s.farSelector m)).setReg g (s.farOffset m)).finish .none)

/-- Far jumps load CS (R159, R192) and return their offset. That a jump completes, though R159's row says of its seven instructions that
"the rest is refused", and that its offset is what it returns, is the model's reading (DEDUCED, log 8; log 1). The far pointer in
memory is 6 bytes (R153 (b)) whatever the operand size (PRESUMED, log 10), in one access (DESIGN CHOICE, log 21). -/
def Obligations.FarJumpsComplete : Prop :=
  ∀ s : State,
    (∀ (off : Dword) (sel : Selector), s.flatLoadable .cs sel →
      exec (.jmpPtr off sel) s = .next ((s.flatLoaded .cs sel).finish (.target off))) ∧
    (∀ m : MemArg, s.flatOperandReadable m 6 → s.flatLoadable .cs (s.farSelector m) →
      exec (.jmpMem m) s = .next ((s.flatLoaded .cs (s.farSelector m)).finish (.target (s.farOffset m))))

/-- Far calls and far returns are refused after their CS load, and the refusal holds the state with it; an exception or a refusal of that
load is theirs (R159, R192). The far pointer in memory is 6 bytes (R153 (b)) whatever the operand size (PRESUMED, log 10), in one
access (DESIGN CHOICE, log 21). The selector of a return is found on the stack, above the first item (PRESUMED, log 8). A return to an outer level is refused (R192,
R306); that it is refused before the descriptor is read is the model's order (log 8). None of them ever completes. -/
def Obligations.FarCallsAndReturnsStop : Prop :=
  ∀ s : State,
    (∀ (off : Dword) (sel : Selector), exec (.callPtr off sel) s = onlyCsLoad (exec (.ldcs sel) s) ∧
      (s.flatLoadable .cs sel → exec (.callPtr off sel) s = .refused (.farTransfer ((s.flatLoaded .cs sel).finish .none)))) ∧
    (∀ m : MemArg, s.flatOperandReadable m 6 → exec (.callMem m) s = onlyCsLoad (exec (.ldcs (s.farSelector m)) s)) ∧
    (∀ (i : Instr) (imm : BitVec 16), i ∈ [Instr.retf, .retfImm imm, .iret] → s.flatPoppable s.operandBytes →
      (s.popped s.operandBytes).flatPoppable s.operandBytes →
      exec i s = if isNull s.returnSelector = false ∧ s.cpl < selRPL s.returnSelector then .refused .privilegeChange
        else onlyCsLoad (exec (.ldcs s.returnSelector) s)) ∧
    ∀ (off : Dword) (sel : Selector) (m : MemArg) (imm : BitVec 16) (i : Instr) (t : State),
      i ∈ [Instr.callPtr off sel, .callMem m, .retf, .retfImm imm, .iret] → exec i s ≠ .next t

/-- LGDT and LLDT complete at level 0; SGDT stores 6 bytes, limit and base, and no other byte (R153 (c), R159; SGDT: log 12;
that the 6 bytes are one access: DESIGN CHOICE, log 21). -/
def Obligations.TableMovesComplete : Prop :=
  ∀ s : State,
    (∀ m : MemArg, s.cpl = 0#2 → s.flatOperandReadable m 6 →
      exec (.lgdt m) s = .next ({ s with gdtr :=
        { base := leValue 32 ((s.flatOperandBytes m 6).drop 2), limit := leValue 16 ((s.flatOperandBytes m 6).take 2) } }.finish
          .none)) ∧
    (∀ m : MemArg, s.flatMemWritable (s.operandAt m).1 (s.operandAt m).2 6 →
      ∃ t : State, exec (.sgdt m) s = .next t ∧
        t = (s.flatMemStore (s.operandAt m).1 (s.operandAt m).2 (leBytes 2 s.gdtr.limit ++ leBytes 4 s.gdtr.base)).finish .none ∧
        ∀ a : Nat, outside ((s.seg (s.operandAt m).1).h.base + (s.operandAt m).2) 6 a → t.mem.read a = s.mem.read a) ∧
    (∀ src : RM, s.cpl = 0#2 → s.flatSource16 src → s.flatLdtOk (s.source16 src) →
      exec (.lldt src) s = .next ((s.afterLdt (s.source16 src)).finish .none))

/-- MOV to CR0, CR3 and CR4 is WRCR0, WRCR3 and WRCR4 of the general register, and MOV from one puts what RDCR returns in a
general register; at level 0 they complete where those do (R159, R250 to R253). -/
def Obligations.ControlMoves : Prop :=
  ∀ (s : State) (r : BitVec 3), s.cpl = 0#2 →
    exec (.movCrR32 0 r) s =
      .next (({ s with pg := (s.reg r).getLsbD 31, tlb := if (s.reg r).getLsbD 31 = s.pg then s.tlb else [] } : State).finish .none) ∧
    exec (.movCrR32 3 r) s =
      .next ({ s with cr3 := s.reg r, tlb := if s.cr4.pge = true then s.tlb.filter (·.global) else [] }.finish .none) ∧
    exec (.movCrR32 4 r) s = exec (.wrcr4 (s.reg r)) s ∧
    (cr4Supported s.platform (cr4Of (s.reg r)) = true →
      exec (.movCrR32 4 r) s = .next ((s.setCr4 (cr4Of (s.reg r))).finish .none)) ∧
    exec (.movR32Cr r 3) s = .next ((s.setReg r s.cr3).finish .none) ∧
    (∃ v : Dword, exec (.movR32Cr r 0) s = .next (({ s with draws := s.draws + 1 }.setReg r v).finish .none) ∧
      v.getLsbD 31 = s.pg) ∧
    (∃ v : Dword, exec (.movR32Cr r 4) s = .next (({ s with draws := s.draws + 1 }.setReg r v).finish .none) ∧
      v.getLsbD 4 = s.cr4.pse ∧ v.getLsbD 5 = s.cr4.pae ∧ v.getLsbD 7 = s.cr4.pge)

/-- The moves between the accumulator and memory at an offset: `OperandSize / 8` bytes or one, little-endian; a store changes
no other byte (R159, R225, R226). -/
def Obligations.MoffsMovesComplete : Prop :=
  ∀ (s : State) (a32 : Bool) (off o : Dword) (n : Nat), o = (if a32 = true then off else (off.setWidth 16).setWidth 32) →
    n = s.operandBytes →
    (s.flatMemReadable (s.operandSeg false) o n → exec (.movEaxMoffs a32 off) s =
      .next ((s.setRegLow 0 n (leValue 32 (s.flatMemBytes (s.operandSeg false) o n))).finish .none)) ∧
    (s.flatMemReadable (s.operandSeg false) o 1 → exec (.movAlMoffs a32 off) s =
      .next ((s.setRegLow 0 1 (leValue 32 (s.flatMemBytes (s.operandSeg false) o 1))).finish .none)) ∧
    (s.flatMemWritable (s.operandSeg false) o n → ∃ t : State, exec (.movMoffsEax a32 off) s = .next t ∧
      t = (s.flatMemStore (s.operandSeg false) o (leBytes n s.gpr.eax)).finish .none ∧
      ∀ a : Nat, outside ((s.seg (s.operandSeg false)).h.base + o) n a → t.mem.read a = s.mem.read a) ∧
    (s.flatMemWritable (s.operandSeg false) o 1 → ∃ t : State, exec (.movMoffsAl a32 off) s = .next t ∧
      t = (s.flatMemStore (s.operandSeg false) o (leBytes 1 s.gpr.eax)).finish .none ∧
      ∀ a : Nat, outside ((s.seg (s.operandSeg false)).h.base + o) 1 a → t.mem.read a = s.mem.read a)

/-- PUSH r32 and POP r32, `OperandSize / 8` bytes; a push changes no other byte (R159, R223, R224). PUSH ESP stores ESP as it was, and POP
ESP leaves the popped value (PRESUMED, log 9). -/
def Obligations.PushPopComplete : Prop :=
  ∀ (s : State) (r : BitVec 3) (n : Nat), n = s.operandBytes →
    (s.flatPushable n → ∃ t : State, exec (.pushR32 r) s = .next t ∧
      t = (s.flatPushed (leBytes n (s.reg r))).finish .none ∧
      ∀ a : Nat, outside (s.segs.ss.h.base + s.pushOffset n) n a → t.mem.read a = s.mem.read a) ∧
    (s.flatPoppable n → exec (.popR32 r) s =
      .next (((s.popped n).setRegLow r n (leValue 32 (s.flatPopBytes n))).finish .none))

/-- Writing a general register: all of it, its low word or its low byte, and no other register (the family's, log 9). -/
def Obligations.RegisterWrites : Prop :=
  ∀ (s : State) (r q : BitVec 3) (v : Dword),
    (s.setReg r v).reg q = (if q = r then v else s.reg q) ∧
    (s.setRegLow r 2 v).reg q = (if q = r then (s.reg r).extractLsb' 16 16 ++ v.extractLsb' 0 16 else s.reg q) ∧
    (s.setRegLow r 1 v).reg q = (if q = r then (s.reg r).extractLsb' 8 24 ++ v.extractLsb' 0 8 else s.reg q)

/-! The whole machine. -/

/-- The launch state the model chose meets every premise of R331, (a) to (h), with an empty TLB, and the invariant (log 2). -/
def Obligations.LaunchMeetsPremises : Prop := LaunchPremises State.reset ∧ tlbEmpty State.reset ∧ Inv State.reset

/-- Every step keeps canonical memory and the premises R331 (a) to (e). -/
def Obligations.StepKeepsInvariant : Prop := ∀ s t : State, Inv s → step s = .next t → Inv t

/-- An exception leaves the state as it was before the operation, but for bits 5 and 6 of bytes of memory newly set, TLB records added
and draws (R130, R300). -/
def Obligations.FaultsArePrecise : Prop :=
  ∀ (i : Instr) (s : State) (f : Fault), i.wf = true → exec i s = .fault f → SameButFlags s f.left

/-- No step changes CPL, nor a parameter of the platform (R306; 00_scope.md R7). -/
def Obligations.LevelNeverChanges : Prop :=
  ∀ s t : State, step s = .next t → t.cpl = s.cpl ∧ t.platform = s.platform

/-- Above level 0 no step changes GDTR, LDTR, CR0, CR3 or CR4: an operation that would raises `#GP(0)` (R304, R159). -/
def Obligations.SystemStateIsPrivileged : Prop :=
  (∀ s t : State, s.cpl ≠ 0#2 → step s = .next t → sameSystem s t) ∧
  (∀ (i : Instr) (s : State), s.cpl ≠ 0#2 → onlyLevel0 i = true → exec i s = .fault (.generalProtection 0 s))

/-- A segment register changes by a load of it and by nothing else, whatever is written to memory (R24, R198). -/
def Obligations.SegmentsChangeByLoads : Prop :=
  ∀ (i : Instr) (r : SReg) (s t : State), i.wf = true → loadsSeg i ≠ some r → exec i s = .next t → t.seg r = s.seg r

/-- An instruction that stores nothing sets A in first bytes of page entries, which the tables before it place, and changes no other bit
of memory; with paging off it changes none (R126, R128). -/
def Obligations.ReadersKeepMemory : Prop :=
  ∀ (i : Instr) (s t : State), storesNothing i = true → exec i s = .next t →
    (∀ a : Nat, ¬s.entryByte a → t.mem.read a = s.mem.read a) ∧
    (∀ a : Nat, t.mem.read a = s.mem.read a ∨ t.mem.read a = s.mem.read a ||| 0x20) ∧
    t.ioOut = s.ioOut ∧ (s.pg = false → t.mem = s.mem)
end

