-- ==== Sys2Proof/Laws/State.lean ====
section
/-! SUPPORT. One lemma per field per update of State, true by rfl; the same for the updates of a running operation's
context, the segment registers and the general registers. -/

namespace Sys2Proof.Machine

variable (s : State)

@[simp] theorem State.setSeg_segs (r : SReg) (v : SegReg) : (s.setSeg r v).segs = s.segs.set r v := rfl
@[simp] theorem State.setSeg_gdtr (r : SReg) (v : SegReg) : (s.setSeg r v).gdtr = s.gdtr := rfl
@[simp] theorem State.setSeg_ldtr (r : SReg) (v : SegReg) : (s.setSeg r v).ldtr = s.ldtr := rfl
@[simp] theorem State.setSeg_pg (r : SReg) (v : SegReg) : (s.setSeg r v).pg = s.pg := rfl
@[simp] theorem State.setSeg_cr3 (r : SReg) (v : SegReg) : (s.setSeg r v).cr3 = s.cr3 := rfl
@[simp] theorem State.setSeg_cr4 (r : SReg) (v : SegReg) : (s.setSeg r v).cr4 = s.cr4 := rfl
@[simp] theorem State.setSeg_esp (r : SReg) (v : SegReg) : (s.setSeg r v).esp = s.esp := rfl
@[simp] theorem State.setSeg_cpl (r : SReg) (v : SegReg) : (s.setSeg r v).cpl = s.cpl := rfl
@[simp] theorem State.setSeg_tlb (r : SReg) (v : SegReg) : (s.setSeg r v).tlb = s.tlb := rfl
@[simp] theorem State.setSeg_mem (r : SReg) (v : SegReg) : (s.setSeg r v).mem = s.mem := rfl
@[simp] theorem State.setSeg_platform (r : SReg) (v : SegReg) : (s.setSeg r v).platform = s.platform := rfl
@[simp] theorem State.setSeg_gpr (r : SReg) (v : SegReg) : (s.setSeg r v).gpr = s.gpr := rfl
@[simp] theorem State.setSeg_pfx (r : SReg) (v : SegReg) : (s.setSeg r v).pfx = s.pfx := rfl
@[simp] theorem State.setSeg_result (r : SReg) (v : SegReg) : (s.setSeg r v).result = s.result := rfl
@[simp] theorem State.setSeg_ioOut (r : SReg) (v : SegReg) : (s.setSeg r v).ioOut = s.ioOut := rfl
@[simp] theorem State.setSeg_draws (r : SReg) (v : SegReg) : (s.setSeg r v).draws = s.draws := rfl
@[simp] theorem State.setSeg_queue (r : SReg) (v : SegReg) : (s.setSeg r v).queue = s.queue := rfl

@[simp] theorem State.setMem_segs (m : Memory) : (s.setMem m).segs = s.segs := rfl
@[simp] theorem State.setMem_gdtr (m : Memory) : (s.setMem m).gdtr = s.gdtr := rfl
@[simp] theorem State.setMem_ldtr (m : Memory) : (s.setMem m).ldtr = s.ldtr := rfl
@[simp] theorem State.setMem_pg (m : Memory) : (s.setMem m).pg = s.pg := rfl
@[simp] theorem State.setMem_cr3 (m : Memory) : (s.setMem m).cr3 = s.cr3 := rfl
@[simp] theorem State.setMem_cr4 (m : Memory) : (s.setMem m).cr4 = s.cr4 := rfl
@[simp] theorem State.setMem_esp (m : Memory) : (s.setMem m).esp = s.esp := rfl
@[simp] theorem State.setMem_cpl (m : Memory) : (s.setMem m).cpl = s.cpl := rfl
@[simp] theorem State.setMem_tlb (m : Memory) : (s.setMem m).tlb = s.tlb := rfl
@[simp] theorem State.setMem_mem (m : Memory) : (s.setMem m).mem = m := rfl
@[simp] theorem State.setMem_platform (m : Memory) : (s.setMem m).platform = s.platform := rfl
@[simp] theorem State.setMem_gpr (m : Memory) : (s.setMem m).gpr = s.gpr := rfl
@[simp] theorem State.setMem_pfx (m : Memory) : (s.setMem m).pfx = s.pfx := rfl
@[simp] theorem State.setMem_result (m : Memory) : (s.setMem m).result = s.result := rfl
@[simp] theorem State.setMem_ioOut (m : Memory) : (s.setMem m).ioOut = s.ioOut := rfl
@[simp] theorem State.setMem_draws (m : Memory) : (s.setMem m).draws = s.draws := rfl
@[simp] theorem State.setMem_queue (m : Memory) : (s.setMem m).queue = s.queue := rfl

@[simp] theorem State.setTlb_segs (t : List TlbRecord) : (s.setTlb t).segs = s.segs := rfl
@[simp] theorem State.setTlb_gdtr (t : List TlbRecord) : (s.setTlb t).gdtr = s.gdtr := rfl
@[simp] theorem State.setTlb_ldtr (t : List TlbRecord) : (s.setTlb t).ldtr = s.ldtr := rfl
@[simp] theorem State.setTlb_pg (t : List TlbRecord) : (s.setTlb t).pg = s.pg := rfl
@[simp] theorem State.setTlb_cr3 (t : List TlbRecord) : (s.setTlb t).cr3 = s.cr3 := rfl
@[simp] theorem State.setTlb_cr4 (t : List TlbRecord) : (s.setTlb t).cr4 = s.cr4 := rfl
@[simp] theorem State.setTlb_esp (t : List TlbRecord) : (s.setTlb t).esp = s.esp := rfl
@[simp] theorem State.setTlb_cpl (t : List TlbRecord) : (s.setTlb t).cpl = s.cpl := rfl
@[simp] theorem State.setTlb_tlb (t : List TlbRecord) : (s.setTlb t).tlb = t := rfl
@[simp] theorem State.setTlb_mem (t : List TlbRecord) : (s.setTlb t).mem = s.mem := rfl
@[simp] theorem State.setTlb_platform (t : List TlbRecord) : (s.setTlb t).platform = s.platform := rfl
@[simp] theorem State.setTlb_gpr (t : List TlbRecord) : (s.setTlb t).gpr = s.gpr := rfl
@[simp] theorem State.setTlb_pfx (t : List TlbRecord) : (s.setTlb t).pfx = s.pfx := rfl
@[simp] theorem State.setTlb_result (t : List TlbRecord) : (s.setTlb t).result = s.result := rfl
@[simp] theorem State.setTlb_ioOut (t : List TlbRecord) : (s.setTlb t).ioOut = s.ioOut := rfl
@[simp] theorem State.setTlb_draws (t : List TlbRecord) : (s.setTlb t).draws = s.draws := rfl
@[simp] theorem State.setTlb_queue (t : List TlbRecord) : (s.setTlb t).queue = s.queue := rfl

@[simp] theorem State.setEsp_segs (v : Dword) : (s.setEsp v).segs = s.segs := rfl
@[simp] theorem State.setEsp_gdtr (v : Dword) : (s.setEsp v).gdtr = s.gdtr := rfl
@[simp] theorem State.setEsp_ldtr (v : Dword) : (s.setEsp v).ldtr = s.ldtr := rfl
@[simp] theorem State.setEsp_pg (v : Dword) : (s.setEsp v).pg = s.pg := rfl
@[simp] theorem State.setEsp_cr3 (v : Dword) : (s.setEsp v).cr3 = s.cr3 := rfl
@[simp] theorem State.setEsp_cr4 (v : Dword) : (s.setEsp v).cr4 = s.cr4 := rfl
@[simp] theorem State.setEsp_esp (v : Dword) : (s.setEsp v).esp = v := rfl
@[simp] theorem State.setEsp_cpl (v : Dword) : (s.setEsp v).cpl = s.cpl := rfl
@[simp] theorem State.setEsp_tlb (v : Dword) : (s.setEsp v).tlb = s.tlb := rfl
@[simp] theorem State.setEsp_mem (v : Dword) : (s.setEsp v).mem = s.mem := rfl
@[simp] theorem State.setEsp_platform (v : Dword) : (s.setEsp v).platform = s.platform := rfl
@[simp] theorem State.setEsp_gpr (v : Dword) : (s.setEsp v).gpr = s.gpr := rfl
@[simp] theorem State.setEsp_pfx (v : Dword) : (s.setEsp v).pfx = s.pfx := rfl
@[simp] theorem State.setEsp_result (v : Dword) : (s.setEsp v).result = s.result := rfl
@[simp] theorem State.setEsp_ioOut (v : Dword) : (s.setEsp v).ioOut = s.ioOut := rfl
@[simp] theorem State.setEsp_draws (v : Dword) : (s.setEsp v).draws = s.draws := rfl
@[simp] theorem State.setEsp_queue (v : Dword) : (s.setEsp v).queue = s.queue := rfl

@[simp] theorem State.setGpr_segs (g : Gpr) : (s.setGpr g).segs = s.segs := rfl
@[simp] theorem State.setGpr_gdtr (g : Gpr) : (s.setGpr g).gdtr = s.gdtr := rfl
@[simp] theorem State.setGpr_ldtr (g : Gpr) : (s.setGpr g).ldtr = s.ldtr := rfl
@[simp] theorem State.setGpr_pg (g : Gpr) : (s.setGpr g).pg = s.pg := rfl
@[simp] theorem State.setGpr_cr3 (g : Gpr) : (s.setGpr g).cr3 = s.cr3 := rfl
@[simp] theorem State.setGpr_cr4 (g : Gpr) : (s.setGpr g).cr4 = s.cr4 := rfl
@[simp] theorem State.setGpr_esp (g : Gpr) : (s.setGpr g).esp = s.esp := rfl
@[simp] theorem State.setGpr_cpl (g : Gpr) : (s.setGpr g).cpl = s.cpl := rfl
@[simp] theorem State.setGpr_tlb (g : Gpr) : (s.setGpr g).tlb = s.tlb := rfl
@[simp] theorem State.setGpr_mem (g : Gpr) : (s.setGpr g).mem = s.mem := rfl
@[simp] theorem State.setGpr_platform (g : Gpr) : (s.setGpr g).platform = s.platform := rfl
@[simp] theorem State.setGpr_gpr (g : Gpr) : (s.setGpr g).gpr = g := rfl
@[simp] theorem State.setGpr_pfx (g : Gpr) : (s.setGpr g).pfx = s.pfx := rfl
@[simp] theorem State.setGpr_result (g : Gpr) : (s.setGpr g).result = s.result := rfl
@[simp] theorem State.setGpr_ioOut (g : Gpr) : (s.setGpr g).ioOut = s.ioOut := rfl
@[simp] theorem State.setGpr_draws (g : Gpr) : (s.setGpr g).draws = s.draws := rfl
@[simp] theorem State.setGpr_queue (g : Gpr) : (s.setGpr g).queue = s.queue := rfl

@[simp] theorem State.tick_segs : s.tick.segs = s.segs := rfl
@[simp] theorem State.tick_gdtr : s.tick.gdtr = s.gdtr := rfl
@[simp] theorem State.tick_ldtr : s.tick.ldtr = s.ldtr := rfl
@[simp] theorem State.tick_pg : s.tick.pg = s.pg := rfl
@[simp] theorem State.tick_cr3 : s.tick.cr3 = s.cr3 := rfl
@[simp] theorem State.tick_cr4 : s.tick.cr4 = s.cr4 := rfl
@[simp] theorem State.tick_esp : s.tick.esp = s.esp := rfl
@[simp] theorem State.tick_cpl : s.tick.cpl = s.cpl := rfl
@[simp] theorem State.tick_tlb : s.tick.tlb = s.tlb := rfl
@[simp] theorem State.tick_mem : s.tick.mem = s.mem := rfl
@[simp] theorem State.tick_platform : s.tick.platform = s.platform := rfl
@[simp] theorem State.tick_gpr : s.tick.gpr = s.gpr := rfl
@[simp] theorem State.tick_pfx : s.tick.pfx = s.pfx := rfl
@[simp] theorem State.tick_result : s.tick.result = s.result := rfl
@[simp] theorem State.tick_ioOut : s.tick.ioOut = s.ioOut := rfl
@[simp] theorem State.tick_draws : s.tick.draws = s.draws + 1 := rfl
@[simp] theorem State.tick_queue : s.tick.queue = s.queue := rfl

@[simp] theorem State.setIoOut_segs (l : List (Nat × Byte)) : (s.setIoOut l).segs = s.segs := rfl
@[simp] theorem State.setIoOut_gdtr (l : List (Nat × Byte)) : (s.setIoOut l).gdtr = s.gdtr := rfl
@[simp] theorem State.setIoOut_ldtr (l : List (Nat × Byte)) : (s.setIoOut l).ldtr = s.ldtr := rfl
@[simp] theorem State.setIoOut_pg (l : List (Nat × Byte)) : (s.setIoOut l).pg = s.pg := rfl
@[simp] theorem State.setIoOut_cr3 (l : List (Nat × Byte)) : (s.setIoOut l).cr3 = s.cr3 := rfl
@[simp] theorem State.setIoOut_cr4 (l : List (Nat × Byte)) : (s.setIoOut l).cr4 = s.cr4 := rfl
@[simp] theorem State.setIoOut_esp (l : List (Nat × Byte)) : (s.setIoOut l).esp = s.esp := rfl
@[simp] theorem State.setIoOut_cpl (l : List (Nat × Byte)) : (s.setIoOut l).cpl = s.cpl := rfl
@[simp] theorem State.setIoOut_tlb (l : List (Nat × Byte)) : (s.setIoOut l).tlb = s.tlb := rfl
@[simp] theorem State.setIoOut_mem (l : List (Nat × Byte)) : (s.setIoOut l).mem = s.mem := rfl
@[simp] theorem State.setIoOut_platform (l : List (Nat × Byte)) : (s.setIoOut l).platform = s.platform := rfl
@[simp] theorem State.setIoOut_gpr (l : List (Nat × Byte)) : (s.setIoOut l).gpr = s.gpr := rfl
@[simp] theorem State.setIoOut_pfx (l : List (Nat × Byte)) : (s.setIoOut l).pfx = s.pfx := rfl
@[simp] theorem State.setIoOut_result (l : List (Nat × Byte)) : (s.setIoOut l).result = s.result := rfl
@[simp] theorem State.setIoOut_ioOut (l : List (Nat × Byte)) : (s.setIoOut l).ioOut = l := rfl
@[simp] theorem State.setIoOut_draws (l : List (Nat × Byte)) : (s.setIoOut l).draws = s.draws := rfl
@[simp] theorem State.setIoOut_queue (l : List (Nat × Byte)) : (s.setIoOut l).queue = s.queue := rfl

@[simp] theorem State.finish_segs (r : Result) : (s.finish r).segs = s.segs := rfl
@[simp] theorem State.finish_gdtr (r : Result) : (s.finish r).gdtr = s.gdtr := rfl
@[simp] theorem State.finish_ldtr (r : Result) : (s.finish r).ldtr = s.ldtr := rfl
@[simp] theorem State.finish_pg (r : Result) : (s.finish r).pg = s.pg := rfl
@[simp] theorem State.finish_cr3 (r : Result) : (s.finish r).cr3 = s.cr3 := rfl
@[simp] theorem State.finish_cr4 (r : Result) : (s.finish r).cr4 = s.cr4 := rfl
@[simp] theorem State.finish_esp (r : Result) : (s.finish r).esp = s.esp := rfl
@[simp] theorem State.finish_cpl (r : Result) : (s.finish r).cpl = s.cpl := rfl
@[simp] theorem State.finish_tlb (r : Result) : (s.finish r).tlb = s.tlb := rfl
@[simp] theorem State.finish_mem (r : Result) : (s.finish r).mem = s.mem := rfl
@[simp] theorem State.finish_platform (r : Result) : (s.finish r).platform = s.platform := rfl
@[simp] theorem State.finish_gpr (r : Result) : (s.finish r).gpr = s.gpr := rfl
@[simp] theorem State.finish_pfx (r : Result) : (s.finish r).pfx = Pending.none := rfl
@[simp] theorem State.finish_result (r : Result) : (s.finish r).result = r := rfl
@[simp] theorem State.finish_ioOut (r : Result) : (s.finish r).ioOut = s.ioOut := rfl
@[simp] theorem State.finish_draws (r : Result) : (s.finish r).draws = s.draws := rfl
@[simp] theorem State.finish_queue (r : Result) : (s.finish r).queue = s.queue := rfl

@[simp] theorem State.setQueue_segs (q : List Event) : (s.setQueue q).segs = s.segs := rfl
@[simp] theorem State.setQueue_gdtr (q : List Event) : (s.setQueue q).gdtr = s.gdtr := rfl
@[simp] theorem State.setQueue_ldtr (q : List Event) : (s.setQueue q).ldtr = s.ldtr := rfl
@[simp] theorem State.setQueue_pg (q : List Event) : (s.setQueue q).pg = s.pg := rfl
@[simp] theorem State.setQueue_cr3 (q : List Event) : (s.setQueue q).cr3 = s.cr3 := rfl
@[simp] theorem State.setQueue_cr4 (q : List Event) : (s.setQueue q).cr4 = s.cr4 := rfl
@[simp] theorem State.setQueue_esp (q : List Event) : (s.setQueue q).esp = s.esp := rfl
@[simp] theorem State.setQueue_cpl (q : List Event) : (s.setQueue q).cpl = s.cpl := rfl
@[simp] theorem State.setQueue_tlb (q : List Event) : (s.setQueue q).tlb = s.tlb := rfl
@[simp] theorem State.setQueue_mem (q : List Event) : (s.setQueue q).mem = s.mem := rfl
@[simp] theorem State.setQueue_platform (q : List Event) : (s.setQueue q).platform = s.platform := rfl
@[simp] theorem State.setQueue_gpr (q : List Event) : (s.setQueue q).gpr = s.gpr := rfl
@[simp] theorem State.setQueue_pfx (q : List Event) : (s.setQueue q).pfx = s.pfx := rfl
@[simp] theorem State.setQueue_result (q : List Event) : (s.setQueue q).result = s.result := rfl
@[simp] theorem State.setQueue_ioOut (q : List Event) : (s.setQueue q).ioOut = s.ioOut := rfl
@[simp] theorem State.setQueue_draws (q : List Event) : (s.setQueue q).draws = s.draws := rfl
@[simp] theorem State.setQueue_queue (q : List Event) : (s.setQueue q).queue = q := rfl

@[simp] theorem SegFile.get_set_same (f : SegFile) (r : SReg) (v : SegReg) : (f.set r v).get r = v := by
  cases r <;> rfl

@[simp] theorem SegFile.get_set_other (f : SegFile) (r q : SReg) (v : SegReg) (h : q ≠ r) :
    (f.set r v).get q = f.get q := by
  cases r <;> cases q <;> first | rfl | exact absurd rfl h

@[simp] theorem State.seg_cs : s.seg .cs = s.segs.cs := rfl
@[simp] theorem State.seg_ss : s.seg .ss = s.segs.ss := rfl
@[simp] theorem State.seg_setSeg_same (r : SReg) (v : SegReg) : (s.setSeg r v).seg r = v := by
  simp [State.seg]
@[simp] theorem State.seg_setSeg_other (r q : SReg) (v : SegReg) (h : q ≠ r) : (s.setSeg r v).seg q = s.seg q := by
  simp [State.seg, h]
@[simp] theorem State.seg_setMem (m : Memory) (q : SReg) : (s.setMem m).seg q = s.seg q := rfl
@[simp] theorem State.seg_setTlb (t : List TlbRecord) (q : SReg) : (s.setTlb t).seg q = s.seg q := rfl
@[simp] theorem State.seg_setEsp (v : Dword) (q : SReg) : (s.setEsp v).seg q = s.seg q := rfl
@[simp] theorem State.seg_tick (q : SReg) : s.tick.seg q = s.seg q := rfl
@[simp] theorem State.kindAt_setMem (m : Memory) (pa : PhysAddr) : (s.setMem m).kindAt pa = s.kindAt pa := rfl
@[simp] theorem State.kindAt_setSeg (r : SReg) (v : SegReg) (pa : PhysAddr) : (s.setSeg r v).kindAt pa = s.kindAt pa := rfl
@[simp] theorem State.kindAt_setEsp (v : Dword) (pa : PhysAddr) : (s.setEsp v).kindAt pa = s.kindAt pa := rfl
@[simp] theorem State.kindAt_setTlb (t : List TlbRecord) (pa : PhysAddr) : (s.setTlb t).kindAt pa = s.kindAt pa := rfl
@[simp] theorem State.kindAt_tick (pa : PhysAddr) : s.tick.kindAt pa = s.kindAt pa := rfl

@[simp] theorem Ctx.start_cur : (Ctx.start s).cur = s := rfl
@[simp] theorem Ctx.start_kept : (Ctx.start s).kept = s := rfl
@[simp] theorem Ctx.onCur_cur (c : Ctx) (f : State → State) : (c.onCur f).cur = f c.cur := rfl
@[simp] theorem Ctx.onCur_kept (c : Ctx) (f : State → State) : (c.onCur f).kept = c.kept := rfl
@[simp] theorem Ctx.tick_cur (c : Ctx) : c.tick.cur = c.cur.tick := rfl
@[simp] theorem Ctx.tick_kept (c : Ctx) : c.tick.kept = c.kept.tick := rfl
@[simp] theorem Ctx.addRecord_cur (c : Ctx) (r : TlbRecord) :
    (c.addRecord r).cur = c.cur.setTlb (Machine.addRecord r c.cur.tlb) := rfl
@[simp] theorem Ctx.addRecord_kept (c : Ctx) (r : TlbRecord) :
    (c.addRecord r).kept = c.kept.setTlb (Machine.addRecord r c.kept.tlb) := rfl
@[simp] theorem Ctx.loadSeg_cur (c : Ctx) (r : SReg) (sel : Selector) (d : Descriptor) :
    (c.loadSeg r sel d).cur = c.cur.setSeg r { sel := sel, h := d.loaded } := rfl
@[simp] theorem Ctx.loadSeg_kept (c : Ctx) (r : SReg) (sel : Selector) (d : Descriptor) :
    (c.loadSeg r sel d).kept = c.kept := rfl

/-- Writing a general register writes ESP or one of the annex's, and nothing else. -/
theorem State.setReg_cases (r : BitVec 3) (v : Dword) : s.setReg r v = s.setEsp v ∨ ∃ g, s.setReg r v = s.setGpr g := by
  unfold State.setReg
  repeat' split
  all_goals first | exact .inl rfl | exact .inr ⟨_, rfl⟩

/-- Writing the low part of a general register writes that register. -/
theorem State.setRegLow_cases (r : BitVec 3) (n : Nat) (v : Dword) : ∃ w, s.setRegLow r n v = s.setReg r w := by
  unfold State.setRegLow
  repeat' split
  all_goals exact ⟨_, rfl⟩

end Sys2Proof.Machine
end

