-- ==== Sys2Proof/Laws/Memory.lean ====
section
/-! SUPPORT. The laws of memory: a read after a write, and that a write keeps the canonical form. -/

namespace Sys2Proof.Machine

theorem Memory.wfFrom_mono {m : Memory} {lo hi : Nat} (h : lo ≤ hi) (w : Memory.wfFrom hi m = true) :
    Memory.wfFrom lo m = true := by
  cases m with
  | nil => rfl
  | cons c m =>
    obtain ⟨a, b⟩ := c
    simp only [Memory.wfFrom, Bool.and_eq_true, decide_eq_true_eq] at w ⊢
    exact ⟨⟨by omega, w.1.2⟩, w.2⟩

/-- Below the lowest address of a canonical list, every byte is unlisted. -/
theorem Memory.read_below {m : Memory} {lo a : Nat} (w : Memory.wfFrom lo m = true) (h : a < lo) :
    Memory.read m a = unlistedByte := by
  induction m generalizing lo with
  | nil => rfl
  | cons c m ih =>
    obtain ⟨k, b⟩ := c
    simp only [Memory.wfFrom, Bool.and_eq_true, decide_eq_true_eq] at w
    have hk : a ≠ k := by omega
    simp only [Memory.read, if_neg hk]
    exact ih w.2 (by omega)

theorem Memory.write_wfFrom {m : Memory} {lo a : Nat} {b : Byte} (w : Memory.wfFrom lo m = true) (h : lo ≤ a) :
    Memory.wfFrom lo (Memory.write m a b) = true := by
  induction m generalizing lo with
  | nil =>
    by_cases hb : b = unlistedByte <;> simp [Memory.write, Memory.wfFrom, hb, h]
  | cons c m ih =>
    obtain ⟨k, x⟩ := c
    simp only [Memory.wfFrom, Bool.and_eq_true, decide_eq_true_eq, bne_iff_ne] at w
    obtain ⟨⟨hk, hx⟩, hm⟩ := w
    simp only [Memory.write]
    split
    · rename_i hlt
      split
      · simp [Memory.wfFrom, hk, hx, hm]
      · rename_i hb
        simp only [Memory.wfFrom, Bool.and_eq_true, decide_eq_true_eq, bne_iff_ne]
        exact ⟨⟨h, hb⟩, ⟨⟨by omega, hx⟩, hm⟩⟩
    · split
      · rename_i heq
        split
        · exact Memory.wfFrom_mono (by omega) hm
        · rename_i hb
          simp only [Memory.wfFrom, Bool.and_eq_true, decide_eq_true_eq, bne_iff_ne]
          exact ⟨⟨h, hb⟩, heq ▸ hm⟩
      · simp only [Memory.wfFrom, Bool.and_eq_true, decide_eq_true_eq, bne_iff_ne]
        exact ⟨⟨hk, hx⟩, ih hm (by omega)⟩

/-- A write keeps the canonical form. -/
theorem Memory.write_wf {m : Memory} (a : Nat) (b : Byte) (w : m.wf = true) : (Memory.write m a b).wf = true :=
  Memory.write_wfFrom w (Nat.zero_le a)

/-- A read of the written byte gives the value written; the canonical form is needed only where the entry goes. -/
theorem Memory.read_write_same {m : Memory} {lo : Nat} (a : Nat) (b : Byte) (w : Memory.wfFrom lo m = true) :
    Memory.read (Memory.write m a b) a = b := by
  induction m generalizing lo with
  | nil => by_cases hb : b = unlistedByte <;> simp [Memory.write, Memory.read, hb]
  | cons c m ih =>
    obtain ⟨k, x⟩ := c
    simp only [Memory.wfFrom, Bool.and_eq_true, decide_eq_true_eq, bne_iff_ne] at w
    simp only [Memory.write]
    split
    · rename_i hlt
      split
      · rename_i hb
        have : a ≠ k := by omega
        simp only [Memory.read, if_neg this, hb]
        exact Memory.read_below w.2 (by omega)
      · simp [Memory.read]
    · split
      · rename_i heq
        split
        · rename_i hb
          rw [hb]
          exact Memory.read_below w.2 (by omega)
        · simp [Memory.read]
      · rename_i hne
        simp only [Memory.read, if_neg hne]
        exact ih w.2

/-- A read of a written byte that is not the unlisted one, in any list of cells. -/
theorem Memory.read_write_listed {m : Memory} (a : Nat) (b : Byte) (h : b ≠ unlistedByte) :
    Memory.read (Memory.write m a b) a = b := by
  induction m with
  | nil => simp [Memory.write, Memory.read, h]
  | cons c m ih =>
    obtain ⟨k, x⟩ := c
    simp only [Memory.write, if_neg h]
    split
    · simp [Memory.read]
    · split
      · simp [Memory.read]
      · rename_i hne
        simp only [Memory.read, if_neg hne, ih]

/-- A write leaves every other byte alone, in any list of cells. -/
theorem Memory.read_write_other {m : Memory} (a a' : Nat) (b : Byte) (h : a' ≠ a) :
    Memory.read (Memory.write m a b) a' = Memory.read m a' := by
  induction m with
  | nil => by_cases hb : b = unlistedByte <;> simp [Memory.write, Memory.read, hb, h]
  | cons c m ih =>
    obtain ⟨k, x⟩ := c
    simp only [Memory.write]
    split
    · split
      · rfl
      · simp [Memory.read, h]
    · split
      · rename_i heq
        subst heq
        split <;> simp [Memory.read, h]
      · simp only [Memory.read]
        split
        · rfl
        · exact ih

theorem State.byteAt_write_same (s : State) (pa : PhysAddr) (b : Byte) (w : s.mem.wf = true) :
    (s.setMem (s.mem.write pa.toNat b)).byteAt pa = b :=
  Memory.read_write_same _ _ w

theorem State.byteAt_write_other (s : State) (pa qa : PhysAddr) (b : Byte) (h : qa ≠ pa) :
    (s.setMem (s.mem.write pa.toNat b)).byteAt qa = s.byteAt qa :=
  Memory.read_write_other _ _ _ (fun e => h (BitVec.eq_of_toNat_eq e))

/-- Launch memory has the canonical form. -/
theorem State.reset_mem_wf : State.reset.mem.wf = true := rfl

end Sys2Proof.Machine
end

