-- ==== Sys2Proof/Laws/Ends.lean ====
section
/-! SUPPORT. How an operation can end, said once per shared operation. `Ends x Q E`: if `x` completes its answer meets `Q`, and
if it raises an exception the state left meets `E`. The lemma of an operation is cited in place of unfolding it. -/

namespace Sys2Proof.Machine

/-- What holds however a part of an operation ends. -/
def Ends {α : Type} (x : Except Stop α) (Q : α → Prop) (E : State → Prop) : Prop :=
  match x with
  | .ok a => Q a
  | .error (.fault f) => E f.left
  | .error (.refused _) => True

variable {α β : Type} {Q Q' : α → Prop} {R : β → Prop} {E : State → Prop}

theorem Ends.ok {a : α} (h : Q a) : Ends (.ok a) Q E := h

theorem Ends.refuse {r : Refusal} : Ends (α := α) (Machine.refuse r) Q E := trivial

/-- A bind ends as its parts do. -/
theorem Ends.bind {x : Except Stop α} {f : α → Except Stop β} (hx : Ends x Q E) (hf : ∀ a, Q a → Ends (f a) R E) :
    Ends (x >>= f) R E := by
  match x, hx with
  | .ok a, hx => exact hf a hx
  | .error (.fault _), hx => exact hx
  | .error (.refused _), _ => exact trivial

theorem Ends.mono {x : Except Stop α} {E' : State → Prop} (hx : Ends x Q E) (hq : ∀ a, Q a → Q' a) (he : ∀ s, E s → E' s) :
    Ends x Q' E' := by
  match x, hx with
  | .ok a, hx => exact hq a hx
  | .error (.fault f), hx => exact he _ hx
  | .error (.refused _), _ => exact trivial

theorem Ends.of_ok {x : Except Stop α} {a : α} (hx : Ends x Q E) (h : x = .ok a) : Q a := by subst h; exact hx

@[simp] theorem segFault_left (r : SReg) (s : State) : (segFault r s).left = s := by
  unfold segFault; split <;> rfl

@[simp] theorem stackNotPresent_left (e : StackNotPresent) (code : BitVec 16) (s : State) :
    (stackNotPresent e code s).left = s := by
  cases e <;> rfl

/-- A raise leaves what the context kept. -/
theorem Ends.raise {f : State → Fault} {c : Ctx} (hl : (f c.kept).left = c.kept) (h : E c.kept) :
    Ends (α := α) (Machine.raise f c) Q E := by
  show E (f c.kept).left
  rw [hl]; exact h

/-- How a whole operation ends. -/
theorem runOp_cases {f : Ctx → Except Stop (Result × Ctx)} {s : State} {P : State → Prop}
    (h : Ends (f (Ctx.start s)) (fun rc => ∀ r, P (rc.2.cur.finish r)) E) :
    (∀ t, runOp f s = .next t → P t) ∧ (∀ x, runOp f s = .fault x → E x.left) := by
  unfold runOp
  match hf : f (Ctx.start s), h with
  | .ok (r, c), h => exact ⟨fun t ht => (by cases ht; exact h r), fun x hx => nomatch hx⟩
  | .error (.fault y), h => exact ⟨fun t ht => (nomatch ht), fun x hx => (by cases hx; exact h)⟩
  | .error (.refused _), _ => exact ⟨fun t ht => (nomatch ht), fun x hx => nomatch hx⟩

/-- The same for an operation that returns nothing. -/
theorem runQuiet_cases {f : Ctx → Except Stop Ctx} {s : State} {P : State → Prop}
    (h : Ends (f (Ctx.start s)) (fun c => ∀ r, P (c.cur.finish r)) E) :
    (∀ t, runQuiet f s = .next t → P t) ∧ (∀ x, runQuiet f s = .fault x → E x.left) :=
  runOp_cases (Ends.bind h fun _ hc => Ends.ok hc)

end Sys2Proof.Machine
end

