-- ==== Sys2Proof/Laws/Paging.lean ====
section
/-! SUPPORT. What a translation, a linear access and a physical access can do to the state: `Grown` (A and D bits, TLB
records, draws) and `Quiet` (memory, I/O output, ESP, the annex's registers besides). -/

namespace Sys2Proof.Machine

/-- The changes a translation makes: those an exception may leave; canonical memory stays so. -/
structure Grown (s t : State) : Prop where
  same : SameButFlags s t
  wf : s.mem.wf = true → t.mem.wf = true

/-- The changes of a linear access, of the stack pointer and of the annex's registers: no segment, table, control or privilege
register moves; canonical memory stays so. -/
structure Quiet (s t : State) : Prop where
  rest : t = { s with
    mem := t.mem, tlb := t.tlb, draws := t.draws, ioOut := t.ioOut, esp := t.esp, gpr := t.gpr }
  wf : s.mem.wf = true → t.mem.wf = true

theorem flagsOnly.trans {a b c : Byte} (h : flagsOnly a b) (g : flagsOnly b c) : flagsOnly a c := by
  rcases h with rfl | rfl | rfl | rfl <;> rcases g with rfl | rfl | rfl | rfl <;>
    simp [flagsOnly, BitVec.or_assoc]

theorem SameButFlags.refl (s : State) : SameButFlags s s := ⟨rfl, fun _ => .inl rfl, fun _ h => h⟩

theorem SameButFlags.trans {s t u : State} (h : SameButFlags s t) (g : SameButFlags t u) : SameButFlags s u := by
  refine ⟨?_, fun a => (h.bytes a).trans (g.bytes a), fun r hr => g.records r (h.records r hr)⟩
  have e1 := h.rest
  have e2 := g.rest
  rw [e2, e1]

theorem Grown.refl (s : State) : Grown s s := ⟨.refl s, id⟩

theorem Grown.trans {s t u : State} (h : Grown s t) (g : Grown t u) : Grown s u :=
  ⟨h.same.trans g.same, fun w => g.wf (h.wf w)⟩

theorem Quiet.refl (s : State) : Quiet s s := ⟨rfl, id⟩

theorem Quiet.trans {s t u : State} (h : Quiet s t) (g : Quiet t u) : Quiet s u := by
  refine ⟨?_, fun w => g.wf (h.wf w)⟩
  have e1 := h.rest
  have e2 := g.rest
  rw [e2, e1]

theorem Grown.quiet {s t : State} (h : Grown s t) : Quiet s t := by
  refine ⟨?_, h.wf⟩
  have e := h.same.rest
  rw [e]

theorem Grown.tick (s : State) : Grown s s.tick := ⟨⟨rfl, fun _ => .inl rfl, fun _ h => h⟩, id⟩

theorem Quiet.setEsp (s : State) (v : Dword) : Quiet s (s.setEsp v) := ⟨rfl, id⟩

theorem Quiet.setGpr (s : State) (g : Gpr) : Quiet s (s.setGpr g) := ⟨rfl, id⟩

theorem Quiet.setIoOut (s : State) (l : List (Nat × Byte)) : Quiet s (s.setIoOut l) := ⟨rfl, id⟩

theorem Quiet.setReg (s : State) (r : BitVec 3) (v : Dword) : Quiet s (s.setReg r v) := by
  rcases s.setReg_cases r v with h | ⟨g, h⟩ <;> rw [h]
  · exact .setEsp s v
  · exact .setGpr s g

theorem Quiet.setRegLow (s : State) (r : BitVec 3) (n : Nat) (v : Dword) : Quiet s (s.setRegLow r n v) := by
  obtain ⟨w, h⟩ := s.setRegLow_cases r n v
  rw [h]; exact .setReg s r w

theorem Quiet.write (s : State) (a : Nat) (b : Byte) : Quiet s (s.setMem (s.mem.write a b)) :=
  ⟨rfl, fun w => Memory.write_wf a b w⟩

theorem Quiet.withStackPointer (s : State) (sp : Dword) : Quiet s (s.withStackPointer sp) := .setEsp s _

/-- What no quiet change moves. -/
theorem Quiet.fields {s t : State} (h : Quiet s t) :
    t.segs = s.segs ∧ t.gdtr = s.gdtr ∧ t.ldtr = s.ldtr ∧ t.pg = s.pg ∧ t.cr3 = s.cr3 ∧ t.cr4 = s.cr4 ∧ t.cpl = s.cpl ∧
      t.platform = s.platform ∧ t.pfx = s.pfx ∧ t.result = s.result ∧ t.queue = s.queue := by
  have e := h.rest
  rw [e]
  exact ⟨rfl, rfl, rfl, rfl, rfl, rfl, rfl, rfl, rfl, rfl, rfl⟩

theorem or_eq_zero {x m : Byte} (h : x ||| m = 0) : x = 0 := (BitVec.or_eq_zero_iff.mp h).1

/-- All a write to an entry's flags can do: the byte at its first address, or none. -/
theorem State.orFlags_eq (s : State) (pa : PhysAddr) (mask : Byte) :
    s.orFlags pa mask = s.setMem (s.orFlags pa mask).mem ∧
      (∀ a : Nat, a ≠ pa.toNat → (s.orFlags pa mask).mem.read a = s.mem.read a) ∧
      (s.orFlags pa mask).mem.read pa.toNat = (if s.kindAt pa = .readWrite then s.byteAt pa ||| mask else s.byteAt pa) := by
  unfold State.orFlags
  split
  · rename_i h
    refine ⟨rfl, fun a ha => Memory.read_write_other _ _ _ ha, ?_⟩
    rw [if_pos h.1]
    refine Memory.read_write_listed _ _ fun e => h.2 ?_
    exact e.trans (or_eq_zero e).symm
  · rename_i h
    refine ⟨rfl, fun _ _ => rfl, ?_⟩
    split
    · rename_i k
      exact (not_not.mp fun e => h ⟨k, e⟩).symm
    · rfl

theorem State.orFlags_wf (s : State) (pa : PhysAddr) (mask : Byte) (w : s.mem.wf = true) : (s.orFlags pa mask).mem.wf = true := by
  unfold State.orFlags
  split
  · exact Memory.write_wf _ _ w
  · exact w

/-- A part of the A and D bits. -/
theorem flagMask_part (x m : Byte) (d : Bool) : flagsOnly x (x ||| (flagMask d &&& m)) := by
  have h : ∀ m : Byte, ∀ d : Bool, flagMask d &&& m = 0 ∨ flagMask d &&& m = 0x20 ∨ flagMask d &&& m = 0x40 ∨
    flagMask d &&& m = 0x60 := by decide +kernel
  rcases h m d with h | h | h | h <;> rw [h] <;> simp [flagsOnly]

/-- Setting A and D bits of an entry. -/
theorem Grown.orFlags {s : State} (pa : PhysAddr) {mask : Byte} (h : ∀ x : Byte, flagsOnly x (x ||| mask)) :
    Grown s (s.orFlags pa mask) := by
  obtain ⟨e, ho, hs⟩ := s.orFlags_eq pa mask
  refine ⟨⟨?_, fun a => ?_, ?_⟩, s.orFlags_wf pa mask⟩
  · rw [e]; rfl
  · by_cases ha : a = pa.toNat
    · subst ha
      rw [hs]
      split
      · exact h _
      · exact .inl rfl
    · exact .inl (ho a ha)
  · rw [e]; exact fun _ h => h

/-- The contexts of a translation: what is built so far and what is kept both grow. -/
abbrev Ctx.Grown (c d : Ctx) : Prop := Machine.Grown c.cur d.cur ∧ Machine.Grown c.kept d.kept

theorem Ctx.Grown.refl (c : Ctx) : c.Grown c := ⟨.refl _, .refl _⟩

theorem Ctx.Grown.trans {c d e : Ctx} (h : c.Grown d) (g : d.Grown e) : c.Grown e := ⟨h.1.trans g.1, h.2.trans g.2⟩

theorem tick_grown (c : Ctx) : c.Grown c.tick := ⟨.tick _, .tick _⟩

theorem setFlags_grown (pa : PhysAddr) (d : Bool) (c : Ctx) : c.Grown (setFlags pa d c) := by
  unfold setFlags
  split
  · exact .refl c
  · refine ⟨(Grown.orFlags _ fun x => ?_).trans (.tick _), (Grown.orFlags _ fun x => flagMask_part x _ d).trans (.tick _)⟩
    have h := flagMask_part x 0xFF d
    have e : flagMask d &&& 0xFF = flagMask d := by cases d <;> rfl
    rwa [e] at h

/-- All setting flags does to the state built so far: the entry's first byte, and the count of draws. -/
theorem setFlags_cur (pa : PhysAddr) (d : Bool) (c : Ctx) :
    (setFlags pa d c).cur = { c.cur with mem := (setFlags pa d c).cur.mem, draws := (setFlags pa d c).cur.draws } ∧
      (∀ a : Nat, a ≠ pa.toNat → (setFlags pa d c).cur.mem.read a = c.cur.mem.read a) ∧
      (setFlags pa d c).cur.byteAt pa = c.cur.marked pa (flagMask d) := by
  unfold setFlags
  split
  · rename_i h
    refine ⟨rfl, fun _ _ => rfl, ?_⟩
    unfold State.marked
    rw [h]
    split <;> rfl
  · obtain ⟨e, ho, hs⟩ := c.cur.orFlags_eq pa (flagMask d)
    rw [show ∀ k : State, (Ctx.tick { cur := c.cur.orFlags pa (flagMask d), kept := k }).cur = (c.cur.orFlags pa (flagMask d)).tick
      from fun _ => rfl]
    refine ⟨?_, ho, hs⟩
    rw [e]
    rfl

/-- All filling does to an empty TLB: it stays empty, or holds the record. -/
theorem tlbFill_cur (r : TlbRecord) (c : Ctx) (h : c.cur.tlb = []) :
    (tlbFill r c).cur = { c.cur with tlb := (tlbFill r c).cur.tlb, draws := (tlbFill r c).cur.draws } ∧
      ((tlbFill r c).cur.tlb = [] ∨ (tlbFill r c).cur.tlb = [r]) := by
  have k : (c.addRecord r).cur.tlb = [r] := by
    show addRecord r c.cur.tlb = [r]
    rw [h]
    rfl
  unfold tlbFill
  split
  · exact ⟨rfl, .inl h⟩
  · exact ⟨rfl, .inr k⟩
  · split
    · exact ⟨rfl, .inr k⟩
    · exact ⟨rfl, .inl h⟩

theorem addRecord_grown (s : State) (r : TlbRecord) : Grown s (s.setTlb (addRecord r s.tlb)) := by
  refine ⟨⟨rfl, fun _ => .inl rfl, fun q hq => ?_⟩, id⟩
  show q ∈ addRecord r s.tlb
  unfold addRecord
  split
  · exact hq
  · exact List.mem_cons_of_mem _ hq

theorem tlbFill_grown (r : TlbRecord) (c : Ctx) : c.Grown (tlbFill r c) := by
  unfold tlbFill
  have h : c.Grown (c.addRecord r) := ⟨addRecord_grown _ _, addRecord_grown _ _⟩
  split
  · exact .refl c
  · exact h
  · split
    · exact h.trans (tick_grown _)
    · exact tick_grown c

theorem tlbPick_grown (lin : Linear) (c : Ctx) : c.Grown (tlbPick lin c).2 := by
  unfold tlbPick
  simp only
  split
  · exact .refl c
  · split
    · exact .refl c
    · exact .refl c
    · split <;> exact tick_grown c

/-- An entry read changes nothing and raises nothing. -/
theorem tableByte_ends {Q : Byte → Prop} {E : State → Prop} (pa : PhysAddr) (c : Ctx) (h : ∀ b, Q b) :
    Ends (tableByte pa c) Q E := by
  unfold tableByte
  split
  · exact h _
  · exact h _
  · exact Ends.refuse
  · exact Ends.refuse

theorem readEntry_ends {Q : Dword → Prop} {E : State → Prop} (pa : PhysAddr) (c : Ctx) (h : ∀ e, Q e) :
    Ends (readEntry pa c) Q E := by
  unfold readEntry
  exact (tableByte_ends (Q := fun _ => True) _ _ fun _ => trivial).bind fun _ _ =>
    (tableByte_ends (Q := fun _ => True) _ _ fun _ => trivial).bind fun _ _ =>
    (tableByte_ends (Q := fun _ => True) _ _ fun _ => trivial).bind fun _ _ =>
    (tableByte_ends (Q := fun _ => True) _ _ fun _ => trivial).bind fun _ _ => Ends.ok (h _)

section Base
variable {k : State} {c : Ctx}

theorem walkBig_ends (lin : Linear) (kind : PageAccess) (lvl : Level) (pde : Dword) (hk : Grown k c.kept) :
    Ends (walkBig lin kind lvl pde c) (fun r => Grown c.cur r.2.cur ∧ Grown k r.2.kept) (Grown k) := by
  unfold walkBig
  split
  · exact Ends.refuse
  · split
    · exact Ends.raise rfl hk
    · have h := fun r => (setFlags_grown (c.cur.pdeAddr lin) (kind == .write) c).trans (tlbFill_grown r _)
      exact Ends.ok ⟨(h _).1, hk.trans (h _).2⟩

theorem walkSmall_ends (lin : Linear) (kind : PageAccess) (lvl : Level) (pde : Dword) (hk : Grown k c.kept) :
    Ends (walkSmall lin kind lvl pde c) (fun r => Grown c.cur r.2.cur ∧ Grown k r.2.kept) (Grown k) := by
  unfold walkSmall
  split
  · exact Ends.refuse
  · refine (readEntry_ends (Q := fun _ => True) _ _ fun _ => trivial).bind fun pte _ => ?_
    split
    · exact Ends.raise rfl hk
    · split
      · exact Ends.refuse
      · simp only
        split
        · exact Ends.raise rfl hk
        · have h := fun r => ((setFlags_grown (c.cur.pdeAddr lin) false c).trans (setFlags_grown (pteAddr pde lin) (kind == .write) _)).trans
            (tlbFill_grown r _)
          exact Ends.ok ⟨(h _).1, hk.trans (h _).2⟩

theorem walk_ends (lin : Linear) (kind : PageAccess) (lvl : Level) (hk : Grown k c.kept) :
    Ends (walk lin kind lvl c) (fun r => Grown c.cur r.2.cur ∧ Grown k r.2.kept) (Grown k) := by
  unfold walk
  refine (readEntry_ends (Q := fun _ => True) _ _ fun _ => trivial).bind fun pde _ => ?_
  split
  · exact Ends.raise rfl hk
  · split
    · exact walkBig_ends lin kind lvl pde hk
    · exact walkSmall_ends lin kind lvl pde hk

/-- All a translation can do. -/
theorem translate_ends (lin : Linear) (kind : PageAccess) (lvl : Level) (hk : Grown k c.kept) :
    Ends (translate lin kind lvl c) (fun r => Grown c.cur r.2.cur ∧ Grown k r.2.kept) (Grown k) := by
  unfold translate
  split
  · exact Ends.ok ⟨.refl _, hk⟩
  · split
    · exact Ends.refuse
    · have hp := tlbPick_grown lin c
      split <;> rename_i heq <;> rw [heq] at hp
      · split
        · exact Ends.raise rfl (hk.trans hp.2)
        · split
          · exact Ends.ok ⟨hp.1, hk.trans hp.2⟩
          · exact (walk_ends lin kind lvl (hk.trans hp.2)).mono (fun _ h => ⟨hp.1.trans h.1, h.2⟩) fun _ h => h
      · exact (walk_ends lin kind lvl (hk.trans hp.2)).mono (fun _ h => ⟨hp.1.trans h.1, h.2⟩) fun _ h => h

theorem nextXlat_ends (kind : PageAccess) (lvl : Level) (la : Linear) (prev : Option (Linear × Xlat)) (hk : Grown k c.kept) :
    Ends (nextXlat kind lvl la prev c) (fun r => Grown c.cur r.2.cur ∧ Grown k r.2.kept) (Grown k) := by
  unfold nextXlat
  split
  · split
    · exact Ends.ok ⟨.refl _, hk⟩
    · exact translate_ends la kind lvl hk
  · exact translate_ends la kind lvl hk

theorem translateBytes_ends (kind : PageAccess) (lvl : Level) (n : Nat) (la : Linear) (prev : Option (Linear × Xlat))
    (hk : Grown k c.kept) :
    Ends (translateBytes kind lvl n la prev c) (fun r => Grown c.cur r.2.cur ∧ Grown k r.2.kept) (Grown k) := by
  induction n generalizing la prev c with
  | zero => exact Ends.ok ⟨.refl _, hk⟩
  | succ n ih =>
    unfold translateBytes
    refine (nextXlat_ends kind lvl la prev hk).bind fun x hx => ?_
    refine (ih (la + 1) (some (la, x.1)) hx.2).bind fun y hy => ?_
    exact Ends.ok ⟨hx.1.trans hy.1, hy.2⟩

theorem physReadByte_ends (pa : PhysAddr) (hk : Grown k c.kept) :
    Ends (physReadByte pa c) (fun r => Grown c.cur r.2.cur ∧ Grown k r.2.kept) (Grown k) := by
  unfold physReadByte
  split
  · exact Ends.ok ⟨.refl _, hk⟩
  · exact Ends.ok ⟨.refl _, hk⟩
  · exact Ends.ok ⟨.tick _, hk.trans (.tick _)⟩
  · exact Ends.refuse

/-- All the reads of a linear read can do. -/
theorem linReadFrom_ends (lvl : Level) (n : Nat) (la : Linear) (prev : Option (Linear × Xlat)) (hk : Grown k c.kept) :
    Ends (linReadFrom lvl n la prev c) (fun r => Grown c.cur r.2.cur ∧ Grown k r.2.kept) (Grown k) := by
  induction n generalizing la prev c with
  | zero => exact Ends.ok ⟨.refl _, hk⟩
  | succ n ih =>
    unfold linReadFrom
    refine (nextXlat_ends .read lvl la prev hk).bind fun x hx => ?_
    refine (physReadByte_ends x.1.pa hx.2).bind fun b hb => ?_
    refine (ih (la + 1) (some (la, x.1)) hb.2).bind fun y hy => ?_
    exact Ends.ok ⟨hx.1.trans (hb.1.trans hy.1), hy.2⟩

theorem physWriteByte_ends (pa : PhysAddr) (b : Byte) (hk : Grown k c.kept) :
    Ends (physWriteByte pa b c) (fun d => Quiet c.cur d.cur ∧ Grown k d.kept) (Grown k) := by
  unfold physWriteByte
  split
  · exact Ends.ok ⟨.write _ _ _, hk⟩
  · exact Ends.ok ⟨.refl _, hk⟩
  · exact Ends.ok ⟨.setIoOut _ _, hk⟩
  · exact Ends.refuse

theorem physWriteBytes_ends (pas : List PhysAddr) (bs : List Byte) (hk : Grown k c.kept) :
    Ends (physWriteBytes pas bs c) (fun d => Quiet c.cur d.cur ∧ Grown k d.kept) (Grown k) := by
  induction pas generalizing c bs with
  | nil => exact Ends.ok ⟨.refl _, hk⟩
  | cons pa pas ih =>
    cases bs with
    | nil => exact Ends.ok ⟨.refl _, hk⟩
    | cons b bs =>
      unfold physWriteBytes
      refine (physWriteByte_ends pa b hk).bind fun d hd => ?_
      exact (ih bs hd.2).mono (fun _ h => ⟨hd.1.trans h.1, h.2⟩) fun _ h => h

/-- All a linear read can do. -/
theorem linRead_ends (la : Linear) (n : Nat) (lvl : Level) (hk : Grown k c.kept) :
    Ends (linRead la n lvl c) (fun r => Grown c.cur r.2.cur ∧ Grown k r.2.kept) (Grown k) := linReadFrom_ends lvl n la none hk

/-- All a linear write can do. -/
theorem linWrite_ends (la : Linear) (bs : List Byte) (lvl : Level) (hk : Grown k c.kept) :
    Ends (linWrite la bs lvl c) (fun d => Quiet c.cur d.cur ∧ Grown k d.kept) (Grown k) := by
  unfold linWrite
  refine (translateBytes_ends .write lvl bs.length la none hk).bind fun x hx => ?_
  exact (physWriteBytes_ends x.1 bs hx.2).mono (fun _ h => ⟨hx.1.quiet.trans h.1, h.2⟩) fun _ h => h

end Base

end Sys2Proof.Machine
end

