-- ==== Sys2Proof/Laws/Segmentation.lean ====
section
/-! SUPPORT. What the logical accesses, the descriptor fetch, the loads of segment and table registers and the stack
operations can do, each said once. -/

namespace Sys2Proof.Machine

/-- What a load leaves in a segment register: the conditions of R331 that speak of it. -/
def loadGood (r : SReg) (cpl : BitVec 2) (v : SegReg) : Prop :=
  match r with
  | .cs => cpl = selRPL v.sel ∧ v.h.valid = true ∧ v.h.p = true ∧ v.h.s = true ∧ isCode v.h.typ = true
  | .ss => v.h.valid = true ∧ v.h.p = true ∧ v.h.s = true ∧ isWritableData v.h.typ = true
  | .ds | .es | .fs | .gs =>
    v.h.valid = false ∨ (isNull v.sel = false ∧ v.h.valid = true ∧ v.h.p = true ∧ v.h.s = true)

/-- The changes of a load of segment register `r`: that register, and what a quiet change may move. -/
structure Moved (r : SReg) (s t : State) : Prop where
  rest : t = { s with
    segs := s.segs.set r (t.seg r), mem := t.mem, tlb := t.tlb, draws := t.draws, ioOut := t.ioOut, esp := t.esp, gpr := t.gpr }
  wf : s.mem.wf = true → t.mem.wf = true
  good : loadGood r s.cpl (t.seg r)

/-- What a load of `r` does not move. -/
theorem Moved.fields {r : SReg} {s t : State} (h : Moved r s t) :
    t.gdtr = s.gdtr ∧ t.ldtr = s.ldtr ∧ t.pg = s.pg ∧ t.cr3 = s.cr3 ∧ t.cr4 = s.cr4 ∧ t.cpl = s.cpl ∧
      t.platform = s.platform ∧ t.pfx = s.pfx ∧ t.result = s.result ∧ t.queue = s.queue := by
  have e := h.rest
  rw [e]
  exact ⟨rfl, rfl, rfl, rfl, rfl, rfl, rfl, rfl, rfl, rfl⟩

theorem Moved.segs {r : SReg} {s t : State} (h : Moved r s t) : t.segs = s.segs.set r (t.seg r) := congrArg State.segs h.rest

theorem Quiet.trans_moved {r : SReg} {s t u : State} (h : Quiet s t) (g : Moved r t u) : Moved r s u := by
  have f := h.fields
  refine ⟨?_, fun w => g.wf (h.wf w), f.2.2.2.2.2.2.1 ▸ g.good⟩
  have e1 := h.rest
  have e2 := g.rest
  rw [e2, e1]
  simp [State.seg]

theorem Moved.trans_quiet {r : SReg} {s t u : State} (h : Moved r s t) (g : Quiet t u) : Moved r s u := by
  have hs : u.segs = t.segs := g.fields.1
  have hr : u.seg r = t.seg r := by simp only [State.seg, hs]
  refine ⟨?_, fun w => g.wf (h.wf w), hr ▸ h.good⟩
  have e1 := h.rest
  have e2 := g.rest
  rw [hr, e2]
  simp only
  conv_lhs => rw [e1]

section Base
variable {k : State} {c : Ctx}

theorem logicalToLinear_ends (r : SReg) (off : Dword) (n : Nat) (kind : SegAccess) (hk : Grown k c.kept) :
    Ends (logicalToLinear r off n kind c) (fun lin => lin = (c.cur.seg r).h.base + off ∧ segCheck r (c.cur.seg r).h off n kind = true)
      (Grown k) := by
  unfold logicalToLinear
  split
  · rename_i h; exact Ends.ok ⟨rfl, h⟩
  · exact Ends.raise (by simp) hk

/-- All a logical read can do. -/
theorem memRead_ends (r : SReg) (off : Dword) (n : Nat) (hk : Grown k c.kept) :
    Ends (memRead r off n c) (fun x => Grown c.cur x.2.cur ∧ Grown k x.2.kept) (Grown k) := by
  unfold memRead
  exact (logicalToLinear_ends r off n .read hk).bind fun _ _ => linRead_ends _ _ _ hk

/-- All a logical write can do. -/
theorem memWrite_ends (r : SReg) (off : Dword) (bs : List Byte) (hk : Grown k c.kept) :
    Ends (memWrite r off bs c) (fun d => Quiet c.cur d.cur ∧ Grown k d.kept) (Grown k) := by
  unfold memWrite
  exact (logicalToLinear_ends r off bs.length .write hk).bind fun _ _ => linWrite_ends _ _ _ hk

/-- All a descriptor fetch can do. -/
theorem fetchDescriptor_ends (sel : Selector) (hk : Grown k c.kept) :
    Ends (fetchDescriptor sel c) (fun x => Grown c.cur x.2.cur ∧ Grown k x.2.kept) (Grown k) := by
  unfold fetchDescriptor
  split
  · exact Ends.raise rfl hk
  · refine (linRead_ends _ 4 .supervisor hk).bind fun x hx => ?_
    refine (linRead_ends _ 4 .supervisor hx.2).bind fun ⟨hi, c2⟩ hy => ?_
    simp only at hy ⊢
    split
    · exact Ends.refuse
    · exact Ends.ok ⟨hx.1.trans hy.1, hy.2⟩

/-- All the write of the accessed bit can do. -/
theorem setAccessed_ends (sel : Selector) (d : Descriptor) (hk : Grown k c.kept) :
    Ends (setAccessed sel d c) (fun d => Quiet c.cur d.cur ∧ Grown k d.kept) (Grown k) := by
  unfold setAccessed
  split
  · exact Ends.ok ⟨.refl _, hk⟩
  · refine (linRead_ends _ 1 .supervisor hk).bind fun x hx => ?_
    exact (linWrite_ends _ _ .supervisor hx.2).mono (fun _ h => ⟨hx.1.quiet.trans h.1, h.2⟩) fun _ h => h

/-- Setting the accessed bit of a type keeps what it is. -/
theorem isCode_accessed (t : BitVec 4) : isCode (t ||| 1) = isCode t := by revert t; decide

theorem isWritableData_accessed (t : BitVec 4) : isWritableData (t ||| 1) = isWritableData t := by revert t; decide

theorem selRPL_codeSelector (cpl : BitVec 2) (sel : Selector) : selRPL (codeSelector cpl sel) = cpl := by
  unfold selRPL codeSelector
  exact BitVec.extractLsb'_append_eq_right

/-- A load that ends in `loadSeg`: the register holds `sel` and the descriptor, and the rest is quiet. -/
theorem moved_of_loadSeg {r : SReg} {s : State} {c : Ctx} {sel : Selector} {d : Descriptor} (h : Quiet s c.cur)
    (g : loadGood r s.cpl { sel := sel, h := d.loaded }) : Moved r s (c.loadSeg r sel d).cur := by
  refine Quiet.trans_moved h ⟨?_, id, ?_⟩
  · simp
    rfl
  · rw [h.fields.2.2.2.2.2.2.1]; simpa using g

/-- All LDSEG can do. -/
theorem ldseg_ends (r : SReg) (sel : Selector) (hr : r.isData = true) (hk : Grown k c.kept) :
    Ends (ldseg r sel c) (fun d => Moved r c.cur d.cur ∧ Grown k d.kept) (Grown k) := by
  unfold ldseg
  split
  · refine Ends.ok ⟨⟨?_, id, ?_⟩, hk⟩
    · simp; rfl
    · cases r <;> first | exact absurd hr (by decide) | exact .inl (by simp)
  · rename_i hn
    refine (fetchDescriptor_ends sel hk).bind fun ⟨e, c1⟩ hx => ?_
    simp only at hx ⊢
    split
    · exact Ends.raise rfl hx.2
    · split
      · exact Ends.raise rfl hx.2
      · rename_i ho hp
        refine (setAccessed_ends sel e hx.2).bind fun d hd => ?_
        refine Ends.ok ⟨moved_of_loadSeg (hx.1.quiet.trans hd.1) ?_, hd.2⟩
        have hs : e.s = true := by
          simp only [dataLoadOk, Bool.not_eq_true', Bool.not_eq_false, Bool.and_eq_true] at ho; exact ho.1.1
        cases r <;> first | exact absurd hr (by decide) | exact .inr ⟨by simpa using hn, rfl, rfl, hs⟩

/-- All LDSS can do. -/
theorem ldss_ends (sel : Selector) (hk : Grown k c.kept) :
    Ends (ldss sel c) (fun d => Moved .ss c.cur d.cur ∧ Grown k d.kept) (Grown k) := by
  unfold ldss
  split
  · exact Ends.raise rfl hk
  · refine (fetchDescriptor_ends sel hk).bind fun ⟨e, c1⟩ hx => ?_
    simp only at hx ⊢
    split
    · exact Ends.raise rfl hx.2
    · split
      · exact Ends.raise (by simp) hx.2
      · rename_i ho hp
        refine (setAccessed_ends sel e hx.2).bind fun d hd => ?_
        refine Ends.ok ⟨moved_of_loadSeg (hx.1.quiet.trans hd.1) ?_, hd.2⟩
        simp only [stackLoadOk, Bool.not_eq_true', Bool.not_eq_false, Bool.and_eq_true] at ho
        exact ⟨rfl, rfl, ho.1.1.2, (isWritableData_accessed _).trans ho.1.2⟩

/-- All LDCS can do. -/
theorem ldcs_ends (sel : Selector) (hk : Grown k c.kept) :
    Ends (ldcs sel c) (fun d => Moved .cs c.cur d.cur ∧ Grown k d.kept) (Grown k) := by
  unfold ldcs
  split
  · exact Ends.raise rfl hk
  · refine (fetchDescriptor_ends sel hk).bind fun ⟨e, c1⟩ hx => ?_
    simp only at hx ⊢
    split
    · exact Ends.refuse
    · split
      · exact Ends.raise rfl hx.2
      · split
        · exact Ends.raise rfl hx.2
        · rename_i hs ho hp
          refine (setAccessed_ends sel e hx.2).bind fun d hd => ?_
          have q := hx.1.quiet.trans hd.1
          refine Ends.ok ⟨moved_of_loadSeg q ?_, hd.2⟩
          simp only [codeLoadOk, Bool.not_eq_true', Bool.not_eq_false, Bool.and_eq_true] at ho
          refine ⟨?_, rfl, rfl, (by simpa using hs : e.s = true), (isCode_accessed _).trans ho.1⟩
          rw [selRPL_codeSelector, q.fields.2.2.2.2.2.2.1]

/-- A privilege check passes at level 0 alone, and changes nothing. -/
theorem requireLevel0_ends (hk : Grown k c.kept) : Ends (requireLevel0 c) (fun _ => c.cur.cpl = 0#2) (Grown k) := by
  unfold requireLevel0
  split
  · exact Ends.raise rfl hk
  · rename_i h; exact Ends.ok (by simpa using h)

/-- All LGDTR can do. -/
theorem lgdtr_ends (base : Linear) (limit : BitVec 16) (hk : Grown k c.kept) :
    Ends (lgdtr base limit c)
      (fun d => c.cur.cpl = 0#2 ∧ d.cur = { c.cur with gdtr := { base := base, limit := limit } } ∧ Grown k d.kept) (Grown k) := by
  unfold lgdtr
  exact (requireLevel0_ends hk).bind fun _ h => Ends.ok ⟨h, rfl, hk⟩

/-- What LLDTR may change: LDTR, and what a translation changes. -/
structure Retabled (s t : State) : Prop where
  grown : Grown s { t with ldtr := s.ldtr }
  good : ldtrIsLdt t

/-- All LLDTR can do after its privilege check. -/
theorem loadLdtr_ends (sel : Selector) (hk : Grown k c.kept) :
    Ends (loadLdtr sel c) (fun d => Retabled c.cur d.cur ∧ Grown k d.kept) (Grown k) := by
  unfold loadLdtr
  split
  · exact Ends.ok ⟨⟨.refl _, fun h => nomatch h⟩, hk⟩
  · split
    · exact Ends.raise rfl hk
    · refine (fetchDescriptor_ends sel hk).bind fun ⟨e, c1⟩ hx => ?_
      simp only at hx ⊢
      split
      · exact Ends.raise rfl hx.2
      · split
        · exact Ends.raise rfl hx.2
        · refine Ends.ok ⟨⟨?_, fun _ => ⟨rfl, rfl, rfl⟩⟩, hx.2⟩
          have he : { ({ c1.cur with ldtr := { sel := sel, h := e.cachedLdt } } : State) with ldtr := c.cur.ldtr } = c1.cur := by
            have := hx.1.quiet.fields.2.2.1
            rw [← this]
          exact he.symm ▸ hx.1

/-- All LLDTR can do. -/
theorem lldtr_ends (sel : Selector) (hk : Grown k c.kept) :
    Ends (lldtr sel c) (fun d => c.cur.cpl = 0#2 ∧ Retabled c.cur d.cur ∧ Grown k d.kept) (Grown k) := by
  unfold lldtr
  exact (requireLevel0_ends hk).bind fun _ h => (loadLdtr_ends sel hk).mono (fun _ g => ⟨h, g⟩) fun _ g => g

/-- All a push can do. -/
theorem spush_ends (bs : List Byte) (hk : Grown k c.kept) :
    Ends (spush bs c) (fun d => Quiet c.cur d.cur ∧ Grown k d.kept) (Grown k) := by
  unfold spush
  refine (memWrite_ends .ss _ bs hk).bind fun d hd => ?_
  exact Ends.ok ⟨hd.1.trans (.withStackPointer _ _), hd.2⟩

/-- All a pop can do. -/
theorem spop_ends (n : Nat) (hk : Grown k c.kept) :
    Ends (spop n c) (fun x => Quiet c.cur x.2.cur ∧ Grown k x.2.kept) (Grown k) := by
  unfold spop
  refine (memRead_ends .ss _ n hk).bind fun x hx => ?_
  exact Ends.ok ⟨hx.1.quiet.trans (.withStackPointer _ _), hx.2⟩

end Base

end Sys2Proof.Machine
end

