-- ==== Sys2Proof/Laws/Annex.lean ====
section
/-! SUPPORT. What the shared operations of the annex's instructions and of the control registers can do, each said once. -/

namespace Sys2Proof.Machine

section Base
variable {k : State} {c : Ctx}

theorem readMem_ends (m : MemArg) (n : Nat) (hk : Grown k c.kept) :
    Ends (readMem m n c) (fun x => Grown c.cur x.2.cur ∧ Grown k x.2.kept) (Grown k) := memRead_ends _ _ _ hk

theorem writeMem_ends (m : MemArg) (bs : List Byte) (hk : Grown k c.kept) :
    Ends (writeMem m bs c) (fun d => Quiet c.cur d.cur ∧ Grown k d.kept) (Grown k) := memWrite_ends _ _ _ hk

theorem readRM16_ends (rm : RM) (hk : Grown k c.kept) :
    Ends (readRM16 rm c) (fun x => Grown c.cur x.2.cur ∧ Grown k x.2.kept) (Grown k) := by
  unfold readRM16
  split
  · exact Ends.ok ⟨.refl _, hk⟩
  · exact (readMem_ends _ 2 hk).bind fun _ hx => Ends.ok hx

theorem writeRM16_ends (rm : RM) (v : BitVec 16) (hk : Grown k c.kept) :
    Ends (writeRM16 rm v c) (fun d => Quiet c.cur d.cur ∧ Grown k d.kept) (Grown k) := by
  unfold writeRM16
  split
  · exact Ends.ok ⟨.setRegLow _ _ _ _, hk⟩
  · exact writeMem_ends _ _ hk

theorem readFarPointer_ends (m : MemArg) (hk : Grown k c.kept) :
    Ends (readFarPointer m c) (fun x => Grown c.cur x.2.2.cur ∧ Grown k x.2.2.kept) (Grown k) := by
  unfold readFarPointer
  exact (readMem_ends m 6 hk).bind fun _ hx => Ends.ok hx

theorem readTablePointer_ends (m : MemArg) (hk : Grown k c.kept) :
    Ends (readTablePointer m c) (fun x => Grown c.cur x.2.2.cur ∧ Grown k x.2.2.kept) (Grown k) := by
  unfold readTablePointer
  exact (readMem_ends m 6 hk).bind fun _ hx => Ends.ok hx

/-- A load of any segment register but CS. -/
theorem loadSreg_ends (r : SReg) (sel : Selector) (hr : r ≠ .cs) (hk : Grown k c.kept) :
    Ends (loadSreg r sel c) (fun d => Moved r c.cur d.cur ∧ Grown k d.kept) (Grown k) := by
  unfold loadSreg
  split
  · rename_i h; subst h; exact ldss_ends sel hk
  · rename_i h
    exact ldseg_ends r sel (by cases r <;> simp_all [SReg.isData]) hk

theorem popSreg_ends (r : SReg) (hr : r ≠ .cs) (hk : Grown k c.kept) :
    Ends (popSreg r c) (fun d => Moved r c.cur d.cur ∧ Grown k d.kept) (Grown k) := by
  unfold popSreg
  refine (spop_ends _ hk).bind fun x hx => ?_
  exact (loadSreg_ends r _ hr hx.2).mono (fun _ h => ⟨hx.1.trans_moved h.1, h.2⟩) fun _ h => h

theorem loadFar_ends (r : SReg) (dst : BitVec 3) (m : MemArg) (hr : r ≠ .cs) (hk : Grown k c.kept) :
    Ends (loadFar r dst m c) (fun d => Moved r c.cur d.cur ∧ Grown k d.kept) (Grown k) := by
  unfold loadFar
  refine (readFarPointer_ends m hk).bind fun x hx => ?_
  refine (loadSreg_ends r x.2.1 hr hx.2).bind fun d hd => ?_
  exact Ends.ok ⟨(hx.1.quiet.trans_moved hd.1).trans_quiet (.setReg _ _ _), hd.2⟩

theorem farJump_ends (off : Dword) (sel : Selector) (hk : Grown k c.kept) :
    Ends (farJump off sel c) (fun x => Moved .cs c.cur x.2.cur ∧ Grown k x.2.kept) (Grown k) := by
  unfold farJump
  exact (ldcs_ends sel hk).bind fun _ hd => Ends.ok hd

/-- A far call never completes: its CS load raises what LDCS raises, and the rest is refused. -/
theorem farCall_ends (sel : Selector) (hk : Grown k c.kept) : Ends (farCall sel c) (fun _ => False) (Grown k) := by
  unfold farCall
  exact (ldcs_ends sel hk).bind fun _ _ => Ends.refuse

theorem returnLoad_ends (sel : Selector) (hk : Grown k c.kept) :
    Ends (returnLoad sel c) (fun d => Moved .cs c.cur d.cur ∧ Grown k d.kept) (Grown k) := by
  unfold returnLoad
  split
  · exact Ends.refuse
  · exact ldcs_ends sel hk

theorem returnSelector_ends (hk : Grown k c.kept) :
    Ends (returnSelector c) (fun x => Quiet c.cur x.2.cur ∧ Grown k x.2.kept) (Grown k) := by
  unfold returnSelector
  refine (spop_ends _ hk).bind fun x hx => ?_
  refine (spop_ends _ hx.2).bind fun y hy => ?_
  exact Ends.ok ⟨(hx.1.trans hy.1).trans (.setEsp _ _), hy.2⟩

/-- A far return never completes. -/
theorem farReturn_ends (hk : Grown k c.kept) : Ends (farReturn c) (fun _ => False) (Grown k) := by
  unfold farReturn
  refine (returnSelector_ends hk).bind fun x hx => ?_
  exact (returnLoad_ends _ hx.2).bind fun _ _ => Ends.refuse

theorem loadAccumulator_ends (a32 : Bool) (off : Dword) (n : Nat) (hk : Grown k c.kept) :
    Ends (loadAccumulator a32 off n c) (fun d => Quiet c.cur d.cur ∧ Grown k d.kept) (Grown k) := by
  unfold loadAccumulator
  refine (memRead_ends _ _ n hk).bind fun x hx => ?_
  exact Ends.ok ⟨hx.1.quiet.trans (.setRegLow _ _ _ _), hx.2⟩

theorem storeAccumulator_ends (a32 : Bool) (off : Dword) (n : Nat) (hk : Grown k c.kept) :
    Ends (storeAccumulator a32 off n c) (fun d => Quiet c.cur d.cur ∧ Grown k d.kept) (Grown k) := memWrite_ends _ _ _ hk

/-- A read of a control register needs level 0, and draws at most one free value. -/
theorem readCr_ends (j : Nat) (hk : Grown k c.kept) :
    Ends (readCr j c) (fun x => c.cur.cpl = 0#2 ∧ Grown c.cur x.2.cur ∧ Grown k x.2.kept) (Grown k) := by
  unfold readCr
  refine (requireLevel0_ends hk).bind fun _ h => ?_
  split
  · exact Ends.ok ⟨h, .refl _, hk⟩
  · split <;> exact Ends.ok ⟨h, .tick _, hk.trans (.tick _)⟩

/-- A write of a control register needs level 0, and moves the control registers and the TLB alone. -/
theorem writeCr_ends (j : Nat) (v : Dword) (hk : Grown k c.kept) :
    Ends (writeCr j v c)
      (fun d => c.cur.cpl = 0#2 ∧ d.cur = { c.cur with pg := d.cur.pg, cr3 := d.cur.cr3, cr4 := d.cur.cr4, tlb := d.cur.tlb } ∧
        d.kept = c.kept) (Grown k) := by
  unfold writeCr
  split
  · unfold writeCr0
    exact (requireLevel0_ends hk).bind fun _ h => Ends.ok ⟨h, rfl, rfl⟩
  · split
    · unfold writeCr3
      exact (requireLevel0_ends hk).bind fun _ h => Ends.ok ⟨h, rfl, rfl⟩
    · unfold writeCr4
      refine (requireLevel0_ends hk).bind fun _ h => ?_
      split
      · exact Ends.ok ⟨h, rfl, rfl⟩
      · exact Ends.raise rfl hk

end Base

end Sys2Proof.Machine
end

