-- ==== Sys2Proof/Laws/Flat.lean ====
section
/-! SUPPORT. With paging off: what each memory operation answers, as an equation. Cited in place of unfolding. -/

namespace Sys2Proof.Machine

/-- The physical addresses of `n` bytes from `la` on. -/
def flatAddrs : Nat → Linear → List PhysAddr
  | 0, _ => []
  | n + 1, la => flat la :: flatAddrs n (la + 1)

variable {c : Ctx} {s : State}

theorem translate_off (lin : Linear) (kind : PageAccess) (lvl : Level) (h : c.cur.pg = false) :
    translate lin kind lvl c = .ok ({ pa := flat lin, span := 12 }, c) := by
  simp [translate, h, flat]

/-- Two neighbours in one page have neighbouring physical addresses. -/
theorem flat_succ {la : Linear} (h : samePage 12 la (la + 1) = true) : flat la + 1 = flat (la + 1) := by
  simp only [samePage, beq_iff_eq] at h
  have hn := congrArg BitVec.toNat h
  simp only [BitVec.toNat_ushiftRight, BitVec.toNat_add, Nat.shiftRight_eq_div_pow] at hn
  apply BitVec.eq_of_toNat_eq
  simp only [flat, BitVec.toNat_add, BitVec.toNat_setWidth]
  have := la.isLt
  simp at hn ⊢
  omega

/-- The translation of the next byte, shared or not. -/
theorem nextXlat_off (kind : PageAccess) (lvl : Level) (la : Linear) (prev : Option (Linear × Xlat))
    (hp : prev = none ∨ ∃ pl, la = pl + 1 ∧ prev = some (pl, { pa := flat pl, span := 12 })) (h : c.cur.pg = false) :
    nextXlat kind lvl la prev c = .ok ({ pa := flat la, span := 12 }, c) := by
  rcases hp with rfl | ⟨pl, rfl, rfl⟩
  · exact translate_off la kind lvl h
  · simp only [nextXlat]
    split
    · rename_i hs; rw [flat_succ hs]
    · exact translate_off _ kind lvl h

theorem translateBytes_off (kind : PageAccess) (lvl : Level) (n : Nat) (la : Linear) (prev : Option (Linear × Xlat))
    (hp : prev = none ∨ ∃ pl, la = pl + 1 ∧ prev = some (pl, { pa := flat pl, span := 12 })) (h : c.cur.pg = false) :
    translateBytes kind lvl n la prev c = .ok (flatAddrs n la, c) := by
  induction n generalizing la prev with
  | zero => rfl
  | succ n ih =>
    unfold translateBytes
    rw [nextXlat_off kind lvl la prev hp h]
    show (do let (pas, c) ← translateBytes kind lvl n (la + 1) (some (la, _)) c; Except.ok (_ :: pas, c)) = _
    rw [ih (la + 1) _ (.inr ⟨la, rfl, rfl⟩)]
    rfl

theorem physReadByte_memory (pa : PhysAddr) (h : c.cur.isMemory pa) : physReadByte pa c = .ok (c.cur.byteAt pa, c) := by
  unfold physReadByte
  rcases h with h | h <;> rw [h]

theorem index_succ (la : Linear) (i : Nat) : la + BitVec.ofNat 32 (i + 1) = la + 1 + BitVec.ofNat 32 i := by
  rw [BitVec.add_assoc]; congr 1; rw [Nat.add_comm, BitVec.ofNat_add]; rfl

theorem flatReadable_tail {la : Linear} {n : Nat} (h : s.flatReadable la (n + 1)) : s.flatReadable (la + 1) n := fun i hi => by
  have := h (i + 1) (by omega)
  rwa [index_succ] at this

theorem flatWritable_tail {la : Linear} {n : Nat} (h : s.flatWritable la (n + 1)) : s.flatWritable (la + 1) n := fun i hi => by
  have := h (i + 1) (by omega)
  rwa [index_succ] at this

theorem flatWritable_readable {la : Linear} {n : Nat} (h : s.flatWritable la n) : s.flatReadable la n := fun i hi => .inl (h i hi)

theorem linReadFrom_off (lvl : Level) (n : Nat) (la : Linear) (prev : Option (Linear × Xlat))
    (hp : prev = none ∨ ∃ pl, la = pl + 1 ∧ prev = some (pl, { pa := flat pl, span := 12 })) (hg : c.cur.pg = false)
    (h : c.cur.flatReadable la n) : linReadFrom lvl n la prev c = .ok (c.cur.flatBytes la n, c) := by
  induction n generalizing la prev with
  | zero => rfl
  | succ n ih =>
    have h0 : c.cur.isMemory (flat la) := by simpa using h 0 (by omega)
    unfold linReadFrom
    rw [nextXlat_off .read lvl la prev hp hg]
    show (do let (b, c) ← physReadByte (flat la) c; let (bs, c) ← linReadFrom lvl n (la + 1) (some (la, _)) c; Except.ok (b :: bs, c)) = _
    rw [physReadByte_memory _ h0]
    show (do let (bs, c) ← linReadFrom lvl n (la + 1) (some (la, _)) c; Except.ok (_ :: bs, c)) = _
    rw [ih (la + 1) _ (.inr ⟨la, rfl, rfl⟩) (flatReadable_tail h)]
    rfl

theorem physWriteBytes_off (bs : List Byte) (la : Linear) (h : c.cur.flatWritable la bs.length) :
    physWriteBytes (flatAddrs bs.length la) bs c = .ok (c.onCur (·.flatStore la bs)) := by
  induction bs generalizing la c with
  | nil => rfl
  | cons b bs ih =>
    have h0 : c.cur.kindAt (flat la) = .readWrite := by simpa using h 0 (by simp)
    show (do let d ← physWriteByte (flat la) b c; physWriteBytes (flatAddrs bs.length (la + 1)) bs d) = _
    unfold physWriteByte
    rw [h0]
    exact ih (c := c.onCur fun s => s.setMem (s.mem.write (flat la).toNat b)) (la + 1) (flatWritable_tail h)

theorem linRead_off (la : Linear) (n : Nat) (lvl : Level) (hp : c.cur.pg = false) (h : c.cur.flatReadable la n) :
    linRead la n lvl c = .ok (c.cur.flatBytes la n, c) := linReadFrom_off lvl n la none (.inl rfl) hp h

theorem linWrite_off (la : Linear) (bs : List Byte) (lvl : Level) (hp : c.cur.pg = false)
    (h : c.cur.flatWritable la bs.length) : linWrite la bs lvl c = .ok (c.onCur (·.flatStore la bs)) := by
  unfold linWrite
  rw [translateBytes_off _ _ _ _ _ (.inl rfl) hp]
  exact physWriteBytes_off bs la h

theorem memRead_off {r : SReg} {off : Dword} {n : Nat} (h : c.cur.flatMemReadable r off n) :
    memRead r off n c = .ok (c.cur.flatMemBytes r off n, c) := by
  unfold memRead logicalToLinear
  rw [if_pos h.check]
  exact linRead_off _ _ _ h.pagingOff h.memory

theorem memWrite_off {r : SReg} {off : Dword} {bs : List Byte} (h : c.cur.flatMemWritable r off bs.length) :
    memWrite r off bs c = .ok (c.onCur (·.flatMemStore r off bs)) := by
  unfold memWrite logicalToLinear
  rw [if_pos h.check]
  exact linWrite_off _ _ _ h.pagingOff h.memory

theorem fetchDescriptor_off {sel : Selector} (h : c.cur.flatFetchable sel) :
    fetchDescriptor sel c = .ok (c.cur.flatDescriptor sel, c) := by
  unfold fetchDescriptor
  simp only [h.inTable, Bool.not_true, Bool.false_eq_true, if_false]
  rw [linRead_off _ 4 _ h.pagingOff h.lo]
  show (do let (hi, c) ← linRead (c.cur.descAddr sel + 4) 4 .supervisor c; _) = _
  rw [linRead_off _ 4 _ h.pagingOff h.hi]
  show (if _ then _ else _) = _
  rw [h.reserved]
  rfl

theorem setAccessed_off {sel : Selector} (hp : c.cur.pg = false)
    (h : isAccessed (c.cur.flatDescriptor sel).typ = false → c.cur.kindAt (flat (c.cur.descAddr sel + 5)) = .readWrite) :
    setAccessed sel (c.cur.flatDescriptor sel) c = .ok (c.onCur (·.flatMark sel)) := by
  unfold setAccessed State.flatMark Ctx.onCur
  split
  · rename_i ha; simp only [ha, if_true]
  · rename_i ha
    have hk := h (by simpa using ha)
    simp only [ha]
    have hw : c.cur.flatWritable (c.cur.descAddr sel + 5) 1 := fun i hi => by
      have : i = 0 := by omega
      subst this; simpa using hk
    rw [linRead_off _ 1 _ hp (flatWritable_readable hw)]
    show linWrite _ (List.map _ (c.cur.flatBytes _ 1)) _ c = _
    rw [linWrite_off _ _ _ hp (by simpa [State.flatBytes] using hw)]
    rfl

theorem flatStore_eq (la : Linear) (bs : List Byte) (s : State) : s.flatStore la bs = s.setMem (s.flatStore la bs).mem := by
  induction bs generalizing la s with
  | nil => rfl
  | cons b bs ih => unfold State.flatStore; rw [ih]; rfl

theorem flatMark_eq (s : State) (sel : Selector) : s.flatMark sel = s.setMem (s.flatMark sel).mem := by
  unfold State.flatMark
  split
  · rfl
  · exact flatStore_eq _ _ _

theorem flatMark_cpl (s : State) (sel : Selector) : (s.flatMark sel).cpl = s.cpl := by rw [flatMark_eq]; rfl

/-- The two ways to say the selector CS holds. -/
theorem codeSelector_eq (cpl : BitVec 2) (sel : Selector) : codeSelector cpl sel = loadedSelector .cs cpl sel := by
  unfold codeSelector loadedSelector
  refine BitVec.eq_of_getLsbD_eq fun i hi => ?_
  rw [if_pos rfl]
  show (BitVec.extractLsb' 2 14 sel ++ cpl : BitVec (14 + 2)).getLsbD i = _
  rw [BitVec.getLsbD_append]
  have : i = 0 ∨ i = 1 ∨ i = 2 ∨ i = 3 ∨ i = 4 ∨ i = 5 ∨ i = 6 ∨ i = 7 ∨ i = 8 ∨ i = 9 ∨ i = 10 ∨ i = 11 ∨ i = 12 ∨ i = 13 ∨
      i = 14 ∨ i = 15 := by omega
  rcases this with rfl | rfl | rfl | rfl | rfl | rfl | rfl | rfl | rfl | rfl | rfl | rfl | rfl | rfl | rfl | rfl <;> simp

theorem ldseg_off {r : SReg} {sel : Selector} (hr : r.isData = true) (h : c.cur.flatLoadOk r sel) :
    ldseg r sel c = .ok (c.onCur (·.afterLoad r sel)) := by
  unfold ldseg Ctx.onCur State.afterLoad
  rcases h with ⟨_, hn⟩ | h
  · simp only [hn, if_true]; rfl
  · simp only [h.notNull, Bool.false_eq_true, if_false]
    rw [fetchDescriptor_off h.fetch]
    have hc : dataLoadOk c.cur.cpl sel (c.cur.flatDescriptor sel) = true := by
      have := h.checks; cases r <;> first | exact this | exact absurd hr (by decide)
    show (if (!dataLoadOk c.cur.cpl sel (c.cur.flatDescriptor sel)) = true then _ else if (!(c.cur.flatDescriptor sel).p) = true then _ else _) = _
    rw [hc, h.present]
    show (do let c1 ← setAccessed sel (c.cur.flatDescriptor sel) c; Except.ok (c1.loadSeg r sel (c.cur.flatDescriptor sel))) = _
    rw [setAccessed_off h.fetch.pagingOff h.mark]
    have hs : loadedSelector r c.cur.cpl sel = sel := by cases r <;> first | rfl | exact absurd hr (by decide)
    unfold State.flatLoaded
    simp only [hs]
    rfl

theorem ldss_off {sel : Selector} (h : c.cur.flatLoadable .ss sel) : ldss sel c = .ok (c.onCur (·.flatLoaded .ss sel)) := by
  unfold ldss Ctx.onCur
  simp only [h.notNull, Bool.false_eq_true, if_false]
  rw [fetchDescriptor_off h.fetch]
  have hc : stackLoadOk c.cur.cpl sel (c.cur.flatDescriptor sel) = true := h.checks
  show (if (!stackLoadOk c.cur.cpl sel (c.cur.flatDescriptor sel)) = true then _ else if (!(c.cur.flatDescriptor sel).p) = true then _ else _) = _
  rw [hc, h.present]
  show (do let c1 ← setAccessed sel (c.cur.flatDescriptor sel) c; Except.ok (c1.loadSeg .ss sel (c.cur.flatDescriptor sel))) = _
  rw [setAccessed_off h.fetch.pagingOff h.mark]
  rfl

theorem ldcs_off {sel : Selector} (h : c.cur.flatLoadable .cs sel) : ldcs sel c = .ok (c.onCur (·.flatLoaded .cs sel)) := by
  unfold ldcs Ctx.onCur
  simp only [h.notNull, Bool.false_eq_true, if_false]
  rw [fetchDescriptor_off h.fetch]
  have hc : ((c.cur.flatDescriptor sel).s && codeLoadOk c.cur.cpl sel (c.cur.flatDescriptor sel)) = true := h.checks
  simp only [Bool.and_eq_true] at hc
  show (if (!(c.cur.flatDescriptor sel).s) = true then _ else if (!codeLoadOk c.cur.cpl sel (c.cur.flatDescriptor sel)) = true then _ else if (!(c.cur.flatDescriptor sel).p) = true then _ else _) = _
  rw [hc.1, hc.2, h.present]
  show (do let c1 ← setAccessed sel (c.cur.flatDescriptor sel) c; Except.ok (c1.loadSeg .cs (codeSelector c1.cur.cpl sel) (c.cur.flatDescriptor sel))) = _
  rw [setAccessed_off h.fetch.pagingOff h.mark]
  show Except.ok (Ctx.loadSeg _ .cs (codeSelector (c.cur.flatMark sel).cpl sel) _) = _
  rw [flatMark_cpl, codeSelector_eq]
  rfl

/-- A load of any register but CS, as the annex performs it. -/
theorem loadSreg_off {r : SReg} {sel : Selector} (hr : r ≠ .cs) (h : c.cur.flatLoadOk r sel) :
    loadSreg r sel c = .ok (c.onCur (·.afterLoad r sel)) := by
  unfold loadSreg
  split
  · rename_i e; subst e
    rcases h with ⟨h, _⟩ | h
    · exact absurd h (by decide)
    · rw [ldss_off h]
      unfold State.afterLoad Ctx.onCur
      simp only [h.notNull, Bool.false_eq_true, if_false]
  · exact ldseg_off (by cases r <;> simp_all [SReg.isData]) h

/-- The push pointer in the words of the rule. -/
theorem movedPointer_push (s : State) (n : Nat) : s.movedPointer (-(BitVec.ofNat 32 n)) = s.pushOffset n := by
  unfold State.movedPointer State.pushOffset
  rw [State.seg_ss]
  split
  · rw [BitVec.sub_eq_add_neg]
  · congr 1
    apply BitVec.eq_of_toNat_eq
    simp [BitVec.toNat_neg, BitVec.toNat_sub]
    omega

theorem withStackPointer_push (s : State) (n : Nat) : s.withStackPointer (s.pushOffset n) = s.setEsp (s.pushedEsp n) := by
  unfold State.withStackPointer State.pushOffset State.pushedEsp
  rw [State.seg_ss]
  split
  · rfl
  · congr 2
    apply BitVec.eq_of_toNat_eq
    simp

theorem withStackPointer_pop (s : State) (n : Nat) :
    s.withStackPointer (s.movedPointer (BitVec.ofNat 32 n)) = s.popped n := by
  unfold State.withStackPointer State.movedPointer State.popped State.poppedEsp
  rw [State.seg_ss]
  split
  · rfl
  · congr 2
    apply BitVec.eq_of_toNat_eq
    simp

theorem stackPointer_eq (s : State) : s.stackPointer = s.popOffset := by
  unfold State.stackPointer State.popOffset
  rw [State.seg_ss]
  split
  · rfl
  · rfl

theorem spush_off {bs : List Byte} (h : c.cur.flatPushable bs.length) : spush bs c = .ok (c.onCur (·.flatPushed bs)) := by
  unfold spush
  simp only [movedPointer_push]
  rw [memWrite_off h]
  show Except.ok (Ctx.mk ((c.cur.flatMemStore .ss (c.cur.pushOffset bs.length) bs).withStackPointer (c.cur.pushOffset bs.length))
    c.kept) = Except.ok (Ctx.mk (c.cur.flatPushed bs) c.kept)
  congr 2
  unfold State.flatPushed State.flatMemStore
  rw [flatStore_eq]
  exact withStackPointer_push (c.cur.setMem _) bs.length

theorem spop_off {n : Nat} (h : c.cur.flatPoppable n) : spop n c = .ok (c.cur.flatPopBytes n, c.onCur (·.popped n)) := by
  unfold spop
  rw [stackPointer_eq, memRead_off h]
  show Except.ok (_, c.onCur fun s => s.withStackPointer (s.movedPointer _)) = _
  simp only [withStackPointer_pop]
  rfl

theorem readMem_off {m : MemArg} {n : Nat} (h : c.cur.flatOperandReadable m n) :
    readMem m n c = .ok (c.cur.flatOperandBytes m n, c) := memRead_off h

theorem readRM16_off {rm : RM} (h : c.cur.flatSource16 rm) : readRM16 rm c = .ok (c.cur.source16 rm, c) := by
  cases rm with
  | reg r => rfl
  | mem m => unfold readRM16; simp only; rw [readMem_off h]; rfl

theorem writeRM16_off {rm : RM} {v : BitVec 16} (h : c.cur.flatDest16 rm) :
    writeRM16 rm v c = .ok (c.onCur (·.stored16 rm v)) := by
  cases rm with
  | reg r => rfl
  | mem m => unfold writeRM16; exact memWrite_off h

theorem readFarPointer_off {m : MemArg} (h : c.cur.flatOperandReadable m 6) :
    readFarPointer m c =
      .ok (leValue 32 ((c.cur.flatOperandBytes m 6).take 4), leValue 16 ((c.cur.flatOperandBytes m 6).drop 4), c) := by
  unfold readFarPointer; rw [readMem_off h]; rfl

theorem readTablePointer_off {m : MemArg} (h : c.cur.flatOperandReadable m 6) :
    readTablePointer m c =
      .ok (leValue 32 ((c.cur.flatOperandBytes m 6).drop 2), leValue 16 ((c.cur.flatOperandBytes m 6).take 2), c) := by
  unfold readTablePointer; rw [readMem_off h]; rfl

/-- What a byte reads as after a store with paging off: the stored bytes, and every other byte as before. -/
theorem flatStore_other (la : Linear) (bs : List Byte) (s : State) (a : Nat)
    (h : ∀ i : Nat, i < bs.length → a ≠ (flat (la + BitVec.ofNat 32 i)).toNat) : (s.flatStore la bs).mem.read a = s.mem.read a := by
  induction bs generalizing la s with
  | nil => rfl
  | cons b bs ih =>
    unfold State.flatStore
    rw [ih (la + 1)]
    · exact Memory.read_write_other _ _ _ (by simpa using h 0 (by simp))
    · intro i hi
      have := h (i + 1) (by simpa using hi)
      rwa [index_succ] at this

end Sys2Proof.Machine
end

