-- ==== Sys2Proof/Laws/Launch.lean ====
section
/-! SUPPORT. Every translation and every table entry lies below 2^32, and what that says of R331 (h). -/

namespace Sys2Proof.Machine

/-- An entry lies on 4 bytes below 2^32. -/
theorem entryAddr_toNat (f : BitVec 20) (i : BitVec 10) : (entryAddr f i).toNat = f.toNat * 4096 + i.toNat * 4 := by
  unfold entryAddr
  rw [BitVec.toNat_setWidth, BitVec.toNat_append, BitVec.toNat_append]
  have := f.isLt; have := i.isLt
  rw [Nat.shiftLeft_eq, Nat.shiftLeft_eq]
  rw [show (0 : BitVec 2).toNat = 0 from rfl, Nat.or_zero]
  rw [← Nat.shiftLeft_eq f.toNat, ← Nat.shiftLeft_add_eq_or_of_lt i.isLt, Nat.shiftLeft_eq]
  omega

/-- So does each of its bytes. -/
theorem entryAddr_byte_low (f : BitVec 20) (i : BitVec 10) {k : Nat} (h : k < 4) : (entryAddr f i + BitVec.ofNat 36 k).toNat < 2 ^ 32 := by
  rw [BitVec.toNat_add, BitVec.toNat_ofNat, entryAddr_toNat]
  have := f.isLt; have := i.isLt
  omega

theorem setWidth_low (v : Dword) : (v.setWidth 36 : PhysAddr).toNat < 2 ^ 32 := by
  rw [BitVec.toNat_setWidth]; have := v.isLt; omega

theorem xlatOf_low (size : PageSize) (frame : Dword) (lin : Linear) : (xlatOf size frame lin).pa.toNat < 2 ^ 32 := by
  cases size <;> exact setWidth_low _

/-- Every translation gives an address below 2^32 (20_memory.md R74). -/
theorem translate_low (lin : Linear) (kind : PageAccess) (lvl : Level) (c : Ctx) :
    Ends (translate lin kind lvl c) (fun r => r.1.pa.toNat < 2 ^ 32) fun _ => True := by
  have hw : ∀ c, Ends (walk lin kind lvl c) (fun r => r.1.pa.toNat < 2 ^ 32) fun _ => True := by
    intro c
    unfold walk
    refine (readEntry_ends (Q := fun _ => True) _ _ fun _ => trivial).bind fun pde _ => ?_
    split
    · exact Ends.raise rfl trivial
    · split
      · unfold walkBig
        split
        · exact Ends.refuse
        · split
          · exact Ends.raise rfl trivial
          · exact Ends.ok (xlatOf_low ..)
      · unfold walkSmall
        split
        · exact Ends.refuse
        · refine (readEntry_ends (Q := fun _ => True) _ _ fun _ => trivial).bind fun pte _ => ?_
          split
          · exact Ends.raise rfl trivial
          · split
            · exact Ends.refuse
            · simp only
              split
              · exact Ends.raise rfl trivial
              · exact Ends.ok (xlatOf_low ..)
  unfold translate
  split
  · exact Ends.ok (setWidth_low _)
  · split
    · exact Ends.refuse
    · split
      · split
        · exact Ends.raise rfl trivial
        · split
          · exact Ends.ok (xlatOf_low ..)
          · exact hw _
      · exact hw _

/-- Where every address below 2^32 is read-write memory, R331 (h) holds, whatever the tables hold. -/
theorem tablesBackedIn_of_low {s : State} (h : ∀ pa : PhysAddr, pa.toNat < 2 ^ 32 → s.kindAt pa = .readWrite) : tablesBackedIn s :=
  ⟨fun _ _ _ _ hi => h _ (entryAddr_byte_low _ _ hi), fun _ _ _ _ hi _ _ => h _ (entryAddr_byte_low _ _ hi),
    fun sel _ _ i _ n kind _ _ ht => h _ ((translate_low (s.descAddr sel + BitVec.ofNat 32 i) kind .supervisor
      (Ctx.start { s with draws := n })).of_ok ht)⟩

/-- So it holds over the launch's memory map. -/
theorem launchMap_backed {s : State} (h : s.platform.physMap = launchPlatform.physMap) : tablesBackedIn s :=
  tablesBackedIn_of_low fun pa hl => by
    unfold State.kindAt
    rw [h]
    show (if 0 ≤ pa.toNat ∧ pa.toNat < 0 + 2 ^ 32 then PhysKind.readWrite else _) = _
    rw [if_pos ⟨Nat.zero_le _, by omega⟩]

end Sys2Proof.Machine
end

