-- ==== Sys2Proof/Laws/Runs.lean ====
section
/-! SUPPORT. How a whole operation answers from how its body does, and the reads and writes at given physical addresses. -/

namespace Sys2Proof.Machine

/-- A bind of a part that completes. -/
theorem bind_ok {α β : Type} {x : Except Stop α} {a : α} {f : α → Except Stop β} (h : x = .ok a) : (x >>= f) = f a := by
  subst h; rfl

/-- The privilege check passes at level 0. -/
theorem requireLevel0_ok {c : Ctx} (h : c.cur.cpl = 0#2) : requireLevel0 c = .ok () := by simp [requireLevel0, h]

/-- An operation that returns nothing completes where its body does. -/
theorem runQuiet_ok {f : Ctx → Except Stop Ctx} {s : State} {c : Ctx} (h : f (Ctx.start s) = .ok c) :
    runQuiet f s = .next (c.cur.finish .none) := by simp [runQuiet, runOp, h, Bind.bind, Except.bind]
/-- It raises the exception its body raises. -/
theorem runQuiet_fault {f : Ctx → Except Stop Ctx} {s : State} {x} (h : f (Ctx.start s) = .error (.fault x)) :
    runQuiet f s = .fault x := by simp [runQuiet, runOp, h, Bind.bind, Except.bind]
/-- It is refused where its body is. -/
theorem runQuiet_ref {f : Ctx → Except Stop Ctx} {s : State} {x} (h : f (Ctx.start s) = .error (.refused x)) :
    runQuiet f s = .refused x := by simp [runQuiet, runOp, h, Bind.bind, Except.bind]
/-- An operation that returns a result completes where its body does. -/
theorem runOp_ok {f : Ctx → Except Stop (Result × Ctx)} {s : State} {r} {c : Ctx} (h : f (Ctx.start s) = .ok (r, c)) :
    runOp f s = .next (c.cur.finish r) := by simp [runOp, h]
/-- It raises the exception its body raises. -/
theorem runOp_fault {f : Ctx → Except Stop (Result × Ctx)} {s : State} {x} (h : f (Ctx.start s) = .error (.fault x)) :
    runOp f s = .fault x := by simp [runOp, h]
/-- It is refused where its body is. -/
theorem runOp_ref {f : Ctx → Except Stop (Result × Ctx)} {s : State} {x} (h : f (Ctx.start s) = .error (.refused x)) :
    runOp f s = .refused x := by simp [runOp, h]
/-- Where it completes, its body did. -/
theorem runQuiet_next {f : Ctx → Except Stop Ctx} {s t : State} (h : runQuiet f s = .next t) :
    ∃ c, f (Ctx.start s) = .ok c ∧ t = c.cur.finish .none := by
  unfold runQuiet runOp at h
  match hf : f (Ctx.start s) with
  | .ok c => simp [hf, Bind.bind, Except.bind] at h; exact ⟨c, rfl, h.symm⟩
  | .error (.fault x) => simp [hf, Bind.bind, Except.bind] at h
  | .error (.refused x) => simp [hf, Bind.bind, Except.bind] at h

/-- `n` bytes of a value are `n` bytes. -/
theorem leBytes_length {w} (n : Nat) (v : BitVec w) : (leBytes n v).length = n := by
  induction n generalizing v with
  | zero => rfl
  | succ n ih => simp [leBytes, ih]

/-- MFETCH's reads, paging off. -/
theorem fetchBytes_off {c : Ctx} (lvl : Level) (n : Nat) (la : Linear) (hp : c.cur.pg = false) (h : c.cur.flatReadable la n) :
    fetchBytes lvl n la c = .ok (c.cur.flatBytes la n, c) := by
  induction n generalizing la with
  | zero => rfl
  | succ n ih =>
    have h1 : c.cur.flatReadable la 1 := fun i hi => h i (by omega)
    unfold fetchBytes
    rw [linRead_off la 1 lvl hp h1]
    show (do let (bs, c) ← fetchBytes lvl n (la + 1) c; Except.ok (_ ++ bs, c)) = _
    rw [ih _ (flatReadable_tail h)]
    rfl

/-- The bytes at `n` addresses are `n`. -/
theorem flatBytes_length (s : State) (la n) : (s.flatBytes la n).length = n := by
  induction n generalizing la with
  | zero => rfl
  | succ n ih => simp [State.flatBytes, ih]

/-- A push moves memory and ESP alone. -/
theorem flatPushed_eq (s : State) (bs : List Byte) :
    s.flatPushed bs = { s with mem := (s.flatPushed bs).mem, esp := s.pushedEsp bs.length } := by
  conv_lhs => unfold State.flatPushed State.flatMemStore; rw [flatStore_eq]
  rfl

/-- A translation moves no kind of address. -/
theorem nextXlat_isMemory {c d : Ctx} {kind lvl la prev x} (h : nextXlat kind lvl la prev c = .ok (x, d)) (pa : PhysAddr) :
    d.cur.kindAt pa = c.cur.kindAt pa := by
  have g := ((nextXlat_ends kind lvl la prev (Grown.refl c.kept)).of_ok h).1.same.rest
  unfold State.kindAt
  rw [g]

/-- One byte more, translated: its own translation and then those of the bytes after it. -/
theorem translateBytes_succ {c d : Ctx} {kind lvl n la prev pas} (h : translateBytes kind lvl (n + 1) la prev c = .ok (pas, d)) :
    ∃ (x : Xlat) (e : Ctx) (ps : List PhysAddr), nextXlat kind lvl la prev c = .ok (x, e) ∧
      translateBytes kind lvl n (la + 1) (some (la, x)) e = .ok (ps, d) ∧ pas = x.pa :: ps := by
  unfold translateBytes at h
  match hx : nextXlat kind lvl la prev c with
  | .error _ => rw [hx] at h; cases h
  | .ok (x, e) =>
    rw [hx] at h
    match hy : translateBytes kind lvl n (la + 1) (some (la, x)) e with
    | .error _ => simp only [Bind.bind, Except.bind, hy] at h; cases h
    | .ok (ps, f) =>
      simp only [Bind.bind, Except.bind, hy] at h
      cases h
      exact ⟨x, e, ps, rfl, hy, rfl⟩

/-- A linear read of memory reads each byte as it stands after the translations up to its own, and leaves what the translations
leave. -/
theorem linReadFrom_memory {c d : Ctx} {lvl n la prev pas} (h : translateBytes .read lvl n la prev c = .ok (pas, d))
    (hm : ∀ pa ∈ pas, c.cur.isMemory pa) :
    ∃ bs : List Byte, linReadFrom lvl n la prev c = .ok (bs, d) ∧ bs.length = n ∧
      ∀ i : Nat, i < n → ∃ (ps : List PhysAddr) (e : Ctx) (pa : PhysAddr),
        translateBytes .read lvl (i + 1) la prev c = .ok (ps, e) ∧ pas[i]? = some pa ∧ bs[i]? = some (e.cur.byteAt pa) := by
  induction n generalizing la prev c pas with
  | zero => cases h; exact ⟨[], rfl, rfl, fun i hi => absurd hi (by omega)⟩
  | succ n ih =>
    obtain ⟨x, e, ps, hx, hy, rfl⟩ := translateBytes_succ h
    have hk : ∀ pa : PhysAddr, e.cur.isMemory pa ↔ c.cur.isMemory pa := fun pa => by
      unfold State.isMemory; rw [nextXlat_isMemory hx]
    obtain ⟨bs, hb, hl, hi⟩ := ih hy fun pa hp => (hk pa).2 (hm pa (by simp [hp]))
    refine ⟨e.cur.byteAt x.pa :: bs, ?_, by simp [hl], fun i hn => ?_⟩
    · unfold linReadFrom
      rw [hx]
      simp only [Bind.bind, Except.bind, physReadByte_memory _ ((hk x.pa).2 (hm x.pa (by simp))), hb]
    · cases i with
      | zero => exact ⟨[x.pa], e, x.pa, by unfold translateBytes; rw [hx]; rfl, rfl, rfl⟩
      | succ i =>
        obtain ⟨qs, f, pa, hq, h1, h2⟩ := hi i (by omega)
        exact ⟨x.pa :: qs, f, pa, by unfold translateBytes; rw [hx]; simp only [Bind.bind, Except.bind, hq], by simpa using h1,
          by simpa using h2⟩

/-- A linear read stops at the first byte where nothing is, whatever the translations of the bytes after it would do. -/
theorem linReadFrom_unbacked {c d : Ctx} {lvl n i la prev pas} {pa : PhysAddr} (hi : i < n)
    (h : translateBytes .read lvl (i + 1) la prev c = .ok (pas ++ [pa], d)) (hm : ∀ p ∈ pas, c.cur.isMemory p)
    (hn : c.cur.kindAt pa = .nothing) : linReadFrom lvl n la prev c = .error (.refused (.unbacked pa)) := by
  induction i generalizing n la prev c pas with
  | zero =>
    obtain ⟨m, rfl⟩ : ∃ m, n = m + 1 := ⟨n - 1, by omega⟩
    obtain ⟨x, e, ps, hx, hy, hp⟩ := translateBytes_succ h
    cases hy
    cases pas with
    | cons a as => simp at hp
    | nil =>
      cases hp
      unfold linReadFrom physReadByte
      rw [hx]
      simp only [Bind.bind, Except.bind, nextXlat_isMemory hx, hn]
      rfl
  | succ i ih =>
    obtain ⟨m, rfl⟩ : ∃ m, n = m + 1 := ⟨n - 1, by omega⟩
    obtain ⟨x, e, ps, hx, hy, hp⟩ := translateBytes_succ h
    cases pas with
    | nil =>
      have := congrArg List.length hp
      obtain ⟨_, _, qs, _, _, rfl⟩ := translateBytes_succ hy
      simp at this
    | cons a as =>
      cases hp
      have hk : ∀ p : PhysAddr, e.cur.isMemory p ↔ c.cur.isMemory p := fun p => by
        unfold State.isMemory; rw [nextXlat_isMemory hx]
      have hr := ih (n := m) (by omega) hy (fun p hp => (hk p).2 (hm p (by simp [hp]))) (by rw [nextXlat_isMemory hx]; exact hn)
      unfold linReadFrom
      rw [hx]
      simp only [Bind.bind, Except.bind, physReadByte_memory _ ((hk x.pa).2 (hm x.pa (by simp))), hr]

/-- Writing read-write memory at any physical addresses: no other byte moves. -/
theorem physWriteBytes_gen {c : Ctx} (pas : List PhysAddr) (bs : List Byte) (h : ∀ pa ∈ pas, c.cur.kindAt pa = .readWrite) :
    ∃ m, physWriteBytes pas bs c = .ok (c.onCur (·.setMem m)) ∧ ∀ a : Nat, (∀ pa ∈ pas, a ≠ pa.toNat) → m.read a = c.cur.mem.read a := by
  induction pas generalizing c bs with
  | nil => exact ⟨c.cur.mem, rfl, fun _ _ => rfl⟩
  | cons pa pas ih =>
    cases bs with
    | nil => exact ⟨c.cur.mem, rfl, fun _ _ => rfl⟩
    | cons b bs =>
      unfold physWriteBytes physWriteByte
      rw [h pa (by simp)]
      obtain ⟨m, hm, hr⟩ := ih (c := c.onCur fun s => s.setMem (s.mem.write pa.toNat b)) bs (fun p hp => h p (by simp [hp]))
      refine ⟨m, hm, fun a ha => ?_⟩
      rw [hr a fun p hp => ha p (by simp [hp])]
      exact Memory.read_write_other _ _ _ (ha pa (by simp))

/-- Writing read-write memory in canonical form at physical addresses no two of which are the same: each holds its byte. -/
theorem physWriteBytes_nodup {c : Ctx} (pas : List PhysAddr) (bs : List Byte) (h : ∀ pa ∈ pas, c.cur.kindAt pa = .readWrite)
    (w : c.cur.mem.wf = true) (nd : pas.Nodup) (hl : bs.length = pas.length) :
    ∃ m, physWriteBytes pas bs c = .ok (c.onCur (·.setMem m)) ∧
      (∀ a : Nat, (∀ pa ∈ pas, a ≠ pa.toNat) → m.read a = c.cur.mem.read a) ∧
      ∀ (i : Nat) (pa : PhysAddr), pas[i]? = some pa → bs[i]? = some (m.read pa.toNat) := by
  induction pas generalizing c bs with
  | nil => exact ⟨c.cur.mem, rfl, fun _ _ => rfl, fun i pa h => by simp at h⟩
  | cons pa pas ih =>
    cases bs with
    | nil => simp at hl
    | cons b bs =>
      unfold physWriteBytes physWriteByte
      rw [h pa (by simp)]
      have nd := List.nodup_cons.mp nd
      obtain ⟨m, hm, hr, hi⟩ := ih (c := c.onCur fun s => s.setMem (s.mem.write pa.toNat b)) bs
        (fun p hp => h p (by simp [hp])) (Memory.write_wf _ _ w) nd.2 (by simpa using hl)
      refine ⟨m, hm, fun a ha => ?_, fun i qa hq => ?_⟩
      · rw [hr a fun p hp => ha p (by simp [hp])]
        exact Memory.read_write_other _ _ _ (ha pa (by simp))
      · cases i with
        | zero =>
          simp only [List.getElem?_cons_zero, Option.some.injEq] at hq ⊢
          subst hq
          rw [hr _ fun p hp e => nd.1 ((BitVec.eq_of_toNat_eq e : pa = p) ▸ hp)]
          exact (Memory.read_write_same _ _ w).symm
        | succ i => simpa using hi i qa (by simpa using hq)

/-- A byte of a paging structure in memory. -/
theorem tableByte_mem {c : Ctx} {pa} (h : c.cur.isMemory pa) : tableByte pa c = .ok (c.cur.byteAt pa) := by
  unfold tableByte; rcases h with h | h <;> rw [h]
/-- An entry in memory. -/
theorem readEntry_backed {c : Ctx} {pa} (h : c.cur.entryBacked pa) : readEntry pa c = .ok (c.cur.entryAt pa) := by
  unfold readEntry
  rw [tableByte_mem h.1, tableByte_mem h.2.1, tableByte_mem h.2.2.1, tableByte_mem h.2.2.2]; rfl
/-- Without TLB records a translation walks. -/
theorem translate_walk {s : State} (h : s.walks) (lin kind lvl) : translate lin kind lvl (Ctx.start s) = walk lin kind lvl (Ctx.start s) := by
  unfold Machine.translate
  simp only [Ctx.start_cur, h.pagingOn, Bool.not_true, Bool.false_eq_true, if_false, h.noPae, tlbPick, h.noRecords]
  rfl


/-- All the reads of MFETCH can do. -/
theorem fetchBytes_ends {k : State} {c : Ctx} (lvl : Level) (n : Nat) (la : Linear) (hk : Grown k c.kept) :
    Ends (fetchBytes lvl n la c) (fun x => Grown c.cur x.2.cur ∧ Grown k x.2.kept) (Grown k) := by
  induction n generalizing la c with
  | zero => exact Ends.ok ⟨.refl _, hk⟩
  | succ n ih =>
    unfold fetchBytes
    refine (linRead_ends la 1 lvl hk).bind fun x hx => ?_
    refine (ih (la + 1) hx.2).bind fun y hy => ?_
    exact Ends.ok ⟨hx.1.trans hy.1, hy.2⟩

end Sys2Proof.Machine
end

