-- ==== Sys2Proof/Tests/Slice0.lean ====
section
/-! SUPPORT. Tests: the smoke of WellFormed, words written out from spec/30_encoding.md R159, vectors of
spec/95_test_vectors.md, and a witness for the hypotheses of every statement. -/

namespace Sys2Proof.Tests

set_option Elab.async false

open Sys2Proof Sys2Proof.Machine

/-! The states of the tests. -/

/-- Bytes put in memory from an address on, the last first. -/
def place (a : Nat) (bytes : List Byte) (m : Memory) : Memory :=
  match bytes with
  | [] => m
  | b :: bs => (place (a + 1) bs m).write a b

/-- Read-write memory, but for a page of each other kind at 0x9000, 0xA000, 0xB000; no TLB. -/
def plat : Platform :=
  { physMap :=
      [{ base := 0x9000, size := 0x1000, kind := .readOnly }, { base := 0xA000, size := 0x1000, kind := .io },
        { base := 0xB000, size := 0x1000, kind := .nothing }, { base := 0, size := 2 ^ 32, kind := .readWrite }]
    supervisorWP := true
    ssNotPresent := .np
    nonCanonical := .gp
    hasPSE := true
    hasPAE := true
    hasPGE := false
    tlbPolicy := .never
    vaBits := 48 }

/-- The tables G0 and L0 of 95_test_vectors.md section 2.9, their bytes from section 2.2. Past G0 lie more entries: at 0x48 one
with bit 21 set, at 0x50 an LDT descriptor not present, at 0x58 code not present, at 0x60 a TSS descriptor. -/
def tables (m : Memory) : Memory :=
  place 0x2008
    ([0xFF, 0xFF, 0x00, 0x00, 0x00, 0x9A, 0xCF, 0x00] ++ [0xFF, 0xFF, 0x00, 0x00, 0x00, 0x92, 0xCF, 0x00] ++
      [0x0F, 0x00, 0x00, 0x30, 0x00, 0x82, 0x00, 0x00] ++ [0xFF, 0xFF, 0x00, 0x00, 0x01, 0x92, 0x00, 0x00] ++
      [0xFF, 0x0F, 0x00, 0x00, 0x02, 0x96, 0x00, 0x00] ++ [0xFF, 0xFF, 0x00, 0x00, 0x00, 0x12, 0xCF, 0x00] ++
      [0xFF, 0xFF, 0x00, 0x00, 0x00, 0xF2, 0xCF, 0x00] ++ [0xFF, 0xFF, 0x00, 0x00, 0x00, 0xFA, 0xCF, 0x00] ++
      [0xFF, 0xFF, 0x00, 0x00, 0x00, 0x92, 0xEF, 0x00] ++ [0x0F, 0x00, 0x00, 0x30, 0x00, 0x02, 0x00, 0x00] ++
      [0xFF, 0xFF, 0x00, 0x00, 0x00, 0x1A, 0xCF, 0x00] ++ [0x67, 0x00, 0x00, 0x40, 0x00, 0x89, 0x00, 0x00])
    (place 0x3000 ([0xFF, 0x03, 0x00, 0x00, 0x40, 0x92, 0xC0, 0x00] ++ [0xFF, 0x0F, 0x00, 0x00, 0x40, 0x92, 0x40, 0x00]) m)

/-- Program P1 after its third operation, with the longer table. -/
def g0 : State :=
  { State.reset with
    segs := { State.reset.segs with ds := { sel := 0x0010, h := Hidden.flat 0x3 } }
    gdtr := { base := 0x2000, limit := 0x67 }
    esp := 0x1000
    platform := plat
    mem := tables [] }

/-- The same at level 3 (program P4's CS and SS). -/
def user : State :=
  { g0 with
    cpl := 3
    segs := { g0.segs with
      cs := { sel := 0x0043, h := { Hidden.flat 0xB with dpl := 3 } }
      ss := { sel := 0x003B, h := { Hidden.flat 0x3 with dpl := 3 } }
      ds := { sel := 0x003B, h := { Hidden.flat 0x3 with dpl := 3 } } } }

/-- The same with a 16-bit expand-down stack (section 2.10). -/
def smallStack (esp : Dword) : State :=
  { g0 with
    esp := esp
    segs := { g0.segs with
      ss := { sel := 0x0028, h := { Hidden.flat 0x7 with base := 0x20000, limit := 0xFFF, g := false, db := false } } } }

/-- Program P3 after its ninth operation, with more entries: PDE 3 a 4-MByte page (section 2.6), PDE 4 one with bit 12 set,
PDE 5 with bit 6 set, PTE 6 with bit 7 set, PTE 7 a supervisor's page. -/
def paged : State :=
  { g0 with
    pg := true
    cr3 := 0x00100000
    cr4 := { pse := true, pae := false, pge := false }
    mem := tables
      (place 0x100000 ([0x83, 0, 0, 0] ++ [0x07, 0x10, 0x10, 0] ++ [0, 0, 0, 0] ++ [0x87, 0, 0x80, 0] ++ [0x87, 0x10, 0x80, 0] ++
          [0x47, 0x10, 0x10, 0])
        (place 0x10100C ([0x07, 0, 0x20, 0] ++ [0x05, 0x10, 0x20, 0] ++ [0, 0, 0, 0] ++ [0x87, 0, 0x20, 0] ++ [0x03, 0, 0x20, 0])
          (place 0x200025 [0x5A] []))) }

/-- At level 3, where the supervisor's pages are out of reach. -/
def pagedUser : State := { paged with cpl := 3, segs := user.segs }

/-- A state with something to do next. -/
def queued (s : State) (e : Event) : State := { s with queue := [e] }

/-- The next state, of an outcome that has one. -/
def nextState (o : Host.Outcome State Fault Refusal) : Option State :=
  match o with
  | .next t => some t
  | .fault _ => none
  | .refused _ => none

/-- The fault, of an outcome that is one. -/
def faultOf (o : Host.Outcome State Fault Refusal) : Option Fault :=
  match o with
  | .fault f => some f
  | .next _ => none
  | .refused _ => none

/-- The refusal, of an outcome that is one. -/
def refusalOf (o : Host.Outcome State Fault Refusal) : Option Refusal :=
  match o with
  | .refused r => some r
  | .next _ => none
  | .fault _ => none

/-- The state a refused far call or return holds. -/
def farTransferState (r : Refusal) : Option State :=
  match r with
  | .farTransfer t => some t
  | _ => none

/-- The state after, of an outcome that has one. -/
def after (o : Host.Outcome State Fault Refusal) : State :=
  match o with
  | .next t => t
  | .fault _ => g0
  | .refused _ => g0

theorem next_after {o : Host.Outcome State Fault Refusal} (h : (nextState o).isSome = true) : o = .next (after o) := by
  cases o
  · rfl
  · exact absurd h Bool.false_ne_true
  · exact absurd h Bool.false_ne_true

theorem fault_of {o : Host.Outcome State Fault Refusal} {f : Fault} (h : faultOf o = some f) : o = .fault f := by
  cases o
  · exact absurd h (Option.some_ne_none _).symm
  · exact congrArg _ (Option.some.inj h)
  · exact absurd h (Option.some_ne_none _).symm

/-- The value an operation returned. -/
def returned (o : Host.Outcome State Fault Refusal) : Option Result := (nextState o).map (·.result)

/-- Bytes of memory after an operation, from an address on. -/
def bytesAfter (o : Host.Outcome State Fault Refusal) (a n : Nat) : Option (List Byte) :=
  (nextState o).map fun t => (List.range n).map fun i => t.mem.read (a + i)

/-! One ill-formed term for each check of WellFormed. -/

theorem test_wf_ldseg_takes_no_cs : (Instr.ldseg .cs 0x0008).wf = false := by decide
theorem test_wf_mread_width : (Instr.mread .ds 0 3).wf = false := by decide
theorem test_wf_mwrite_width : (Instr.mwrite .ds 0 8 0).wf = false := by decide
theorem test_wf_mwrite_value : (Instr.mwrite .ds 0 1 0x100).wf = false := by decide
theorem test_wf_mfetch_none : (Instr.mfetch 0 0).wf = false := by decide
theorem test_wf_mfetch_sixteen : (Instr.mfetch 0 16).wf = false := by decide
theorem test_wf_spush_width : (Instr.spush 1 0).wf = false := by decide
theorem test_wf_spush_value : (Instr.spush 2 0x10000).wf = false := by decide
theorem test_wf_spop_width : (Instr.spop 1).wf = false := by decide
theorem test_wf_rdcr_number : (Instr.rdcr 2).wf = false := by decide
theorem test_wf_mov_takes_no_cs : (Instr.movSregRm16 .cs (.reg 0)).wf = false := by decide
theorem test_wf_mem_is_no_register : (Instr.movRm16Sreg (.mem ⟨true, 3, 0, none, []⟩) .ds).wf = false := by decide
theorem test_wf_mem_sib : (Instr.les 0 ⟨true, 0, 4, none, []⟩).wf = false := by decide
theorem test_wf_mem_no_sib_16 : (Instr.lgdt ⟨false, 0, 4, some 0x24, []⟩).wf = false := by decide
theorem test_wf_mem_disp : (Instr.jmpMem ⟨true, 0, 5, none, [0]⟩).wf = false := by decide
theorem test_wf_lldt_operand : (Instr.lldt (.mem ⟨true, 1, 0, none, []⟩)).wf = false := by decide
theorem test_wf_sldt_operand : (Instr.sldt (.mem ⟨false, 2, 0, none, [1, 2, 3, 4]⟩)).wf = false := by decide
theorem test_wf_mov_to_cr : (Instr.movCrR32 2 0).wf = false := by decide
theorem test_wf_mov_from_cr : (Instr.movR32Cr 0 7).wf = false := by decide
theorem test_wf_moffs : (Instr.movEaxMoffs false 0x10000).wf = false := by decide
theorem test_wf_reads_under : (Instr.movEaxMoffs false 0x1234).readsUnder true = false := by decide

/-! Words written out from R159, one for each constructor with bytes; operations as R152 writes them. -/

/-- Bytes that decode, at an address size, to an instruction and nothing left. -/
def reads (a32 : Bool) (bytes : List Byte) (i : Instr) : Bool :=
  match decodeCode a32 bytes with
  | .ok (j, []) => decide (j = i)
  | .ok (_, _ :: _) => false
  | .error _ => false

/-- An operation's mnemonic and operands that decode to an instruction. -/
def names (name : OpName) (args : List Arg) (i : Instr) : Bool :=
  match decodeOp name args with
  | .ok j => decide (j = i)
  | .error _ => false

/-- `[EBX]`: mod 0, rm 3. -/
def atEbx : MemArg := ⟨true, 0, 3, none, []⟩

theorem test_decode_ldseg : names .LDSEG [.sreg .ds, .num 0x0010] (.ldseg .ds 0x0010) = true := by decide
theorem test_decode_ldss : names .LDSS [.num 0x0010] (.ldss 0x0010) = true := by decide
theorem test_decode_ldcs : names .LDCS [.num 0xFFFF] (.ldcs 0xFFFF) = true := by decide
theorem test_decode_rdsel : names .RDSEL [.sreg .cs] (.rdsel .cs) = true := by decide
theorem test_decode_lgdtr : names .LGDTR [.num 0x2000, .num 0x47] (.lgdtr 0x2000 0x47) = true := by decide
theorem test_decode_lldtr : names .LLDTR [.num 0x0018] (.lldtr 0x0018) = true := by decide
theorem test_decode_mread : names .MREAD [.sreg .ds, .num 0x100, .num 4] (.mread .ds 0x100 4) = true := by decide
theorem test_decode_mwrite :
    names .MWRITE [.sreg .es, .num 0x100, .num 2, .num 0xBABE] (.mwrite .es 0x100 2 0xBABE) = true := by decide
theorem test_decode_mfetch : names .MFETCH [.num 0x7C00, .num 15] (.mfetch 0x7C00 15) = true := by decide
theorem test_decode_spush : names .SPUSH [.num 4, .num 0x11223344] (.spush 4 0x11223344) = true := by decide
theorem test_decode_spop : names .SPOP [.num 2] (.spop 2) = true := by decide
theorem test_decode_wrcr0 : names .WRCR0 [.num 0x80000000] (.wrcr0 0x80000000) = true := by decide
theorem test_decode_wrcr3 : names .WRCR3 [.num 0x100000] (.wrcr3 0x100000) = true := by decide
theorem test_decode_wrcr4 : names .WRCR4 [.num 0x10] (.wrcr4 0x10) = true := by decide
theorem test_decode_rdcr : names .RDCR [.num 4] (.rdcr 4) = true := by decide
theorem test_decode_tasksw : names .TASKSW [] .tasksw = true := by decide
theorem test_decode_maccess64 :
    names .MACCESS64 [.num 0xFFFF800000000000, .kind .write] (.maccess64 0xFFFF800000000000 .write) = true := by decide
theorem test_decode_pfx66 : reads true [0x66] .pfx66 = true ∧ names .PFX66 [] .pfx66 = true := by decide
theorem test_decode_pfx67 : reads true [0x67] .pfx67 = true ∧ names .PFX67 [] .pfx67 = true := by decide
theorem test_decode_mov_to_sreg : reads true [0x8E, 0xD8] (.movSregRm16 .ds (.reg 0)) = true := by decide
theorem test_decode_mov_to_sreg_mem : reads true [0x8E, 0x13] (.movSregRm16 .ss (.mem atEbx)) = true := by decide
theorem test_decode_mov_from_sreg : reads true [0x8C, 0xC0] (.movRm16Sreg (.reg 0) .es) = true := by decide
theorem test_decode_pop_es : reads true [0x07] .popEs = true := by decide
theorem test_decode_pop_ss : reads true [0x17] .popSs = true := by decide
theorem test_decode_pop_ds : reads true [0x1F] .popDs = true := by decide
theorem test_decode_pop_fs : reads true [0x0F, 0xA1] .popFs = true := by decide
theorem test_decode_pop_gs : reads true [0x0F, 0xA9] .popGs = true := by decide
theorem test_decode_les : reads true [0xC4, 0x13] (.les 2 atEbx) = true := by decide
theorem test_decode_lds : reads true [0xC5, 0x44, 0x24, 0x08] (.lds 0 ⟨true, 1, 4, some 0x24, [0x08]⟩) = true := by decide
theorem test_decode_lss : reads true [0x0F, 0xB2, 0x13] (.lss 2 atEbx) = true := by decide
theorem test_decode_lfs : reads false [0x0F, 0xB4, 0x0E, 0x34, 0x12] (.lfs 1 ⟨false, 0, 6, none, [0x34, 0x12]⟩) = true := by decide
theorem test_decode_lgs : reads true [0x0F, 0xB5, 0xBB, 1, 2, 3, 4] (.lgs 7 ⟨true, 2, 3, none, [1, 2, 3, 4]⟩) = true := by decide
theorem test_decode_jmp_ptr : reads true [0xEA, 0x10, 0x80, 0, 0, 0x08, 0] (.jmpPtr 0x8010 0x0008) = true := by decide
theorem test_decode_call_ptr : reads true [0x9A, 0x10, 0x80, 0, 0, 0x08, 0] (.callPtr 0x8010 0x0008) = true := by decide
theorem test_decode_jmp_mem : reads true [0xFF, 0x2B] (.jmpMem atEbx) = true := by decide
theorem test_decode_call_mem : reads true [0xFF, 0x1B] (.callMem atEbx) = true := by decide
theorem test_decode_retf : reads true [0xCB] .retf = true := by decide
theorem test_decode_retf_imm : reads true [0xCA, 0x04, 0x01] (.retfImm 0x0104) = true := by decide
theorem test_decode_iret : reads true [0xCF] .iret = true := by decide
theorem test_decode_lgdt :
    reads true [0x0F, 0x01, 0x15, 0xF0, 0x1F, 0, 0] (.lgdt ⟨true, 0, 5, none, [0xF0, 0x1F, 0, 0]⟩) = true := by decide
theorem test_decode_sgdt : reads true [0x0F, 0x01, 0x03] (.sgdt atEbx) = true := by decide
theorem test_decode_lldt : reads true [0x0F, 0x00, 0xD0] (.lldt (.reg 0)) = true := by decide
theorem test_decode_sldt : reads true [0x0F, 0x00, 0xC1] (.sldt (.reg 1)) = true := by decide
theorem test_decode_mov_to_cr : reads true [0x0F, 0x22, 0xE0] (.movCrR32 4 0) = true := by decide
theorem test_decode_mov_from_cr : reads true [0x0F, 0x20, 0xD9] (.movR32Cr 1 3) = true := by decide
theorem test_decode_mov_eax_moffs : reads true [0xA1, 0x78, 0x56, 0x34, 0x12] (.movEaxMoffs true 0x12345678) = true := by decide
theorem test_decode_mov_al_moffs : reads false [0xA0, 0x34, 0x12] (.movAlMoffs false 0x1234) = true := by decide
theorem test_decode_mov_moffs_eax : reads true [0xA3, 0, 1, 0, 0] (.movMoffsEax true 0x100) = true := by decide
theorem test_decode_mov_moffs_al : reads true [0xA2, 0x25, 0, 0x20, 0] (.movMoffsAl true 0x200025) = true := by decide
theorem test_decode_push : reads true [0x50] (.pushR32 0) = true ∧ reads true [0x57] (.pushR32 7) = true := by decide
theorem test_decode_pop : reads true [0x58] (.popR32 0) = true ∧ reads true [0x5F] (.popR32 7) = true := by decide
theorem test_decode_seg_es : reads true [0x26] .segEs = true := by decide
theorem test_decode_seg_cs : reads true [0x2E] .segCs = true := by decide
theorem test_decode_seg_ss : reads true [0x36] .segSs = true := by decide
theorem test_decode_seg_ds : reads true [0x3E] .segDs = true := by decide
theorem test_decode_seg_fs : reads true [0x64] .segFs = true := by decide
theorem test_decode_seg_gs : reads true [0x65] .segGs = true := by decide
theorem test_decode_refuses_unknown : (decodeCode true [0x90]) = .error (.unknownOpcode 0x90) := by decide
theorem test_decode_table_word_two_bytes : decodeTableWord 16 0x0FA1 = some .popFs := by decide +kernel
theorem test_decode_table_word_three_bytes :
    decodeTableWord 24 0x0F0110 = some (.lgdt ⟨true, 0, 0, none, []⟩) := by decide +kernel

/-! Vectors of 95_test_vectors.md: the source of each is its section or program. -/

/-- What a load left in a register: selector, base, limit, G, type, DPL, DB. -/
def heldBy (o : Host.Outcome State Fault Refusal) (r : SReg) : Option (Selector × Dword × BitVec 20 × Bool × BitVec 4 × Bool) :=
  (nextState o).map fun t => ((t.seg r).sel, (t.seg r).h.base, (t.seg r).h.limit, (t.seg r).h.g, (t.seg r).h.typ, (t.seg r).h.db)

/-- 2.1. -/
theorem test_selector_fields :
    selIndex 0x001B = 3 ∧ selTI 0x001B = false ∧ selRPL 0x001B = 3 ∧ selTI 0x0007 = true ∧ isNull 0x0004 = false ∧
      selCode 0xFFFF = 0xFFFC := by decide
/-- 2.2, K11: every field distinct. -/
theorem test_descriptor_fields :
    decodeDescriptor 0x5678BCDE 0x121AF334 =
      { base := 0x12345678, limit := 0xABCDE, typ := 3, s := true, dpl := 3, p := true, avl := true, db := false, g := false } ∧
    (decodeDescriptor 0x5678BCDE 0x121AF334).hi = 0x121AF334 := by decide
/-- 2.3. -/
theorem test_effective_limit : effLimit 0xABCDE true = 0xABCDEFFF ∧ effLimit 0 true = 0xFFF ∧ effLimit 0xFFFFF false = 0xFFFFF := by
  decide
/-- 2.4, expand-up: no wrap at the end of a flat segment. -/
theorem test_limit_up :
    segCheck .ds (Hidden.flat 3) 0xFFFFFFFF 1 .read = true ∧ segCheck .ds (Hidden.flat 3) 0xFFFFFFFF 2 .read = false := by decide
/-- 2.4, expand-down. -/
theorem test_limit_down :
    segCheck .ds { Hidden.flat 7 with limit := 0xFFF, g := false, db := false } 0x0FFF 1 .read = false ∧
    segCheck .ds { Hidden.flat 7 with limit := 0xFFF, g := false, db := false } 0xFFFF 1 .write = true ∧
    segCheck .ds { Hidden.flat 7 with limit := 0xFFF, g := false, db := false } 0xFFFE 4 .read = false ∧
    segCheck .ds { Hidden.flat 7 with limit := 0xFFF, g := false } 0xFFFE 4 .read = true := by decide
/-- 2.4, rights by type. -/
theorem test_rights :
    segCheck .cs (Hidden.flat 9) 0 1 .read = false ∧ segCheck .cs (Hidden.flat 9) 0 1 .exec = true ∧
    segCheck .ds (Hidden.flat 11) 0 1 .write = false ∧ segCheck .ds (Hidden.flat 11) 0 1 .exec = false := by decide

/-- 2.9. -/
theorem test_ldseg :
    heldBy (exec (.ldseg .es 0x0020) g0) .es = some (0x0020, 0x00010000, 0x0FFFF, false, 3, false) ∧
    bytesAfter (exec (.ldseg .es 0x0020) g0) 0x2025 1 = some [0x93] := by decide +kernel
/-- 2.9: RPL 3 against DPL 0, and an entry not present. -/
theorem test_ldseg_faults :
    faultOf (exec (.ldseg .ds 0x0013) g0) = some (.generalProtection 0x0010 g0) ∧
    faultOf (exec (.ldseg .fs 0x0030) g0) = some (.segmentNotPresent 0x0030 g0) := by decide +kernel
/-- 2.9. -/
theorem test_ldss :
    heldBy (exec (.ldss 0x0028) g0) .ss = some (0x0028, 0x00020000, 0x00FFF, false, 7, false) ∧
    faultOf (exec (.ldss 0x0038) g0) = some (.generalProtection 0x0038 g0) := by decide +kernel
/-- 2.9, at level 3: CPL is written into bits 1:0. -/
theorem test_ldcs :
    heldBy (exec (.ldcs 0x0040) user) .cs = some (0x0043, 0, 0xFFFFF, true, 0xB, true) ∧
    refusalOf (exec (.ldcs 0x0018) g0) = some .gateOrTss := by decide +kernel
/-- P1, operation 11. -/
theorem test_rdsel : returned (exec (.rdsel .ss) g0) = some (.value 2 0x0010) := by decide +kernel
/-- P1, operation 1. -/
theorem test_lgdtr :
    (nextState (exec (.lgdtr 0x2000 0x47) g0)).map (·.gdtr) = some { base := 0x2000, limit := 0x47 } := by decide +kernel
/-- 2.9. -/
theorem test_lldtr :
    (nextState (exec (.lldtr 0x001B) g0)).map (fun t => (t.ldtr.sel, t.ldtr.h.base, t.ldtr.h.limit, t.ldtr.h.typ)) =
      some (0x001B, 0x00003000, 0x0000F, 2) ∧
    bytesAfter (exec (.lldtr 0x001B) g0) 0x201D 1 = some [0x82] := by decide +kernel

/-- P1, operation 6 and program P1's last entry of memory. -/
theorem test_mwrite :
    bytesAfter (exec (.mwrite .ds 0x100 4 0xCAFEBABE) g0) 0xFF 6 = some [0, 0xBE, 0xBA, 0xFE, 0xCA, 0] := by decide +kernel
/-- P1, operation 14. -/
theorem test_mwrite_code : faultOf (exec (.mwrite .cs 0 1 0) g0) = some (.generalProtection 0 g0) := by decide +kernel
/-- P2, operations 7 and 8, on the stack of operation 2. -/
theorem test_mread :
    returned (exec (.mread .ss 0x1000 1) { smallStack 0x12341000 with mem := place 0x21000 [0x44, 0x33] [] }) =
      some (.value 1 0x44) := by decide +kernel
theorem test_mread_stack_limit :
    faultOf (exec (.mread .ss 0xFFFF 2) (smallStack 0)) = some (.stackFault 0 (smallStack 0)) := by decide +kernel
/-- P1, operation 16. -/
theorem test_mfetch :
    returned (exec (.mfetch 0x7C00 2) { g0 with mem := place 0x7C00 [0x8E, 0xD8] [] }) = some (.bytes [0x8E, 0xD8]) := by
  decide +kernel
/-- 2.10. -/
theorem test_spush :
    (nextState (exec (.spush 2 0xBEEF) (smallStack 0xABCD0000))).map (·.esp) = some 0xABCDFFFE ∧
    bytesAfter (exec (.spush 2 0xBEEF) (smallStack 0xABCD0000)) 0x2FFFE 2 = some [0xEF, 0xBE] := by decide +kernel
/-- 2.10. -/
theorem test_spop :
    (nextState (exec (.spop 2) (smallStack 0x0000FFFE))).map (·.esp) = some 0 ∧
    faultOf (exec (.spop 4) (smallStack 0x0000FFFE)) = some (.stackFault 0 (smallStack 0x0000FFFE)) := by decide +kernel
/-- 2.11. -/
theorem test_sizes :
    (after (exec .pfx66 g0)).operandSize = 16 ∧ (after (exec .pfx67 g0)).addressSize = 16 ∧ g0.operandSize = 32 := by
  decide +kernel

/-- 2.5, through P3's operation 10. -/
theorem test_walk_small :
    returned (exec (.mread .ds 0x00403025 1) paged) = some (.value 1 0x5A) ∧
    bytesAfter (exec (.mread .ds 0x00403025 1) paged) 0x100004 1 = some [0x27] ∧
    bytesAfter (exec (.mread .ds 0x00403025 1) paged) 0x10100C 1 = some [0x27] := by decide +kernel
/-- 2.5, a write: D in the PTE alone. -/
theorem test_walk_write :
    bytesAfter (exec (.mwrite .ds 0x00403026 1 0xA5) paged) 0x200026 1 = some [0xA5] ∧
    bytesAfter (exec (.mwrite .ds 0x00403026 1 0xA5) paged) 0x100004 1 = some [0x27] ∧
    bytesAfter (exec (.mwrite .ds 0x00403026 1 0xA5) paged) 0x10100C 1 = some [0x67] := by decide +kernel
/-- 2.6. -/
theorem test_walk_big :
    (match Machine.translate 0x00C12345 .write .user (Ctx.start paged) with
      | .ok (x, c) => some (x.pa, c.cur.byteAt 0x10000C)
      | .error _ => none) = some (0x00812345, 0xE7) := by decide +kernel
theorem test_walk_reserved : refusalOf (exec (.mread .ds 0x01000000 1) paged) = some .reservedBit := by decide +kernel
/-- P3, operations 13 to 15: the fault leaves the entries as they were. -/
theorem test_page_faults :
    faultOf (exec (.mwrite .ds 0x00404000 1 1) paged) = some (.pageFault 0x00404000 .write .supervisor true paged) ∧
    faultOf (exec (.mread .ds 0x00405000 1) paged) = some (.pageFault 0x00405000 .read .supervisor false paged) ∧
    faultOf (exec (.mread .ds 0x00800000 1) paged) = some (.pageFault 0x00800000 .read .supervisor false paged) := by
  decide +kernel
/-- P4, operations 3 and 18. -/
theorem test_user_faults :
    faultOf (exec (.mread .ds 0x00002038 4) pagedUser) = some (.pageFault 0x00002038 .read .user true pagedUser) ∧
    faultOf (exec (.mfetch 0x00001000 1) pagedUser) = some (.pageFault 0x00001000 .read .user true pagedUser) := by
  decide +kernel
/-- P4, operation 2: the accessed bit is written at supervisor level. -/
theorem test_user_load :
    bytesAfter (exec (.ldseg .es 0x003B) pagedUser) 0x203D 1 = some [0xF3] ∧
    bytesAfter (exec (.ldseg .es 0x003B) pagedUser) 0x100000 1 = some [0xE3] := by decide +kernel

/-- 2.12. -/
theorem test_wrcr0 : (nextState (exec (.wrcr0 0x80000000) g0)).map (·.pg) = some true := by decide +kernel
theorem test_wrcr3 : (nextState (exec (.wrcr3 0x00100FFF) g0)).map (·.cr3) = some 0x00100FFF := by decide +kernel
theorem test_wrcr4 :
    (nextState (exec (.wrcr4 0x0000FF4F) paged)).map (·.cr4) = some { pse := false, pae := false, pge := false } ∧
    faultOf (exec (.wrcr4 0x00000080) g0) = some (.generalProtection 0 g0) := by decide +kernel
theorem test_rdcr : returned (exec (.rdcr 3) paged) = some (.value 4 0x00100000) := by decide +kernel
theorem test_privileged :
    faultOf (exec (.wrcr3 0) user) = some (.generalProtection 0 user) ∧
    faultOf (exec (.rdcr 4) user) = some (.generalProtection 0 user) := by decide +kernel
/-- 2.13. -/
theorem test_canonical :
    isCanonical 48 0x00007FFFFFFFFFFF = true ∧ isCanonical 48 0x0000800000000000 = false ∧
    isCanonical 48 0xFFFF7FFFFFFFFFFF = false ∧ isCanonical 48 0xFFFF800000000000 = true := by decide

/-! The annex, whose rows are the operations above with their operands from registers and memory (R159; P1 to P5). -/

/-- A state with EAX, EBX and ECX. -/
def withRegs (eax ebx ecx : Dword) (s : State) : State := { s with gpr := { s.gpr with eax := eax, ebx := ebx, ecx := ecx } }

/-- P1, operation 4: `8E D8` with AX = 0x0020. -/
theorem test_mov_to_sreg :
    heldBy (exec (.movSregRm16 .ds (.reg 0)) (withRegs 0x0020 0 0 g0)) .ds =
      some (0x0020, 0x00010000, 0x0FFFF, false, 3, false) := by decide +kernel
theorem test_mov_from_sreg :
    bytesAfter (exec (.movRm16Sreg (.mem atEbx) .ss) (withRegs 0 0x500 0 { g0 with mem := place 0x500 [1, 2, 3] [] })) 0x500 3 =
      some [0x10, 0x00, 0x03] := by decide +kernel
theorem test_pop_sreg :
    heldBy (exec .popGs { g0 with mem := place 0x1000 [0x20, 0, 0xFF, 0xFF] g0.mem }) .gs =
      some (0x0020, 0x00010000, 0x0FFFF, false, 3, false) ∧
    (nextState (exec .popGs { g0 with mem := place 0x1000 [0x20, 0, 0xFF, 0xFF] g0.mem })).map (·.esp) = some 0x1004 := by
  decide +kernel
theorem test_far_load :
    (nextState (exec (.lss 4 atEbx) (withRegs 0 0x500 0 { g0 with mem := place 0x500 [4, 0x10, 0x34, 0x12, 0x28] g0.mem }))).map
      (fun t => ((t.seg .ss).sel, t.esp)) = some (0x0028, 0x12341004) := by decide +kernel
/-- P1, operation 2. -/
theorem test_jmp_ptr :
    returned (exec (.jmpPtr 0x8010 0x0008) g0) = some (.target 0x8010) ∧
    bytesAfter (exec (.jmpPtr 0x8010 0x0008) g0) 0x200D 1 = some [0x9B] := by decide +kernel
/-- R274, computed by hand: 1 * 2^39 + 0x102 * 2^30 + 3 * 2^21 + 5 * 2^12 + 0x123. -/
theorem test_long_split :
    longSplit 0x000000C080605123 =
      { pml4 := 1, pointer := 0x102, directory := 3, table := 5, offset4K := 0x123, offset2M := 0x5123, offset1G := 0x605123 } := by
  decide
/-- R159: the CS load marks the descriptor accessed and loads CS; the stack and ESP are as before. -/
theorem test_call :
    (refusalOf (exec (.callPtr 0x8010 0x0008) g0)).bind farTransferState =
      nextState (exec (.ldcs 0x0008) g0) ∧ (nextState (exec (.ldcs 0x0008) g0)).isSome = true := by decide +kernel
theorem test_retf :
    ((refusalOf (exec (.retfImm 8) { g0 with mem := place 0x1000 [0x10, 0x80, 0, 0, 0x08] g0.mem })).bind farTransferState).map
      (fun t => ((t.seg .cs).sel, t.esp)) = some (0x0008, 0x1000) := by decide +kernel
theorem test_iret_outer_level :
    refusalOf (exec .iret { g0 with mem := place 0x1000 [0x10, 0x80, 0, 0, 0x43] g0.mem }) = some .privilegeChange := by
  decide +kernel
/-- P1, operation 1: `0F 01 15 F0 1F 00 00` with the 6 bytes at 0x1FF0. -/
theorem test_lgdt :
    (nextState (exec (.lgdt ⟨true, 0, 5, none, [0xF0, 0x1F, 0, 0]⟩) { g0 with mem := place 0x1FF0 [0x47, 0, 0, 0x20, 0, 0] [] })).map
      (·.gdtr) = some { base := 0x2000, limit := 0x47 } := by decide +kernel
theorem test_sgdt :
    bytesAfter (exec (.sgdt atEbx) (withRegs 0 0x500 0 g0)) 0x500 6 = some [0x67, 0, 0, 0x20, 0, 0] := by decide +kernel
/-- P5, operations 3 and 15. -/
theorem test_lldt :
    (nextState (exec (.lldt (.reg 0)) (withRegs 0x0018 0 0 g0))).map (fun t => (t.ldtr.sel, t.ldtr.h.base)) =
      some (0x0018, 0x00003000) ∧
    faultOf (exec (.lldt (.reg 0)) (withRegs 0x0010 0 0 g0)) = some (.generalProtection 0x0010 (withRegs 0x0010 0 0 g0)) := by
  decide +kernel
theorem test_sldt :
    (nextState (exec (.sldt (.reg 3)) (after (exec (.lldtr 0x0018) g0)))).map (·.gpr.ebx) = some 0x0018 := by decide +kernel
/-- P3, operation 8, and its way back. -/
theorem test_mov_cr :
    (nextState (exec (.movCrR32 3 0) (withRegs 0x00100000 0 0 g0))).map (·.cr3) = some 0x00100000 ∧
    (nextState (exec (.movR32Cr 1 3) paged)).map (·.gpr.ecx) = some 0x00100000 := by decide +kernel
/-- P1, operation 7: `66 A1` reads two bytes into AX and keeps the rest of EAX. -/
theorem test_mov_ax_moffs :
    (nextState (exec (.movEaxMoffs true 0x100)
      (withRegs 0x12345678 0 0 { g0 with pfx := { g0.pfx with op66 := true }, mem := place 0x100 [0xBE, 0xBA, 0xFE] [] }))).map
      (·.gpr.eax) = some 0x1234BABE := by decide +kernel
/-- P1, operation 10: `26 A0`, a null selector in use. -/
theorem test_mov_al_override :
    (faultOf (exec (.movAlMoffs true 0) { g0 with pfx := { g0.pfx with seg := some .es } })).isSome = true := by decide +kernel
theorem test_mov_moffs :
    bytesAfter (exec (.movMoffsEax true 0x100) (withRegs 0xCAFEBABE 0 0 g0)) 0x100 4 = some [0xBE, 0xBA, 0xFE, 0xCA] ∧
    bytesAfter (exec (.movMoffsAl true 0x100) (withRegs 0xCAFEBABE 0 0 g0)) 0x100 2 = some [0xBE, 0] := by decide +kernel
/-- P2, operations 2 and 4. -/
theorem test_push_pop :
    bytesAfter (exec (.pushR32 0) (withRegs 0x11223344 0 0 (smallStack 0x12341004))) 0x21000 4 =
      some [0x44, 0x33, 0x22, 0x11] ∧
    (nextState (exec (.popR32 3) { smallStack 0x12341000 with
      pfx := { g0.pfx with op66 := true }, mem := place 0x21000 [0x44, 0x33, 0x22, 0x11] [] })).map
        (fun t => (t.gpr.ebx, t.esp)) = some (0x3344, 0x12341002) := by decide +kernel

/-! One step. -/

/-- P1, operation 1, from the launch state with the 6 bytes in memory. -/
theorem test_step_runs_bytes :
    (nextState (step { queued g0 (.processor (.code [0x0F, 0x01, 0x15, 0xF0, 0x1F, 0, 0, 0xCB])) with
      mem := place 0x1FF0 [0x47, 0, 0, 0x20, 0, 0] [] })).map (fun t => (t.gdtr.limit, t.queue)) =
      some (0x47, [.processor (.code [0xCB])]) := by decide +kernel
theorem test_fetch_word :
    (nextState (step (g0.withFetchWord 8 0x66))).map (·.pfx.op66) = some true := by decide +kernel

/-! Witnesses: for every statement with hypotheses, a state and operands that meet them together, at the ends of their ranges. -/

theorem memReadable {s : State} {r : SReg} {off : Dword} {n : Nat}
    (h : s.pg = false ∧ segCheck r (s.seg r).h off n .read = true ∧ s.flatReadable ((s.seg r).h.base + off) n) :
    s.flatMemReadable r off n := ⟨h.1, h.2.1, h.2.2⟩

theorem memWritable {s : State} {r : SReg} {off : Dword} {n : Nat}
    (h : s.pg = false ∧ segCheck r (s.seg r).h off n .write = true ∧ s.flatWritable ((s.seg r).h.base + off) n) :
    s.flatMemWritable r off n := ⟨h.1, h.2.1, h.2.2⟩

theorem fetchable {s : State} {sel : Selector}
    (h : s.pg = false ∧ s.selectorInTable sel = true ∧ s.flatReadable (s.descAddr sel) 4 ∧ s.flatReadable (s.descAddr sel + 4) 4 ∧
      reservedBitSet (leValue 32 (s.flatBytes (s.descAddr sel + 4) 4)) = false) : s.flatFetchable sel :=
  ⟨h.1, h.2.1, h.2.2.1, h.2.2.2.1, h.2.2.2.2⟩

theorem loadable {s : State} {r : SReg} {sel : Selector}
    (h : s.pg = false ∧ s.selectorInTable sel = true ∧ s.flatReadable (s.descAddr sel) 4 ∧ s.flatReadable (s.descAddr sel + 4) 4 ∧
      reservedBitSet (leValue 32 (s.flatBytes (s.descAddr sel + 4) 4)) = false)
    (g : isNull sel = false ∧ loadChecks r s.cpl sel (s.flatDescriptor sel) = true ∧ (s.flatDescriptor sel).p = true ∧
      s.kindAt (flat (s.descAddr sel + 5)) = .readWrite) : s.flatLoadable r sel :=
  ⟨g.1, fetchable h, g.2.1, g.2.2.1, fun _ => g.2.2.2⟩

theorem ldtOk {s : State} {sel : Selector}
    (h : s.pg = false ∧ s.selectorInTable sel = true ∧ s.flatReadable (s.descAddr sel) 4 ∧ s.flatReadable (s.descAddr sel + 4) 4 ∧
      reservedBitSet (leValue 32 (s.flatBytes (s.descAddr sel + 4) 4)) = false)
    (g : selTI sel = false ∧ (s.flatDescriptor sel).s = false ∧ (s.flatDescriptor sel).typ = 2#4 ∧ (s.flatDescriptor sel).p = true) :
    s.flatLdtOk sel := .inr ⟨g.1, fetchable h, g.2.1, g.2.2.1, g.2.2.2⟩

theorem walking {s : State} (h : s.pg = true ∧ s.cr4.pae = false ∧ s.tlb = []) : s.walks := ⟨h.1, h.2.1, h.2.2⟩

theorem reaching {s : State} {lin : Linear} (h : s.pg = true ∧ s.cr4.pae = false ∧ s.tlb = [])
    (g : s.entryBacked (s.pdeAddr lin) ∧ entryP (s.pdeOf lin) = true ∧ (s.cr4.pse && entryPS (s.pdeOf lin)) = false ∧
      entryD (s.pdeOf lin) = false ∧ s.entryBacked (pteAddr (s.pdeOf lin) lin)) : s.reachesPte lin :=
  ⟨walking h, g.1, g.2.1, g.2.2.1, g.2.2.2.1, g.2.2.2.2⟩

theorem mappedBig {s : State} {lin : Linear} (h : s.pg = true ∧ s.cr4.pae = false ∧ s.tlb = [])
    (g : s.entryBacked (s.pdeAddr lin) ∧ entryP (s.pdeOf lin) = true ∧ (s.cr4.pse = true ∧ entryPS (s.pdeOf lin) = true) ∧
      (s.pdeOf lin).extractLsb' 12 10 = 0#10) : s.mapsBig lin :=
  ⟨walking h, g.1, g.2.1, g.2.2.1, g.2.2.2⟩

theorem inv_of_fields {s : State} (h : s.mem.wf = true ∧ cplMatchesCs s ∧ csIsCode s ∧ ssIsStack s)
    (p : validIsPresent s.segs.es.h ∧ validIsPresent s.segs.cs.h ∧ validIsPresent s.segs.ss.h ∧ validIsPresent s.segs.ds.h ∧
      validIsPresent s.segs.fs.h ∧ validIsPresent s.segs.gs.h) (l : ldtrIsLdt s)
    (n : ∀ v ∈ [s.segs.es, s.segs.ds, s.segs.fs, s.segs.gs], isNull v.sel = true → v.h.valid = false) : Inv s :=
  ⟨h.1, h.2.1, h.2.2.1, h.2.2.2,
    fun r => match r with
      | .es => p.1
      | .cs => p.2.1
      | .ss => p.2.2.1
      | .ds => p.2.2.2.1
      | .fs => p.2.2.2.2.1
      | .gs => p.2.2.2.2.2,
    l,
    fun r hr => match r, hr with
      | .es, _ => n _ (by simp [State.seg, SegFile.get])
      | .ds, _ => n _ (by simp [State.seg, SegFile.get])
      | .fs, _ => n _ (by simp [State.seg, SegFile.get])
      | .gs, _ => n _ (by simp [State.seg, SegFile.get])⟩

theorem witness_DecodeEncodeAgree :
    (Instr.lds 7 ⟨true, 0, 4, some 0x25, [1, 2, 3, 4]⟩).wf = true ∧
    (Instr.lds 7 ⟨true, 0, 4, some 0x25, [1, 2, 3, 4]⟩).readsUnder true = true ∧
    (Instr.movMoffsEax false 0xFFFF).wf = true ∧ (Instr.movMoffsEax false 0xFFFF).readsUnder false = true ∧
    encode (.movMoffsEax false 0xFFFF) = .code [0xA3, 0xFF, 0xFF] := by decide
theorem witness_DecodedIsWellFormed :
    decodeItem false (.code [0xA1, 0xFF, 0xFF, 0xCB]) = .ok (.movEaxMoffs false 0xFFFF, [.code [0xCB]]) := by decide
theorem witness_StepRunsTheDecoded :
    (queued g0 (.processor (.op .RDCR [.num 3]))).queue = [.processor (.op .RDCR [.num 3])] ∧
    decodeItem (queued g0 (.processor (.op .RDCR [.num 3]))).address32 (.op .RDCR [.num 3]) = .ok (.rdcr 3, []) := by decide +kernel
theorem witness_OtherAgentsMove :
    (queued g0 (.environment 0x100 7)).queue = [.environment 0x100 7] ∧ g0.kindAt 0x100 = .readWrite ∧
    (queued g0 (.environment 0x9000 7)).queue = [.environment 0x9000 7] ∧ g0.kindAt 0x9000 ≠ .readWrite ∧
    (queued g0 (.tlbDrop 0)).queue = [.tlbDrop 0] := by decide +kernel
theorem witness_FaultRestarts :
    step (queued user (.processor (.op .WRCR3 [.num 0]))) =
      .fault (.generalProtection 0 (queued user (.processor (.op .WRCR3 [.num 0])))) := fault_of (by decide +kernel)

theorem witness_LoadsComplete_null : SReg.ds.isData = true ∧ g0.flatLoadOk .ds 0x0003 := ⟨rfl, .inl (by decide)⟩
theorem witness_LoadsComplete_data : SReg.gs.isData = true ∧ g0.flatLoadOk .gs 0x003B :=
  ⟨rfl, .inr (loadable (by decide +kernel) (by decide +kernel))⟩
theorem witness_LoadsComplete_ss : user.flatLoadable .ss 0x003B := loadable (by decide +kernel) (by decide +kernel)
theorem witness_LoadsComplete_cs : user.flatLoadable .cs 0x0040 := loadable (by decide +kernel) (by decide +kernel)
theorem witness_LoadMarksAccessed :
    g0.flatLoadable .es 0x0020 ∧ g0.flatLoadable .ss 0x0028 ∧ g0.flatLoadable .cs 0x0008 ∧ g0.mem.wf = true :=
  ⟨loadable (by decide +kernel) (by decide +kernel), loadable (by decide +kernel) (by decide +kernel),
    loadable (by decide +kernel) (by decide +kernel), by decide +kernel⟩
theorem witness_NullLoads : isNull 0x0003 = true ∧ isNull 0x0000 = true ∧ SReg.gs.isData = true := by decide

theorem witness_LoadFaultOrder_data :
    (isNull 0x0013 = false ∧ g0.flatFetchable 0x0013 ∧ dataLoadOk g0.cpl 0x0013 (g0.flatDescriptor 0x0013) = false) ∧
    isNull 0x0030 = false ∧ g0.flatFetchable 0x0030 ∧ dataLoadOk g0.cpl 0x0030 (g0.flatDescriptor 0x0030) = true ∧
    (g0.flatDescriptor 0x0030).p = false :=
  ⟨⟨by decide, fetchable (by decide +kernel), by decide +kernel⟩, by decide, fetchable (by decide +kernel), by decide +kernel⟩
theorem witness_LoadFaultOrder_stack :
    (isNull 0x0038 = false ∧ g0.flatFetchable 0x0038 ∧ stackLoadOk g0.cpl 0x0038 (g0.flatDescriptor 0x0038) = false) ∧
    isNull 0x0030 = false ∧ g0.flatFetchable 0x0030 ∧ stackLoadOk g0.cpl 0x0030 (g0.flatDescriptor 0x0030) = true ∧
    (g0.flatDescriptor 0x0030).p = false :=
  ⟨⟨by decide, fetchable (by decide +kernel), by decide +kernel⟩, by decide, fetchable (by decide +kernel), by decide +kernel⟩
theorem witness_LoadFaultOrder_system :
    isNull 0x0060 = false ∧ g0.flatFetchable 0x0060 ∧ (g0.flatDescriptor 0x0060).s = false :=
  ⟨by decide, fetchable (by decide +kernel), by decide +kernel⟩
theorem witness_LoadFaultOrder_code :
    (isNull 0x0010 = false ∧ g0.flatFetchable 0x0010 ∧ (g0.flatDescriptor 0x0010).s = true ∧
      codeLoadOk g0.cpl 0x0010 (g0.flatDescriptor 0x0010) = false) ∧
    isNull 0x0058 = false ∧ g0.flatFetchable 0x0058 ∧ (g0.flatDescriptor 0x0058).s = true ∧
    codeLoadOk g0.cpl 0x0058 (g0.flatDescriptor 0x0058) = true ∧ (g0.flatDescriptor 0x0058).p = false :=
  ⟨⟨by decide, fetchable (by decide +kernel), by decide +kernel⟩, by decide, fetchable (by decide +kernel), by decide +kernel⟩
theorem witness_LoadFaultOrder_ldt :
    (isNull 0x0060 = false ∧ g0.flatFetchable 0x0060 ∧ g0.cpl = 0#2 ∧ selTI 0x0060 = false ∧ (g0.flatDescriptor 0x0060).typ ≠ 2#4) ∧
    isNull 0x0050 = false ∧ g0.flatFetchable 0x0050 ∧ g0.cpl = 0#2 ∧ selTI 0x0050 = false ∧ (g0.flatDescriptor 0x0050).s = false ∧
    (g0.flatDescriptor 0x0050).typ = 2#4 ∧ (g0.flatDescriptor 0x0050).p = false :=
  ⟨⟨by decide, fetchable (by decide +kernel), by decide +kernel⟩, by decide, fetchable (by decide +kernel), by decide +kernel⟩
theorem witness_FetchFailures :
    (isNull 0x0068 = false ∧ g0.selectorInTable 0x0068 = false ∧ g0.selectorInTable 0x0060 = true ∧ g0.cpl = 0#2) ∧
    (isNull 0x0004 = false ∧ g0.selectorInTable 0x0004 = false) ∧
    isNull 0x0048 = false ∧ g0.pg = false ∧ g0.selectorInTable 0x0048 = true ∧ g0.flatReadable (g0.descAddr 0x0048) 4 ∧
    g0.flatReadable (g0.descAddr 0x0048 + 4) 4 ∧ reservedBitSet (leValue 32 (g0.flatBytes (g0.descAddr 0x0048 + 4) 4)) = true ∧
    selTI 0x0048 = false := by decide +kernel
theorem witness_LoadedFromItsDescriptor :
    isNull 0x0020 = false ∧ exec (.ldseg .es 0x0020) g0 = .next (after (exec (.ldseg .es 0x0020) g0)) ∧
    isNull 0x0028 = false ∧ exec (.ldss 0x0028) g0 = .next (after (exec (.ldss 0x0028) g0)) ∧
    isNull 0x0008 = false ∧ exec (.ldcs 0x0008) g0 = .next (after (exec (.ldcs 0x0008) g0)) :=
  ⟨by decide, next_after (by decide +kernel), by decide, next_after (by decide +kernel), by decide, next_after (by decide +kernel)⟩
theorem witness_TableRegisterLoads_gdtr : user.cpl ≠ 0#2 ∧ g0.cpl = 0#2 := by decide +kernel
theorem witness_TableRegisterLoads_ldtr :
    g0.cpl = 0#2 ∧ g0.flatLdtOk 0x0003 ∧ g0.flatLdtOk 0x001B ∧ isNull 0x001C = false ∧ selTI 0x001C = true :=
  ⟨by decide, .inl (by decide), ldtOk (by decide +kernel) (by decide +kernel), by decide⟩

theorem witness_SegmentLimits : 0 < 1 ∧ isExpandDown (Hidden.flat 7).typ = true ∧ isExpandDown (Hidden.flat 3).typ = false := by
  decide
theorem witness_AccessViolationFaults :
    segCheck .ss ((smallStack 0).seg .ss).h 0x0FFF 1 .read = false ∧ segCheck .cs (g0.seg .cs).h 0 1 .write = false ∧
    segCheck .ds (g0.seg .ds).h 0xFFFFFFFF 2 .read = false ∧ segCheck .cs g0.segs.cs.h 0xFFFFFFFF 2 .exec = false := by
  decide +kernel
theorem witness_ReadsComplete :
    g0.flatMemReadable .ds 0xFFFFFFFC 4 ∧
    g0.pg = false ∧ segCheck .cs g0.segs.cs.h 0xFFFFFFF1 15 .exec = true ∧ g0.flatReadable (g0.segs.cs.h.base + 0xFFFFFFF1) 15 :=
  ⟨memReadable (by decide +kernel), by decide +kernel⟩
theorem witness_MwriteCompletes : g0.flatMemWritable .ds 0xFFFFFFFC 4 ∧ (smallStack 0).flatMemWritable .ss 0x1000 1 :=
  ⟨memWritable (by decide +kernel), memWritable (by decide +kernel)⟩
theorem witness_StackCompletes :
    { g0 with esp := 0 }.flatPushable 4 ∧ (smallStack 0x12341004).flatPushable 4 ∧
    (smallStack 0x0000FFFE).flatPoppable 2 ∧ g0.flatPoppable 4 :=
  ⟨memWritable (by decide +kernel), memWritable (by decide +kernel), memReadable (by decide +kernel),
    memReadable (by decide +kernel)⟩

/-- A translation of bytes answers, with addresses that all meet `p`. -/
def answers (p : State → PhysAddr → Bool) (x : Except Stop (List PhysAddr × Ctx)) : Bool :=
  match x with
  | .ok a => a.1.all (p a.2.cur)
  | .error _ => false

theorem of_answers {p : State → PhysAddr → Bool} {x : Except Stop (List PhysAddr × Ctx)} (h : answers p x = true) :
    ∃ (pas : List PhysAddr) (c : Ctx), x = .ok (pas, c) ∧ ∀ pa ∈ pas, p c.cur pa = true := by
  cases x
  · exact absurd h Bool.false_ne_true
  · exact ⟨_, _, rfl, fun pa hp => List.all_eq_true.mp h pa hp⟩

/-- The same, with the addresses given. -/
def lists (p : State → PhysAddr → Bool) (l : List PhysAddr) (x : Except Stop (List PhysAddr × Ctx)) : Bool :=
  match x with
  | .ok a => a.1.all (p a.2.cur) && a.1 == l
  | .error _ => false

theorem of_lists {p : State → PhysAddr → Bool} {l : List PhysAddr} {x : Except Stop (List PhysAddr × Ctx)}
    (h : lists p l x = true) :
    ∃ (pas : List PhysAddr) (c : Ctx), x = .ok (pas, c) ∧ (∀ pa ∈ pas, p c.cur pa = true) ∧ pas = l := by
  cases x
  · exact absurd h Bool.false_ne_true
  · have h := Bool.and_eq_true_iff.mp h
    exact ⟨_, _, rfl, fun pa hp => List.all_eq_true.mp h.1 pa hp, eq_of_beq h.2⟩

theorem witness_AccessFollowsTranslation_read :
    segCheck .ds (paged.seg .ds).h 0x00403FFE 4 .read = true ∧
    ∃ (pas : List PhysAddr) (c : Ctx),
      translateBytes .read paged.level 4 ((paged.seg .ds).h.base + 0x00403FFE) none (Ctx.start paged) = .ok (pas, c) ∧
      ∀ pa ∈ pas, paged.isMemory pa := by
  refine ⟨by decide +kernel, ?_⟩
  obtain ⟨pas, c, h, g⟩ := of_answers (p := fun _ pa => decide (paged.isMemory pa))
    (x := translateBytes .read paged.level 4 ((paged.seg .ds).h.base + 0x00403FFE) none (Ctx.start paged)) (by decide +kernel)
  exact ⟨pas, c, h, fun pa hp => of_decide_eq_true (g pa hp)⟩
/-- `paged`, with no memory behind the page of PTE 4; PTE 5 is not present. -/
def pagedHole : State := { paged with platform := { paged.platform with physMap := [{ base := 0, size := 0x00201000, kind := .readWrite }] } }

/-- R126, R130: the last bytes of the first page are read, and refused, before the next page (not present) is translated. -/
theorem test_crossing_read_order :
    refusalOf (exec (.mread .ds 0x00404FFE 4) pagedHole) = some (.unbacked 0x00201FFE) := by decide +kernel
theorem witness_AccessFollowsTranslation_unbacked :
    segCheck .ds (pagedHole.seg .ds).h 0x00403FFE 4 .read = true ∧ 2 < 4 ∧ pagedHole.kindAt 0x00201000 = .nothing ∧
    ∃ (pas : List PhysAddr) (c : Ctx),
      translateBytes .read pagedHole.level 3 ((pagedHole.seg .ds).h.base + 0x00403FFE) none (Ctx.start pagedHole) =
        .ok (pas ++ [0x00201000], c) ∧
      ∀ p ∈ pas, pagedHole.isMemory p := by
  refine ⟨by decide +kernel, by decide, by decide +kernel, [0x00200FFE, 0x00200FFF], ?_⟩
  obtain ⟨pas, c, h, _, e⟩ := of_lists (p := fun _ _ => true) (l := [0x00200FFE, 0x00200FFF, 0x00201000])
    (x := translateBytes .read pagedHole.level 3 ((pagedHole.seg .ds).h.base + 0x00403FFE) none (Ctx.start pagedHole)) (by decide +kernel)
  have hm : ([0x00200FFE, 0x00200FFF] : List PhysAddr).all (fun p => decide (pagedHole.isMemory p)) = true := by decide +kernel
  exact ⟨c, by rw [h, e]; rfl, fun p hp => of_decide_eq_true (List.all_eq_true.mp hm p hp)⟩
theorem witness_AccessFollowsTranslation_write :
    segCheck .ds (paged.seg .ds).h 0x00403FFC 4 .write = true ∧ paged.mem.wf = true ∧
    ∃ (pas : List PhysAddr) (c : Ctx),
      translateBytes .write paged.level 4 ((paged.seg .ds).h.base + 0x00403FFC) none (Ctx.start paged) = .ok (pas, c) ∧
      (∀ pa ∈ pas, c.cur.kindAt pa = .readWrite) ∧ pas.Nodup ∧ pas[3]? = some 0x00200FFF := by
  refine ⟨by decide +kernel, by decide +kernel, ?_⟩
  obtain ⟨pas, c, h, g, e⟩ := of_lists (p := fun s pa => decide (s.kindAt pa = .readWrite))
    (l := [0x00200FFC, 0x00200FFD, 0x00200FFE, 0x00200FFF])
    (x := translateBytes .write paged.level 4 ((paged.seg .ds).h.base + 0x00403FFC) none (Ctx.start paged)) (by decide +kernel)
  exact ⟨pas, c, h, fun pa hp => of_decide_eq_true (g pa hp), e ▸ by decide, e ▸ rfl⟩
theorem witness_ReadAfterWrite :
    g0.mem.wf = true ∧ 4 ≤ 4 ∧ 0 < 1 ∧ 1 ≤ 4 ∧ g0.flatMemWritable .ds 0x100 4 ∧
    exec (.mwrite .ds 0x100 4 0xCAFEBABE) g0 = .next (after (exec (.mwrite .ds 0x100 4 0xCAFEBABE) g0)) :=
  ⟨by decide +kernel, by decide, by decide, by decide, memWritable (by decide +kernel), next_after (by decide +kernel)⟩
theorem witness_PopAfterPush :
    (smallStack 0).mem.wf = true ∧ valueFits 2 0xFFFF = true ∧ (smallStack 0).flatPushable 2 ∧
    exec (.spush 2 0xFFFF) (smallStack 0) = .next (after (exec (.spush 2 0xFFFF) (smallStack 0))) ∧
    g0.mem.wf = true ∧ valueFits 4 0xFFFFFFFF = true ∧ g0.flatPushable 4 ∧
    exec (.spush 4 0xFFFFFFFF) g0 = .next (after (exec (.spush 4 0xFFFFFFFF) g0)) :=
  ⟨by decide +kernel, by decide, memWritable (by decide +kernel), next_after (by decide +kernel), by decide +kernel, by decide,
    memWritable (by decide +kernel), next_after (by decide +kernel)⟩
theorem witness_PhysicalKinds :
    g0.pg = false ∧
    (segCheck .ds (g0.seg .ds).h 0x9000 1 .write = true ∧ g0.kindAt (flat ((g0.seg .ds).h.base + 0x9000)) = .readOnly) ∧
    (segCheck .ds (g0.seg .ds).h 0xA000 1 .write = true ∧ segCheck .ds (g0.seg .ds).h 0xA000 1 .read = true ∧
      g0.kindAt (flat ((g0.seg .ds).h.base + 0xA000)) = .io) ∧
    segCheck .ds (g0.seg .ds).h 0xBFFF 1 .write = true ∧ segCheck .ds (g0.seg .ds).h 0xBFFF 1 .read = true ∧
    g0.kindAt (flat ((g0.seg .ds).h.base + 0xBFFF)) = .nothing := by decide +kernel
theorem witness_SizePrefixes : (⟨false, 0, 6, none, [0xFE, 0xFF]⟩ : MemArg).a32 = false := rfl
theorem witness_OverridePrefixes : g0.pfx.seg = none := by decide +kernel

theorem paged_reaches : paged.reachesPte 0x00403025 := reaching (by decide +kernel) (by decide +kernel)
theorem paged_small : paged.mapsSmall 0x00403025 := ⟨paged_reaches, by decide +kernel, by decide +kernel⟩
theorem paged_readOnly : paged.mapsSmall 0x00404000 :=
  ⟨reaching (by decide +kernel) (by decide +kernel), by decide +kernel, by decide +kernel⟩
theorem paged_big : paged.mapsBig 0x00C12345 := mappedBig (by decide +kernel) (by decide +kernel)
theorem witness_PageWalks_small :
    paged.mapsSmall 0x00403025 ∧ paged.smallPermits 0x00403025 .supervisor .write = true ∧
    paged.smallPermits 0x00403025 .user .read = true ∧ paged.pdeAddr 0x00403025 ≠ pteAddr (paged.pdeOf 0x00403025) 0x00403025 :=
  ⟨paged_small, by decide +kernel⟩
theorem witness_PageWalks_big :
    paged.mapsBig 0x00C12345 ∧ paged.bigPermits 0x00C12345 .supervisor .write = true ∧ paged.bigPermits 0x00C12345 .user .read = true :=
  ⟨paged_big, by decide +kernel⟩
/-- A page directory that is its own page table for its last 4 MBytes: one entry is PDE and PTE. -/
def selfMapped : State := { paged with mem := place 0x100FFC [0x07, 0, 0x10, 0] paged.mem }
theorem witness_PageWalks_self :
    selfMapped.mapsSmall 0xFFFFF000 ∧ selfMapped.smallPermits 0xFFFFF000 .user .write = true ∧
    selfMapped.pdeAddr 0xFFFFF000 = pteAddr (selfMapped.pdeOf 0xFFFFF000) 0xFFFFF000 :=
  ⟨⟨reaching (by decide +kernel) (by decide +kernel), by decide +kernel, by decide +kernel⟩, by decide +kernel⟩
theorem witness_PageFaults_absent :
    (0x00800000 = (paged.seg .ds).h.base + 0x00800000 ∧ paged.walks ∧
      segCheck .ds (paged.seg .ds).h 0x00800000 1 .read = true ∧ segCheck .ds (paged.seg .ds).h 0x00800000 1 .write = true ∧
      paged.entryBacked (paged.pdeAddr 0x00800000) ∧ entryP (paged.pdeOf 0x00800000) = false) ∧
    0x00405000 = (paged.seg .ds).h.base + 0x00405000 ∧ paged.reachesPte 0x00405000 ∧
    segCheck .ds (paged.seg .ds).h 0x00405000 1 .read = true ∧ segCheck .ds (paged.seg .ds).h 0x00405000 1 .write = true ∧
    entryP (paged.pteOf 0x00405000) = false :=
  ⟨⟨by decide +kernel, walking (by decide +kernel), by decide +kernel⟩, by decide +kernel,
    reaching (by decide +kernel) (by decide +kernel), by decide +kernel⟩
theorem witness_PageFaults_denied_read :
    (pagedUser.walks ∧ segCheck .ds (pagedUser.seg .ds).h 0x00407000 1 .read = true ∧ pagedUser.mapsSmall 0x00407000 ∧
      pagedUser.smallPermits 0x00407000 pagedUser.level .read = false) ∧
    segCheck .ds (pagedUser.seg .ds).h 0x00002038 4 .read = true ∧ pagedUser.mapsBig 0x00002038 ∧
    pagedUser.bigPermits 0x00002038 pagedUser.level .read = false :=
  ⟨⟨walking (by decide +kernel), by decide +kernel,
      ⟨reaching (by decide +kernel) (by decide +kernel), by decide +kernel, by decide +kernel⟩, by decide +kernel⟩,
    by decide +kernel, mappedBig (by decide +kernel) (by decide +kernel), by decide +kernel⟩
theorem witness_PageFaults_denied_write :
    (paged.walks ∧ segCheck .ds (paged.seg .ds).h 0x00404000 1 .write = true ∧ paged.mapsSmall 0x00404000 ∧
      paged.smallPermits 0x00404000 paged.level .write = false) ∧
    segCheck .ds (pagedUser.seg .ds).h 0x00002038 4 .write = true ∧ pagedUser.mapsBig 0x00002038 ∧
    pagedUser.bigPermits 0x00002038 pagedUser.level .write = false :=
  ⟨⟨walking (by decide +kernel), by decide +kernel, paged_readOnly, by decide +kernel⟩, by decide +kernel,
    mappedBig (by decide +kernel) (by decide +kernel), by decide +kernel⟩
theorem witness_PagedReadCompletes :
    0x00403FFC = (paged.seg .ds).h.base + 0x00403FFC ∧ 0 < 4 ∧ segCheck .ds (paged.seg .ds).h 0x00403FFC 4 .read = true ∧
    paged.mapsSmall 0x00403FFC ∧ paged.smallPermits 0x00403FFC paged.level .read = true ∧ (0x00403FFC : Linear).toNat % 4096 + 4 ≤ 4096 ∧
    (0x00200FFC : PhysAddr).toNat = (paged.pteOf 0x00403FFC).toNat / 4096 * 4096 + (0x00403FFC : Linear).toNat % 4096 ∧
    ∀ i : Nat, i < 4 → paged.isMemory (0x00200FFC + BitVec.ofNat 36 i) :=
  ⟨by decide +kernel, by decide, by decide +kernel,
    ⟨reaching (by decide +kernel) (by decide +kernel), by decide +kernel, by decide +kernel⟩, by decide +kernel⟩
theorem witness_WalkRefusals :
    ({ paged with cr4 := { paged.cr4 with pae := true } }.pg = true ∧ { paged with cr4 := { paged.cr4 with pae := true } }.cr4.pae = true) ∧
    (paged.walks ∧ paged.entryBacked (paged.pdeAddr 0x01000000) ∧ entryP (paged.pdeOf 0x01000000) = true ∧ paged.cr4.pse = true ∧
      entryPS (paged.pdeOf 0x01000000) = true ∧ (paged.pdeOf 0x01000000).extractLsb' 12 10 ≠ 0#10) ∧
    (paged.entryBacked (paged.pdeAddr 0x01400000) ∧ entryP (paged.pdeOf 0x01400000) = true ∧
      (paged.cr4.pse && entryPS (paged.pdeOf 0x01400000)) = false ∧ entryD (paged.pdeOf 0x01400000) = true) ∧
    paged.reachesPte 0x00406000 ∧ entryP (paged.pteOf 0x00406000) = true ∧ entryPS (paged.pteOf 0x00406000) = true :=
  ⟨by decide +kernel, ⟨walking (by decide +kernel), by decide +kernel⟩, by decide +kernel,
    reaching (by decide +kernel) (by decide +kernel), by decide +kernel⟩
theorem witness_TlbAnswersOrWalks : (Ctx.start paged).cur.pg = true ∧ (Ctx.start paged).cur.cr4.pae = false := by decide +kernel

theorem witness_ControlRegisterWrites : user.cpl ≠ 0#2 ∧ g0.cpl = 0#2 := by decide +kernel
theorem witness_ControlMoves :
    (withRegs 0x30 0 0 g0).cpl = 0#2 ∧ cr4Supported (withRegs 0x30 0 0 g0).platform (cr4Of ((withRegs 0x30 0 0 g0).reg 0)) = true := by
  decide +kernel
theorem witness_ControlRegisterWrites_cr4 :
    (BitVec.getLsbD (0x80 : Dword) 7 = true ∧ g0.platform.hasPGE = false) ∧
    ¬((BitVec.getLsbD (0x30 : Dword) 4 = true ∧ g0.platform.hasPSE = false) ∨
      (BitVec.getLsbD (0x30 : Dword) 5 = true ∧ g0.platform.hasPAE = false) ∨
      (BitVec.getLsbD (0x30 : Dword) 7 = true ∧ g0.platform.hasPGE = false)) := by decide +kernel
theorem witness_OperationsThatStop :
    isCanonical g0.platform.vaBits 0x0000800000000000 = false ∧ isCanonical g0.platform.vaBits 0xFFFF800000000000 = true := by
  decide +kernel

/-- EBX points to a far pointer at 0x500: offset 0x8010, selector 0x0008; or, at 0x508, selector 0x0020. -/
def pointing (ebx : Dword) : State :=
  withRegs 0 ebx 0 { g0 with mem := place 0x500 [0x10, 0x80, 0, 0, 0x08, 0, 0, 0, 0x10, 0x80, 0, 0, 0x20] g0.mem }

/-- The stack holds an offset, the selector 0x0008 and a third item; at 0x1010 the selector is 0x0043. -/
def stacked (esp : Dword) : State :=
  { g0 with esp := esp, mem := place 0x1000 [0x10, 0x80, 0, 0, 0x08, 0, 0, 0, 2, 0, 0, 0, 0, 0, 0, 0, 0x10, 0x80, 0, 0, 0x43] g0.mem }

theorem witness_SregLoadsComplete_mov :
    SReg.es ≠ .cs ∧ (pointing 0x50C).flatSource16 (.mem atEbx) ∧ (pointing 0x50C).flatLoadOk .es ((pointing 0x50C).source16 (.mem atEbx)) :=
  ⟨by decide, memReadable (by decide +kernel), .inr (loadable (by decide +kernel) (by decide +kernel))⟩
theorem witness_SregLoadsComplete_pop :
    (stacked 0x1004).flatPoppable (stacked 0x1004).operandBytes ∧
    0x0008 = leValue 16 ((stacked 0x1004).flatPopBytes (stacked 0x1004).operandBytes) ∧
    ((stacked 0x1004).popped (stacked 0x1004).operandBytes).flatLoadOk .fs 0x0008 :=
  ⟨memReadable (by decide +kernel), by decide +kernel, .inr (loadable (by decide +kernel) (by decide +kernel))⟩
theorem witness_SregLoadsComplete_popSs :
    { stacked 0x1004 with mem := place 0x1004 [0x28] g0.mem }.flatPoppable 4 ∧
    ({ stacked 0x1004 with mem := place 0x1004 [0x28] g0.mem }.popped 4).flatLoadOk .ss 0x0028 :=
  ⟨memReadable (by decide +kernel), .inr (loadable (by decide +kernel) (by decide +kernel))⟩
theorem witness_SelectorStoresComplete : (pointing 0x500).flatDest16 (.mem atEbx) ∧ g0.flatDest16 (.reg 4) :=
  ⟨memWritable (by decide +kernel), trivial⟩
theorem witness_FarLoadsComplete :
    (pointing 0x508).flatOperandReadable atEbx 6 ∧ (pointing 0x508).flatLoadOk .es ((pointing 0x508).farSelector atEbx) :=
  ⟨memReadable (by decide +kernel), .inr (loadable (by decide +kernel) (by decide +kernel))⟩
theorem witness_FarLoadsComplete_ss :
    (pointing 0x508).flatOperandReadable atEbx 6 ∧ (pointing 0x508).flatLoadOk .ss ((pointing 0x508).farSelector atEbx) :=
  ⟨memReadable (by decide +kernel), .inr (loadable (by decide +kernel) (by decide +kernel))⟩
theorem witness_FarJumpsComplete :
    g0.flatLoadable .cs 0x0008 ∧ (pointing 0x500).flatOperandReadable atEbx 6 ∧
    (pointing 0x500).flatLoadable .cs ((pointing 0x500).farSelector atEbx) :=
  ⟨loadable (by decide +kernel) (by decide +kernel), memReadable (by decide +kernel), loadable (by decide +kernel) (by decide +kernel)⟩
theorem witness_FarCallsAndReturnsStop_call :
    g0.flatLoadable .cs 0x0008 ∧ (pointing 0x500).flatOperandReadable atEbx 6 :=
  ⟨loadable (by decide +kernel) (by decide +kernel), memReadable (by decide +kernel)⟩
theorem witness_FarCallsAndReturnsStop_return :
    (stacked 0x1000).flatPoppable (stacked 0x1000).operandBytes ∧
    ((stacked 0x1000).popped (stacked 0x1000).operandBytes).flatPoppable (stacked 0x1000).operandBytes ∧
    (stacked 0x1000).returnSelector = 0x0008 ∧
    (stacked 0x1010).flatPoppable (stacked 0x1010).operandBytes ∧
    ((stacked 0x1010).popped (stacked 0x1010).operandBytes).flatPoppable (stacked 0x1010).operandBytes ∧
    isNull (stacked 0x1010).returnSelector = false ∧ (stacked 0x1010).cpl < selRPL (stacked 0x1010).returnSelector :=
  ⟨memReadable (by decide +kernel), memReadable (by decide +kernel), by decide +kernel, memReadable (by decide +kernel),
    memReadable (by decide +kernel), by decide +kernel, by decide +kernel⟩
theorem witness_TableMovesComplete :
    g0.cpl = 0#2 ∧ (pointing 0x500).flatOperandReadable atEbx 6 ∧
    (pointing 0x500).flatMemWritable ((pointing 0x500).operandAt atEbx).1 ((pointing 0x500).operandAt atEbx).2 6 ∧
    (withRegs 0x0018 0 0 g0).flatSource16 (.reg 0) ∧ (withRegs 0x0018 0 0 g0).flatLdtOk ((withRegs 0x0018 0 0 g0).source16 (.reg 0)) :=
  ⟨by decide +kernel, memReadable (by decide +kernel), memWritable (by decide +kernel), trivial,
    ldtOk (by decide +kernel) (by decide +kernel)⟩
theorem witness_MoffsMovesComplete :
    (0xFFFC : Dword) = (if false = true then 0x1FFFC else ((0x1FFFC : Dword).setWidth 16).setWidth 32) ∧ 4 = g0.operandBytes ∧
    g0.flatMemReadable (g0.operandSeg false) 0xFFFC 4 ∧ g0.flatMemReadable (g0.operandSeg false) 0xFFFC 1 ∧
    g0.flatMemWritable (g0.operandSeg false) 0xFFFC 4 ∧ g0.flatMemWritable (g0.operandSeg false) 0xFFFC 1 :=
  ⟨by decide, by decide +kernel, memReadable (by decide +kernel), memReadable (by decide +kernel), memWritable (by decide +kernel),
    memWritable (by decide +kernel)⟩
theorem witness_PushPopComplete : 4 = g0.operandBytes ∧ g0.flatPushable 4 ∧ g0.flatPoppable 4 :=
  ⟨by decide +kernel, memWritable (by decide +kernel), memReadable (by decide +kernel)⟩

theorem witness_StepKeepsInvariant :
    Inv (queued g0 (.processor (.op .LDSS [.num 0x0028]))) ∧
    step (queued g0 (.processor (.op .LDSS [.num 0x0028]))) =
      .next (after (step (queued g0 (.processor (.op .LDSS [.num 0x0028]))))) :=
  ⟨inv_of_fields (by decide +kernel) (by decide +kernel) (by decide +kernel) (by decide +kernel), next_after (by decide +kernel)⟩
theorem witness_FaultsArePrecise :
    (Instr.ldseg .fs 0x0030).wf = true ∧ exec (.ldseg .fs 0x0030) g0 = .fault (.segmentNotPresent 0x0030 g0) :=
  ⟨by decide, fault_of (by decide +kernel)⟩
theorem witness_LevelNeverChanges :
    step (queued user (.processor (.op .LDCS [.num 0x0040]))) =
      .next (after (step (queued user (.processor (.op .LDCS [.num 0x0040]))))) := next_after (by decide +kernel)
theorem witness_SystemStateIsPrivileged :
    user.cpl ≠ 0#2 ∧ onlyLevel0 (.lgdt atEbx) = true ∧
    step (queued user (.processor (.op .SPUSH [.num 4, .num 1]))) =
      .next (after (step (queued user (.processor (.op .SPUSH [.num 4, .num 1]))))) :=
  ⟨by decide +kernel, rfl, next_after (by decide +kernel)⟩
theorem witness_SegmentsChangeByLoads :
    (Instr.mwrite .ds 0x2015 1 0).wf = true ∧ loadsSeg (.mwrite .ds 0x2015 1 0) ≠ some .ds ∧
    exec (.mwrite .ds 0x2015 1 0) g0 = .next (after (exec (.mwrite .ds 0x2015 1 0) g0)) :=
  ⟨by decide, by decide, next_after (by decide +kernel)⟩
theorem witness_ReadersKeepMemory :
    storesNothing (.mread .ds 0x00403025 1) = true ∧
    exec (.mread .ds 0x00403025 1) paged = .next (after (exec (.mread .ds 0x00403025 1) paged)) ∧
    exec (.mread .ds 0x00403025 1) g0 = .next (after (exec (.mread .ds 0x00403025 1) g0)) ∧ g0.pg = false :=
  ⟨rfl, next_after (by decide +kernel), next_after (by decide +kernel), by decide +kernel⟩

end Sys2Proof.Tests
end

section
/-! No step changes CPL or a parameter of the platform (spec/60_exceptions.md R306; spec/00_scope.md R7). Each change an operation
can make, as the `..._ends` lemmas name it, keeps both; so does a whole operation, an instruction, and a step of any agent. -/

namespace Sys2Proof.Machine

/-- CPL and the platform's parameters are the same in both states. -/
structure SameLevel (s t : State) : Prop where
  cpl : t.cpl = s.cpl
  platform : t.platform = s.platform

theorem SameLevel.trans {s t u : State} (h : SameLevel s t) (g : SameLevel t u) : SameLevel s u :=
  ⟨g.cpl.trans h.cpl, g.platform.trans h.platform⟩

theorem SameLevel.finish (s : State) (r : Result) : SameLevel s (s.finish r) := ⟨rfl, rfl⟩

theorem SameLevel.setQueue (s : State) (q : List Event) : SameLevel s (s.setQueue q) := ⟨rfl, rfl⟩

theorem SameLevel.setSeg (s : State) (r : SReg) (v : SegReg) : SameLevel s (s.setSeg r v) := ⟨rfl, rfl⟩

theorem SameLevel.dropRecord (s : State) (k : Nat) : SameLevel s (s.dropRecord k) := ⟨rfl, rfl⟩

theorem Quiet.sameLevel {s t : State} (h : Quiet s t) : SameLevel s t := by
  obtain ⟨_, _, _, _, _, _, hcpl, hplatform, _⟩ := h.fields
  exact ⟨hcpl, hplatform⟩

theorem Grown.sameLevel {s t : State} (h : Grown s t) : SameLevel s t := h.quiet.sameLevel

theorem Moved.sameLevel {r : SReg} {s t : State} (h : Moved r s t) : SameLevel s t := by
  obtain ⟨_, _, _, _, _, hcpl, hplatform, _⟩ := h.fields
  exact ⟨hcpl, hplatform⟩

theorem Retabled.sameLevel {s t : State} (h : Retabled s t) : SameLevel s t :=
  ⟨h.grown.sameLevel.cpl, h.grown.sameLevel.platform⟩

theorem State.environmentWrite_quiet (s : State) (pa : PhysAddr) (b : Byte) : Quiet s (s.environmentWrite pa b) := by
  unfold State.environmentWrite
  split
  · exact .write s _ b
  · exact .refl s

/-- A part of an operation ends with whatever its answer's property implies. -/
theorem Ends.imp {α : Type} {x : Except Stop α} {Q Q' : α → Prop} {E : State → Prop} (hx : Ends x Q E)
    (hq : ∀ a, Q a → Q' a) : Ends x Q' E :=
  hx.mono hq fun _ he => he

section Base
variable {k : State} {c : Ctx}

/-- LDSEG keeps the level whatever register it is given, CS too, which no well-formed instruction gives it. -/
theorem ldseg_sameLevel (r : SReg) (sel : Selector) (hk : Grown k c.kept) :
    Ends (ldseg r sel c) (fun d => SameLevel c.cur d.cur) (Grown k) := by
  unfold ldseg
  split
  · exact Ends.ok (.setSeg _ _ _)
  · refine (fetchDescriptor_ends sel hk).bind fun ⟨e, c1⟩ hx => ?_
    simp only at hx ⊢
    split
    · exact Ends.raise rfl hx.2
    · split
      · exact Ends.raise rfl hx.2
      · refine (setAccessed_ends sel e hx.2).bind fun d hd => ?_
        exact Ends.ok ((hx.1.sameLevel.trans hd.1.sameLevel).trans (.setSeg _ _ _))

theorem loadSreg_sameLevel (r : SReg) (sel : Selector) (hk : Grown k c.kept) :
    Ends (loadSreg r sel c) (fun d => SameLevel c.cur d.cur) (Grown k) := by
  unfold loadSreg
  split
  · exact (ldss_ends sel hk).imp fun _ hd => hd.1.sameLevel
  · exact ldseg_sameLevel r sel hk

theorem lgdtr_sameLevel (base : Linear) (limit : BitVec 16) (hk : Grown k c.kept) :
    Ends (lgdtr base limit c) (fun d => SameLevel c.cur d.cur) (Grown k) :=
  (lgdtr_ends base limit hk).imp fun _ ⟨_, hcur, _⟩ => by rw [hcur]; exact ⟨rfl, rfl⟩

theorem writeCr_sameLevel (j : Nat) (v : Dword) (hk : Grown k c.kept) :
    Ends (writeCr j v c) (fun d => SameLevel c.cur d.cur) (Grown k) :=
  (writeCr_ends j v hk).imp fun _ ⟨_, hcur, _⟩ => by rw [hcur]; exact ⟨rfl, rfl⟩

/-- MACCESS64 never completes (43_long_mode.md R273): a canonical address is refused, any other raises. -/
theorem maccess64_ends (va : BitVec 64) (hk : Grown k c.kept) : Ends (maccess64 va c) (fun _ => False) (Grown k) := by
  unfold maccess64
  split
  · exact Ends.refuse
  · exact Ends.raise rfl hk

end Base

section Whole
variable {s t : State} {E : State → Prop}

/-- A whole operation keeps the level where its body does. -/
theorem runOp_sameLevel {f : Ctx → Except Stop (Result × Ctx)} (h : runOp f s = .next t)
    (hf : Ends (f (Ctx.start s)) (fun x => SameLevel s x.2.cur) E) : SameLevel s t :=
  (runOp_cases (hf.imp fun _ hx r => hx.trans (.finish _ r))).1 t h

/-- The same for an operation that returns nothing. -/
theorem runQuiet_sameLevel {f : Ctx → Except Stop Ctx} (h : runQuiet f s = .next t)
    (hf : Ends (f (Ctx.start s)) (fun d => SameLevel s d.cur) E) : SameLevel s t :=
  (runQuiet_cases (hf.imp fun _ hd r => hd.trans (.finish _ r))).1 t h

/-- A body whose changes are quiet. -/
theorem runQuiet_sameLevel_of_quiet {f : Ctx → Except Stop Ctx} (h : runQuiet f s = .next t)
    (hf : Ends (f (Ctx.start s)) (fun d => Quiet s d.cur ∧ Grown s d.kept) E) : SameLevel s t :=
  runQuiet_sameLevel h (hf.imp fun _ hd => hd.1.sameLevel)

/-- A body that loads a segment register. -/
theorem runQuiet_sameLevel_of_moved {f : Ctx → Except Stop Ctx} {r : SReg} (h : runQuiet f s = .next t)
    (hf : Ends (f (Ctx.start s)) (fun d => Moved r s d.cur ∧ Grown s d.kept) E) : SameLevel s t :=
  runQuiet_sameLevel h (hf.imp fun _ hd => hd.1.sameLevel)

/-- With a body that never completes, no next state is answered. -/
theorem runQuiet_ne_next {f : Ctx → Except Stop Ctx} (hf : Ends (f (Ctx.start s)) (fun _ => False) E) :
    runQuiet f s ≠ .next t :=
  fun h => (runQuiet_cases (P := fun _ => False) (hf.imp fun _ hd => hd.elim)).1 t h

end Whole

theorem start_grown (s : State) : Grown s (Ctx.start s).kept := .refl s

/-! The meanings that are more than one call of a shared operation. -/

section Meanings
variable {s t : State}

theorem execRdsel_sameLevel {r : SReg} (h : execRdsel r s = .next t) : SameLevel s t :=
  runOp_sameLevel (E := Grown s) h (Ends.ok ⟨rfl, rfl⟩)

theorem execMread_sameLevel {r : SReg} {off : Dword} {n : Nat} (h : execMread r off n s = .next t) : SameLevel s t :=
  runOp_sameLevel h ((memRead_ends r off n (start_grown s)).bind fun _ hx => Ends.ok hx.1.sameLevel)

theorem execMfetch_sameLevel {off : Dword} {n : Nat} (h : execMfetch off n s = .next t) : SameLevel s t :=
  runOp_sameLevel h ((logicalToLinear_ends .cs off n .exec (start_grown s)).bind fun lin _ =>
    (fetchBytes_ends _ n lin (start_grown s)).bind fun _ hx => Ends.ok hx.1.sameLevel)

theorem execSpop_sameLevel {n : Nat} (h : execSpop n s = .next t) : SameLevel s t :=
  runOp_sameLevel h ((spop_ends n (start_grown s)).bind fun _ hx => Ends.ok hx.1.sameLevel)

theorem execRdcr_sameLevel {j : Nat} (h : execRdcr j s = .next t) : SameLevel s t :=
  runOp_sameLevel h ((readCr_ends j (start_grown s)).bind fun _ hx => Ends.ok hx.2.1.sameLevel)

theorem execMovSregRm16_sameLevel {r : SReg} {src : RM} (h : execMovSregRm16 r src s = .next t) : SameLevel s t :=
  runQuiet_sameLevel h ((readRM16_ends src (start_grown s)).bind fun x hx =>
    (loadSreg_sameLevel r x.1 hx.2).imp fun _ hd => hx.1.sameLevel.trans hd)

theorem execJmpMem_sameLevel {m : MemArg} (h : execJmpMem m s = .next t) : SameLevel s t :=
  runOp_sameLevel h ((readFarPointer_ends m (start_grown s)).bind fun x hx =>
    (farJump_ends x.1 x.2.1 hx.2).imp fun _ hy => hx.1.sameLevel.trans hy.1.sameLevel)

/-- CALL m16:32 never completes (30_encoding.md R159). -/
theorem execCallMem_ne_next {m : MemArg} : execCallMem m s ≠ .next t :=
  runQuiet_ne_next ((readFarPointer_ends m (start_grown s)).bind fun x hx => farCall_ends x.2.1 hx.2)

theorem execLgdt_sameLevel {m : MemArg} (h : execLgdt m s = .next t) : SameLevel s t :=
  runQuiet_sameLevel h ((requireLevel0_ends (start_grown s)).bind fun _ _ =>
    (readTablePointer_ends m (start_grown s)).bind fun x hx =>
      (lgdtr_sameLevel x.1 x.2.1 hx.2).imp fun _ hd => hx.1.sameLevel.trans hd)

theorem execLldt_sameLevel {src : RM} (h : execLldt src s = .next t) : SameLevel s t :=
  runQuiet_sameLevel h ((requireLevel0_ends (start_grown s)).bind fun _ _ =>
    (readRM16_ends src (start_grown s)).bind fun x hx =>
      (lldtr_ends x.1 hx.2).imp fun _ hd => hx.1.sameLevel.trans hd.2.1.sameLevel)

theorem execMovR32Cr_sameLevel {r j : BitVec 3} (h : execMovR32Cr r j s = .next t) : SameLevel s t :=
  runQuiet_sameLevel h ((readCr_ends j.toNat (start_grown s)).bind fun _ hx =>
    Ends.ok (hx.2.1.quiet.trans (.setReg _ r _)).sameLevel)

theorem execPopR32_sameLevel {r : BitVec 3} (h : execPopR32 r s = .next t) : SameLevel s t :=
  runQuiet_sameLevel h ((spop_ends _ (start_grown s)).bind fun _ hx =>
    Ends.ok (hx.1.trans (.setRegLow _ r _ _)).sameLevel)

theorem overrideWith_sameLevel {r : SReg} (h : overrideWith r s = .next t) : SameLevel s t := by
  cases h; exact ⟨rfl, rfl⟩

end Meanings

/-- An instruction that completes keeps the level, well-formed or not. -/
theorem exec_sameLevel {i : Instr} {s t : State} (h : exec i s = .next t) : SameLevel s t := by
  have hs := start_grown s
  cases i with
  | ldseg r sel => exact runQuiet_sameLevel h (ldseg_sameLevel r sel hs)
  | ldss sel => exact runQuiet_sameLevel_of_moved h (ldss_ends sel hs)
  | ldcs sel => exact runQuiet_sameLevel_of_moved h (ldcs_ends sel hs)
  | rdsel _ => exact execRdsel_sameLevel h
  | lgdtr base limit => exact runQuiet_sameLevel h (lgdtr_sameLevel base limit hs)
  | lldtr sel => exact runQuiet_sameLevel h ((lldtr_ends sel hs).imp fun _ hd => hd.2.1.sameLevel)
  | mread _ _ _ => exact execMread_sameLevel h
  | mwrite r off n v => exact runQuiet_sameLevel_of_quiet h (memWrite_ends r off (leBytes n v) hs)
  | mfetch _ _ => exact execMfetch_sameLevel h
  | spush n v => exact runQuiet_sameLevel_of_quiet h (spush_ends (leBytes n v) hs)
  | spop _ => exact execSpop_sameLevel h
  | pfx66 => cases h; exact ⟨rfl, rfl⟩
  | pfx67 => cases h; exact ⟨rfl, rfl⟩
  | wrcr0 v => exact runQuiet_sameLevel h (writeCr_sameLevel 0 v hs)
  | wrcr3 v => exact runQuiet_sameLevel h (writeCr_sameLevel 3 v hs)
  | wrcr4 v => exact runQuiet_sameLevel h (writeCr_sameLevel 4 v hs)
  | rdcr _ => exact execRdcr_sameLevel h
  | tasksw => nomatch h
  | maccess64 va _ => exact runOp_sameLevel h ((maccess64_ends va hs).imp fun _ hx => hx.elim)
  | movSregRm16 _ _ => exact execMovSregRm16_sameLevel h
  | movRm16Sreg dst _ => exact runQuiet_sameLevel_of_quiet h (writeRM16_ends dst _ hs)
  | popEs => exact runQuiet_sameLevel_of_moved h (popSreg_ends .es nofun hs)
  | popSs => exact runQuiet_sameLevel_of_moved h (popSreg_ends .ss nofun hs)
  | popDs => exact runQuiet_sameLevel_of_moved h (popSreg_ends .ds nofun hs)
  | popFs => exact runQuiet_sameLevel_of_moved h (popSreg_ends .fs nofun hs)
  | popGs => exact runQuiet_sameLevel_of_moved h (popSreg_ends .gs nofun hs)
  | les r m => exact runQuiet_sameLevel_of_moved h (loadFar_ends .es r m nofun hs)
  | lds r m => exact runQuiet_sameLevel_of_moved h (loadFar_ends .ds r m nofun hs)
  | lss r m => exact runQuiet_sameLevel_of_moved h (loadFar_ends .ss r m nofun hs)
  | lfs r m => exact runQuiet_sameLevel_of_moved h (loadFar_ends .fs r m nofun hs)
  | lgs r m => exact runQuiet_sameLevel_of_moved h (loadFar_ends .gs r m nofun hs)
  | jmpPtr off sel => exact runOp_sameLevel h ((farJump_ends off sel hs).imp fun _ hx => hx.1.sameLevel)
  | callPtr _ sel => exact absurd h (runQuiet_ne_next (farCall_ends sel hs))
  | jmpMem _ => exact execJmpMem_sameLevel h
  | callMem _ => exact absurd h execCallMem_ne_next
  | retf => exact absurd h (runQuiet_ne_next (farReturn_ends hs))
  | retfImm _ => exact absurd h (runQuiet_ne_next (farReturn_ends hs))
  | iret => exact absurd h (runQuiet_ne_next (farReturn_ends hs))
  | lgdt _ => exact execLgdt_sameLevel h
  | sgdt m => exact runQuiet_sameLevel_of_quiet h (writeMem_ends m _ hs)
  | lldt _ => exact execLldt_sameLevel h
  | sldt dst => exact runQuiet_sameLevel_of_quiet h (writeRM16_ends dst _ hs)
  | movCrR32 j r => exact runQuiet_sameLevel h (writeCr_sameLevel j.toNat (s.reg r) hs)
  | movR32Cr _ _ => exact execMovR32Cr_sameLevel h
  | movEaxMoffs a32 off => exact runQuiet_sameLevel_of_quiet h (loadAccumulator_ends a32 off _ hs)
  | movAlMoffs a32 off => exact runQuiet_sameLevel_of_quiet h (loadAccumulator_ends a32 off 1 hs)
  | movMoffsEax a32 off => exact runQuiet_sameLevel_of_quiet h (storeAccumulator_ends a32 off _ hs)
  | movMoffsAl a32 off => exact runQuiet_sameLevel_of_quiet h (storeAccumulator_ends a32 off 1 hs)
  | pushR32 r => exact runQuiet_sameLevel_of_quiet h (spush_ends _ hs)
  | popR32 _ => exact execPopR32_sameLevel h
  | segEs => exact overrideWith_sameLevel h
  | segCs => exact overrideWith_sameLevel h
  | segSs => exact overrideWith_sameLevel h
  | segDs => exact overrideWith_sameLevel h
  | segFs => exact overrideWith_sameLevel h
  | segGs => exact overrideWith_sameLevel h

/-- An instruction's outcome answers a next state where the instruction completes, and the schedule moves on. -/
theorem advance_next {rest : List Event} {o : Host.Outcome State Fault Refusal} {t : State} (h : advance rest o = .next t) :
    ∃ u, o = .next u ∧ t = u.setQueue rest := by
  cases o with
  | next u => cases h; exact ⟨u, rfl, rfl⟩
  | fault f => cases h
  | refused r => cases h

/-- Another agent moves by a write of the environment (20_memory.md R131) or by the loss of a TLB record (R129 (c)). -/
theorem nextOf_agent {s t : State} (h : nextOf s = .agent t) :
    (∃ pa b q, t = (s.environmentWrite pa b).setQueue q) ∨ ∃ j q, t = (s.dropRecord j).setQueue q := by
  unfold nextOf at h
  split at h
  · cases h
  · cases h; exact .inl ⟨_, _, _, rfl⟩
  · cases h; exact .inr ⟨_, _, rfl⟩
  · split at h <;> cases h

/-- What a step that answers a next state did: it completed the instruction decoded next, or another agent moved. -/
theorem step_next_cases {s t : State} (h : step s = .next t) :
    (∃ i rest u, nextOf s = .run i rest ∧ exec i s = .next u ∧ t = u.setQueue rest) ∨ nextOf s = .agent t := by
  unfold step at h
  split at h
  · rename_i i rest hn
    obtain ⟨u, hu, ht⟩ := advance_next h
    exact .inl ⟨i, rest, u, hn, hu, ht⟩
  · rename_i hn
    cases h; exact .inr hn
  · cases h

/-- The other agents keep the level. -/
theorem nextOf_agent_sameLevel {s t : State} (h : nextOf s = .agent t) : SameLevel s t := by
  obtain ⟨pa, b, q, rfl⟩ | ⟨j, q, rfl⟩ := nextOf_agent h
  · exact (s.environmentWrite_quiet pa b).sameLevel.trans (.setQueue _ q)
  · exact (SameLevel.dropRecord s j).trans (.setQueue _ q)

/-- Settles O57: every change a step can make keeps CPL and the platform's parameters. -/
theorem levelNeverChanges : Obligations.LevelNeverChanges := by
  intro s t h
  suffices hst : SameLevel s t from ⟨hst.cpl, hst.platform⟩
  obtain ⟨_, rest, u, _, hu, rfl⟩ | hn := step_next_cases h
  · exact (exec_sameLevel hu).trans (.setQueue u rest)
  · exact nextOf_agent_sameLevel hn

end Sys2Proof.Machine
end

section
/-! The launch state, from which every state a program reaches has the launch's memory map (spec/70_reset_and_hazards.md R331). -/

namespace Sys2Proof.Machine

/-- A program never changes the parameters of the platform, however far it comes. -/
theorem Reaches.platform {s t : State} (h : Reaches s t) : t.platform = s.platform := by
  induction h with
  | here => rfl
  | next _ hstep ih => exact (levelNeverChanges _ _ hstep).2.trans ih

/-- Over the launch's memory map R331 (h) holds of every program, whatever its schedule. -/
theorem tablesBacked_of_launchPlatform {s : State} (h : s.platform = launchPlatform) : tablesBacked s :=
  fun _ ht => launchMap_backed (congrArg Platform.physMap (ht.platform.trans h))

theorem reset_segmentsPresent : segmentsPresent State.reset := by
  intro r
  cases r <;> decide

theorem reset_nullIsInvalid : nullIsInvalid State.reset := by
  intro r
  cases r <;> decide

theorem reset_inv : Inv State.reset where
  memory := rfl
  cpl := by decide
  code := by decide
  stack := by decide
  present := reset_segmentsPresent
  ldt := nofun
  null := reset_nullIsInvalid

theorem reset_launchPremises : LaunchPremises State.reset where
  cpl_matches_cs := reset_inv.cpl
  cs_is_code := reset_inv.code
  ss_is_stack := reset_inv.stack
  valid_means_present := ⟨reset_inv.present, reset_inv.ldt⟩
  null_means_invalid := reset_inv.null
  tlb_empty := .inl rfl
  no_pae := nofun
  tables_backed := tablesBacked_of_launchPlatform rfl

/-- Settles O54: premises (a) to (e) by evaluation, (h) because no step moves the memory map. -/
theorem launchMeetsPremises : Obligations.LaunchMeetsPremises := ⟨reset_launchPremises, rfl, reset_inv⟩

end Sys2Proof.Machine
end

section
/-! A load that completes leaves its register with the descriptor that was fetched and passed the checks
(spec/40_segment_register_ops.md R190 to R192), paging on or off. -/

namespace Sys2Proof.Machine

/-- A part that completes also answers what it answers. -/
theorem Ends.answer {α : Type} {x : Except Stop α} {Q : α → Prop} {E : State → Prop} (hx : Ends x Q E) :
    Ends x (fun a => x = .ok a ∧ Q a) E := by
  match x, hx with
  | .ok _, hx => exact ⟨rfl, hx⟩
  | .error (.fault _), hx => exact hx
  | .error (.refused _), _ => exact trivial

/-- From the context `c`, a load of `sel` into `r` fetches a descriptor, which passes the checks of `r` and is present; `u` holds it. -/
def LoadedFrom (r : SReg) (sel : Selector) (c : Ctx) (u : State) : Prop :=
  ∃ (d : Descriptor) (e : Ctx), fetchDescriptor sel c = .ok (d, e) ∧ loadChecks r c.cur.cpl sel d = true ∧ d.p = true ∧
    u.seg r = { sel := loadedSelector r c.cur.cpl sel, h := d.loaded }

theorem loadedSelector_of_ne_cs {r : SReg} (hr : r ≠ .cs) (cpl : BitVec 2) (sel : Selector) : loadedSelector r cpl sel = sel :=
  if_neg hr

theorem loadChecks_of_isData {r : SReg} (hr : r.isData = true) : loadChecks r = dataLoadOk := by
  cases r with
  | cs | ss => cases hr
  | ds | es | fs | gs => rfl

theorem ne_cs_of_isData {r : SReg} (hr : r.isData = true) : r ≠ .cs := by
  rintro rfl; cases hr

section Base
variable {k : State} {c : Ctx}

/-- The end that the three loads share, after the checks: the accessed bit is set, and the register takes the descriptor. -/
theorem setAccessed_loadSeg_from {r : SReg} {sel : Selector} {d : Descriptor} {e : Ctx} {held : Ctx → Selector}
    (hfetch : fetchDescriptor sel c = .ok (d, e)) (hcpl : e.cur.cpl = c.cur.cpl)
    (hchecks : loadChecks r e.cur.cpl sel d = true) (hpresent : d.p = true)
    (hheld : ∀ f, held f = loadedSelector r f.cur.cpl sel) (hk : Grown k e.kept) :
    Ends (setAccessed sel d e >>= fun f => .ok (f.loadSeg r (held f) d)) (fun f => LoadedFrom r sel c f.cur) (Grown k) := by
  refine (setAccessed_ends sel d hk).bind fun f hf => Ends.ok ⟨d, e, hfetch, hcpl ▸ hchecks, hpresent, ?_⟩
  rw [Ctx.loadSeg_cur, State.seg_setSeg_same, hheld, hf.1.sameLevel.cpl, hcpl]

theorem ldseg_from {r : SReg} {sel : Selector} (hr : r.isData = true) (hn : isNull sel = false) (hk : Grown k c.kept) :
    Ends (ldseg r sel c) (fun f => LoadedFrom r sel c f.cur) (Grown k) := by
  unfold ldseg
  rw [hn]
  refine (fetchDescriptor_ends sel hk).answer.bind fun ⟨d, e⟩ ⟨hfetch, hgrown, hkept⟩ => ?_
  simp only at hgrown hkept ⊢
  split
  · exact Ends.raise rfl hkept
  · split
    · exact Ends.raise rfl hkept
    · rename_i hchecks hpresent
      refine setAccessed_loadSeg_from hfetch hgrown.sameLevel.cpl ?_ (by simpa using hpresent)
        (fun _ => (loadedSelector_of_ne_cs (ne_cs_of_isData hr) _ _).symm) hkept
      rw [loadChecks_of_isData hr]
      simpa using hchecks

theorem ldss_from {sel : Selector} (hn : isNull sel = false) (hk : Grown k c.kept) :
    Ends (ldss sel c) (fun f => LoadedFrom .ss sel c f.cur) (Grown k) := by
  unfold ldss
  rw [hn]
  refine (fetchDescriptor_ends sel hk).answer.bind fun ⟨d, e⟩ ⟨hfetch, hgrown, hkept⟩ => ?_
  simp only at hgrown hkept ⊢
  split
  · exact Ends.raise rfl hkept
  · split
    · exact Ends.raise (by simp) hkept
    · rename_i hchecks hpresent
      exact setAccessed_loadSeg_from hfetch hgrown.sameLevel.cpl (by simpa [loadChecks] using hchecks)
        (by simpa using hpresent) (fun _ => rfl) hkept

theorem ldcs_from {sel : Selector} (hn : isNull sel = false) (hk : Grown k c.kept) :
    Ends (ldcs sel c) (fun f => LoadedFrom .cs sel c f.cur) (Grown k) := by
  unfold ldcs
  rw [hn]
  refine (fetchDescriptor_ends sel hk).answer.bind fun ⟨d, e⟩ ⟨hfetch, hgrown, hkept⟩ => ?_
  simp only at hgrown hkept ⊢
  split
  · exact Ends.refuse
  · split
    · exact Ends.raise rfl hkept
    · split
      · exact Ends.raise rfl hkept
      · rename_i hcode hchecks hpresent
        exact setAccessed_loadSeg_from hfetch hgrown.sameLevel.cpl (by simpa [loadChecks] using And.intro hcode hchecks)
          (by simpa using hpresent) (fun f => codeSelector_eq f.cur.cpl sel) hkept

end Base

/-- A whole operation that answers leaves the register as its body's load does. -/
theorem runQuiet_from {f : Ctx → Except Stop Ctx} {r : SReg} {sel : Selector} {s t : State} {E : State → Prop}
    (h : runQuiet f s = .next t) (hf : Ends (f (Ctx.start s)) (fun d => LoadedFrom r sel (Ctx.start s) d.cur) E) :
    LoadedFrom r sel (Ctx.start s) t :=
  (runQuiet_cases (hf.imp fun _ hd _ => hd)).1 t h

/-- Settles O20, by what each of the three loads can answer with. -/
theorem loadedFromItsDescriptor : Obligations.LoadedFromItsDescriptor := by
  intro sel s t hn
  refine ⟨fun r hr h => ?_, fun h => runQuiet_from h (ldss_from hn (start_grown s)), fun h => ?_⟩
  · obtain ⟨d, c, hfetch, hchecks, hpresent, hseg⟩ := runQuiet_from h (ldseg_from hr hn (start_grown s))
    rw [loadChecks_of_isData hr] at hchecks
    rw [loadedSelector_of_ne_cs (ne_cs_of_isData hr)] at hseg
    exact ⟨d, c, hfetch, hchecks, hpresent, hseg⟩
  · obtain ⟨d, c, hfetch, hchecks, hpresent, hseg⟩ := runQuiet_from h (ldcs_from hn (start_grown s))
    obtain ⟨hs, hcode⟩ := Bool.and_eq_true_iff.mp hchecks
    exact ⟨d, c, hfetch, hs, hcode, hpresent, hseg⟩

end Sys2Proof.Machine
end

section
/-! What an instruction that completes did, as one of three effects, and that a segment register changes by a load of it alone
(spec/10_state.md R24; spec/40_segment_register_ops.md R198). -/

namespace Sys2Proof.Machine

/-- What an instruction did to the state, where it completes: nothing but a quiet change; a load of the segment register it loads; or,
at level 0, a write of the table and control registers. -/
inductive Effect (s : State) : Option SReg → State → Prop where
  | quiet {t : State} (h : Quiet s t) : Effect s none t
  | load {r : SReg} {t : State} (h : Moved r s t) : Effect s (some r) t
  | system {t : State} (hcpl : s.cpl = 0#2)
      (h : Quiet s { t with gdtr := s.gdtr, ldtr := s.ldtr, pg := s.pg, cr3 := s.cr3, cr4 := s.cr4 })
      (hldt : ldtrIsLdt s → ldtrIsLdt t) : Effect s none t

/-- The effect, and then the end of the instruction, which sets the result and the pending prefixes (30_encoding.md R155). -/
def Completed (o : Option SReg) (s t : State) : Prop :=
  ∃ (u : State) (p : Pending) (v : Result), Effect s o u ∧ t = { u with pfx := p, result := v }

theorem Effect.finish {o : Option SReg} {s t : State} (h : Effect s o t) (v : Result) : Completed o s (t.finish v) :=
  ⟨t, _, v, h, rfl⟩

/-- What stays pending for the next instruction moves nothing else (30_encoding.md R155). -/
theorem completed_pending (s : State) (p : Pending) : Completed none s { s with pfx := p, result := .none } :=
  ⟨s, p, .none, .quiet (.refl s), rfl⟩

/-- An effect keeps every segment register but the one it loads. -/
theorem Effect.seg_eq {o : Option SReg} {s t : State} {r : SReg} (h : Effect s o t) (hr : o ≠ some r) : t.seg r = s.seg r := by
  cases h with
  | quiet h => exact congrArg (·.get r) h.fields.1
  | @load q _ h =>
    have hq : r ≠ q := fun e => hr (congrArg some e.symm)
    calc t.seg r = (s.segs.set q (t.seg q)).get r := congrArg (·.get r) h.segs
      _ = s.seg r := SegFile.get_set_other _ _ _ _ hq
  | system _ h _ => exact congrArg (·.get r) h.fields.1

theorem Completed.seg_eq {o : Option SReg} {s t : State} {r : SReg} (h : Completed o s t) (hr : o ≠ some r) :
    t.seg r = s.seg r := by
  obtain ⟨_, _, _, hu, rfl⟩ := h
  exact hu.seg_eq hr

theorem ldtrIsLdt_of_eq {s t : State} (h : t.ldtr = s.ldtr) : ldtrIsLdt s → ldtrIsLdt t := by
  unfold ldtrIsLdt
  rw [h]
  exact id

/-- A quiet change before a write of LDTR. -/
theorem Effect.of_retabled {s t u : State} (h : Quiet s t) (hcpl : s.cpl = 0#2) (g : Retabled t u) : Effect s none u := by
  have q := h.trans g.grown.quiet
  obtain ⟨_, hgdtr, hldtr, hpg, hcr3, hcr4, _⟩ := q.fields
  refine .system hcpl ?_ fun _ => g.good
  rw [← hgdtr, ← hpg, ← hcr3, ← hcr4, ← h.fields.2.2.1]
  exact q

section Base
variable {k : State} {c : Ctx}

/-- LGDTR, after reads that change nothing but what a translation does. -/
theorem lgdtr_effect {s : State} (base : Linear) (limit : BitVec 16) (h : Quiet s c.cur) (hk : Grown k c.kept) :
    Ends (lgdtr base limit c) (fun d => Effect s none d.cur) (Grown k) := by
  refine (lgdtr_ends base limit hk).imp fun d ⟨hcpl, hcur, _⟩ => ?_
  obtain ⟨_, hgdtr, hldtr, hpg, hcr3, hcr4, hlevel, _⟩ := h.fields
  rw [hcur]
  refine .system (hlevel ▸ hcpl) ?_ (ldtrIsLdt_of_eq hldtr)
  rw [← hgdtr, ← hldtr, ← hpg, ← hcr3, ← hcr4]
  exact h

theorem lldtr_effect {s : State} (sel : Selector) (h : Quiet s c.cur) (hk : Grown k c.kept) :
    Ends (lldtr sel c) (fun d => Effect s none d.cur) (Grown k) :=
  (lldtr_ends sel hk).imp fun _ ⟨hcpl, hd, _⟩ => .of_retabled h (h.sameLevel.cpl ▸ hcpl) hd

theorem writeCr_effect (j : Nat) (v : Dword) (hk : Grown k c.kept) :
    Ends (writeCr j v c) (fun d => Effect c.cur none d.cur) (Grown k) := by
  refine (writeCr_ends j v hk).imp fun d ⟨hcpl, hcur, _⟩ => ?_
  rw [hcur]
  exact .system hcpl ⟨rfl, id⟩ id

/-- A load of any segment register but CS, after a quiet change. -/
theorem loadSreg_effect {s : State} {r : SReg} (sel : Selector) (hr : r ≠ .cs) (h : Quiet s c.cur) (hk : Grown k c.kept) :
    Ends (loadSreg r sel c) (fun d => Effect s (some r) d.cur) (Grown k) :=
  (loadSreg_ends r sel hr hk).imp fun _ hd => .load (h.trans_moved hd.1)

theorem farJump_effect {s : State} (off : Dword) (sel : Selector) (h : Quiet s c.cur) (hk : Grown k c.kept) :
    Ends (farJump off sel c) (fun x => Effect s (some .cs) x.2.cur) (Grown k) :=
  (farJump_ends off sel hk).imp fun _ hx => .load (h.trans_moved hx.1)

end Base

section Whole
variable {s t : State} {E : State → Prop} {o : Option SReg}

theorem runOp_completed {f : Ctx → Except Stop (Result × Ctx)} (h : runOp f s = .next t)
    (hf : Ends (f (Ctx.start s)) (fun x => Effect s o x.2.cur) E) : Completed o s t :=
  (runOp_cases (hf.imp fun _ hx => hx.finish)).1 t h

theorem runQuiet_completed {f : Ctx → Except Stop Ctx} (h : runQuiet f s = .next t)
    (hf : Ends (f (Ctx.start s)) (fun d => Effect s o d.cur) E) : Completed o s t :=
  (runQuiet_cases (hf.imp fun _ hd => hd.finish)).1 t h

/-- A body whose changes are quiet. -/
theorem runQuiet_completed_quiet {f : Ctx → Except Stop Ctx} (h : runQuiet f s = .next t)
    (hf : Ends (f (Ctx.start s)) (fun d => Quiet s d.cur ∧ Grown s d.kept) E) : Completed none s t :=
  runQuiet_completed h (hf.imp fun _ hd => .quiet hd.1)

/-- A body that loads a segment register. -/
theorem runQuiet_completed_load {f : Ctx → Except Stop Ctx} {r : SReg} (h : runQuiet f s = .next t)
    (hf : Ends (f (Ctx.start s)) (fun d => Moved r s d.cur ∧ Grown s d.kept) E) : Completed (some r) s t :=
  runQuiet_completed h (hf.imp fun _ hd => .load hd.1)

end Whole

/-! The meanings that are more than one call of a shared operation. -/

section Meanings
variable {s t : State}

theorem execRdsel_completed {r : SReg} (h : execRdsel r s = .next t) : Completed none s t :=
  runOp_completed (E := Grown s) h (Ends.ok (.quiet (.refl s)))

theorem execMread_completed {r : SReg} {off : Dword} {n : Nat} (h : execMread r off n s = .next t) : Completed none s t :=
  runOp_completed h ((memRead_ends r off n (start_grown s)).bind fun _ hx => Ends.ok (.quiet hx.1.quiet))

theorem execMfetch_completed {off : Dword} {n : Nat} (h : execMfetch off n s = .next t) : Completed none s t :=
  runOp_completed h ((logicalToLinear_ends .cs off n .exec (start_grown s)).bind fun lin _ =>
    (fetchBytes_ends _ n lin (start_grown s)).bind fun _ hx => Ends.ok (.quiet hx.1.quiet))

theorem execSpop_completed {n : Nat} (h : execSpop n s = .next t) : Completed none s t :=
  runOp_completed h ((spop_ends n (start_grown s)).bind fun _ hx => Ends.ok (.quiet hx.1))

theorem execRdcr_completed {j : Nat} (h : execRdcr j s = .next t) : Completed none s t :=
  runOp_completed h ((readCr_ends j (start_grown s)).bind fun _ hx => Ends.ok (.quiet hx.2.1.quiet))

theorem execMovSregRm16_completed {r : SReg} {src : RM} (hr : r ≠ .cs) (h : execMovSregRm16 r src s = .next t) :
    Completed (some r) s t :=
  runQuiet_completed h ((readRM16_ends src (start_grown s)).bind fun x hx => loadSreg_effect x.1 hr hx.1.quiet hx.2)

theorem execJmpMem_completed {m : MemArg} (h : execJmpMem m s = .next t) : Completed (some .cs) s t :=
  runOp_completed h ((readFarPointer_ends m (start_grown s)).bind fun x hx => farJump_effect x.1 x.2.1 hx.1.quiet hx.2)

theorem execLgdt_completed {m : MemArg} (h : execLgdt m s = .next t) : Completed none s t :=
  runQuiet_completed h ((requireLevel0_ends (start_grown s)).bind fun _ _ =>
    (readTablePointer_ends m (start_grown s)).bind fun x hx => lgdtr_effect x.1 x.2.1 hx.1.quiet hx.2)

theorem execLldt_completed {src : RM} (h : execLldt src s = .next t) : Completed none s t :=
  runQuiet_completed h ((requireLevel0_ends (start_grown s)).bind fun _ _ =>
    (readRM16_ends src (start_grown s)).bind fun x hx => lldtr_effect x.1 hx.1.quiet hx.2)

theorem execMovR32Cr_completed {r j : BitVec 3} (h : execMovR32Cr r j s = .next t) : Completed none s t :=
  runQuiet_completed h ((readCr_ends j.toNat (start_grown s)).bind fun _ hx =>
    Ends.ok (.quiet (hx.2.1.quiet.trans (.setReg _ r _))))

theorem execPopR32_completed {r : BitVec 3} (h : execPopR32 r s = .next t) : Completed none s t :=
  runQuiet_completed h ((spop_ends _ (start_grown s)).bind fun _ hx =>
    Ends.ok (.quiet (hx.1.trans (.setRegLow _ r _ _))))

theorem overrideWith_completed {r : SReg} (h : overrideWith r s = .next t) : Completed none s t := by
  cases h; exact completed_pending s _

end Meanings

/-- What a well-formed instruction that completes did: it loaded the segment register that `loadsSeg` names, or none. -/
theorem exec_completed {i : Instr} {s t : State} (hw : i.wf = true) (h : exec i s = .next t) : Completed (loadsSeg i) s t := by
  have hs := start_grown s
  have hq := Quiet.refl s
  cases i with
  | ldseg r sel => exact runQuiet_completed_load h (ldseg_ends r sel hw hs)
  | ldss sel => exact runQuiet_completed_load h (ldss_ends sel hs)
  | ldcs sel => exact runQuiet_completed_load h (ldcs_ends sel hs)
  | rdsel _ => exact execRdsel_completed h
  | lgdtr base limit => exact runQuiet_completed h (lgdtr_effect base limit hq hs)
  | lldtr sel => exact runQuiet_completed h (lldtr_effect sel hq hs)
  | mread _ _ _ => exact execMread_completed h
  | mwrite r off n v => exact runQuiet_completed_quiet h (memWrite_ends r off (leBytes n v) hs)
  | mfetch _ _ => exact execMfetch_completed h
  | spush n v => exact runQuiet_completed_quiet h (spush_ends (leBytes n v) hs)
  | spop _ => exact execSpop_completed h
  | pfx66 => cases h; exact completed_pending s _
  | pfx67 => cases h; exact completed_pending s _
  | wrcr0 v => exact runQuiet_completed h (writeCr_effect 0 v hs)
  | wrcr3 v => exact runQuiet_completed h (writeCr_effect 3 v hs)
  | wrcr4 v => exact runQuiet_completed h (writeCr_effect 4 v hs)
  | rdcr _ => exact execRdcr_completed h
  | tasksw => nomatch h
  | maccess64 va _ => exact runOp_completed h ((maccess64_ends va hs).imp fun _ hx => hx.elim)
  | movSregRm16 r src =>
    have hr : r ≠ .cs := by
      rintro rfl
      exact absurd hw (by simp [Instr.wf])
    exact execMovSregRm16_completed hr h
  | movRm16Sreg dst _ => exact runQuiet_completed_quiet h (writeRM16_ends dst _ hs)
  | popEs => exact runQuiet_completed_load h (popSreg_ends .es nofun hs)
  | popSs => exact runQuiet_completed_load h (popSreg_ends .ss nofun hs)
  | popDs => exact runQuiet_completed_load h (popSreg_ends .ds nofun hs)
  | popFs => exact runQuiet_completed_load h (popSreg_ends .fs nofun hs)
  | popGs => exact runQuiet_completed_load h (popSreg_ends .gs nofun hs)
  | les r m => exact runQuiet_completed_load h (loadFar_ends .es r m nofun hs)
  | lds r m => exact runQuiet_completed_load h (loadFar_ends .ds r m nofun hs)
  | lss r m => exact runQuiet_completed_load h (loadFar_ends .ss r m nofun hs)
  | lfs r m => exact runQuiet_completed_load h (loadFar_ends .fs r m nofun hs)
  | lgs r m => exact runQuiet_completed_load h (loadFar_ends .gs r m nofun hs)
  | jmpPtr off sel => exact runOp_completed h (farJump_effect off sel hq hs)
  | callPtr _ sel => exact absurd h (runQuiet_ne_next (farCall_ends sel hs))
  | jmpMem _ => exact execJmpMem_completed h
  | callMem _ => exact absurd h execCallMem_ne_next
  | retf => exact absurd h (runQuiet_ne_next (farReturn_ends hs))
  | retfImm _ => exact absurd h (runQuiet_ne_next (farReturn_ends hs))
  | iret => exact absurd h (runQuiet_ne_next (farReturn_ends hs))
  | lgdt _ => exact execLgdt_completed h
  | sgdt m => exact runQuiet_completed_quiet h (writeMem_ends m _ hs)
  | lldt _ => exact execLldt_completed h
  | sldt dst => exact runQuiet_completed_quiet h (writeRM16_ends dst _ hs)
  | movCrR32 j r => exact runQuiet_completed h (writeCr_effect j.toNat (s.reg r) hs)
  | movR32Cr _ _ => exact execMovR32Cr_completed h
  | movEaxMoffs a32 off => exact runQuiet_completed_quiet h (loadAccumulator_ends a32 off _ hs)
  | movAlMoffs a32 off => exact runQuiet_completed_quiet h (loadAccumulator_ends a32 off 1 hs)
  | movMoffsEax a32 off => exact runQuiet_completed_quiet h (storeAccumulator_ends a32 off _ hs)
  | movMoffsAl a32 off => exact runQuiet_completed_quiet h (storeAccumulator_ends a32 off 1 hs)
  | pushR32 r => exact runQuiet_completed_quiet h (spush_ends _ hs)
  | popR32 _ => exact execPopR32_completed h
  | segEs => exact overrideWith_completed h
  | segCs => exact overrideWith_completed h
  | segSs => exact overrideWith_completed h
  | segDs => exact overrideWith_completed h
  | segFs => exact overrideWith_completed h
  | segGs => exact overrideWith_completed h

/-- Settles O59: of an instruction's effects only a load moves a segment register, the one it loads. -/
theorem segmentsChangeByLoads : Obligations.SegmentsChangeByLoads :=
  fun _ _ _ _ hw hr h => (exec_completed hw h).seg_eq hr

end Sys2Proof.Machine
end

section
/-! Selectors, descriptors and segment checks (spec/20_memory.md R80 to R100): the fields of a descriptor, the type numbers of
R94's table, the checks of the loads of segment registers, and the limit check. -/

namespace Sys2Proof.Machine

theorem conforming_iff (t : BitVec 4) : (isCode t && isDownOrConforming t) = true ↔ t.toNat ∈ [12, 13, 14, 15] := by
  revert t; decide

theorem nonConforming_iff (t : BitVec 4) : (isCode t && !isDownOrConforming t) = true ↔ t.toNat ∈ [8, 9, 10, 11] := by
  revert t; decide

theorem isReadable_iff (t : BitVec 4) :
    isReadable t = true ↔ t.toNat ∈ [0, 1, 2, 3, 4, 5, 6, 7, 10, 11, 14, 15] := by
  revert t; decide

theorem isWritableData_iff (t : BitVec 4) : isWritableData t = true ↔ t.toNat ∈ [2, 3, 6, 7] := by
  revert t; decide

theorem isCode_iff (t : BitVec 4) : isCode t = true ↔ 8 ≤ t.toNat := by
  revert t; decide

/-- Of the readable types, the conforming ones. -/
theorem conforming_readable (t : BitVec 4) (h : isReadable t = true) : t.toNat ∈ [12, 13, 14, 15] ↔ t.toNat ∈ [14, 15] := by
  revert t; decide

theorem selRPL_toNat (sel : Selector) : (selRPL sel).toNat = sel.toNat % 4 := by
  simp [selRPL]

/-- Settles O36: the table of R127 (c), row by row. -/
theorem pagePermissions : Obligations.PagePermissions := by
  intro wp rw us
  refine ⟨rfl, ?_, Iff.rfl, ?_⟩
  · simp [permitted]
  · simp [permitted]

/-- Settles O6: the null selectors have bits 15:2 equal to 0. -/
theorem nullSelectors : Obligations.NullSelectors := by
  intro sel
  have hsel := sel.isLt
  have hbits : (sel.extractLsb' 2 14).toNat = sel.toNat / 4 % 2 ^ 14 := by
    rw [BitVec.extractLsb'_toNat, Nat.shiftRight_eq_div_pow]
  unfold isNull
  rw [beq_iff_eq, ← BitVec.toNat_inj, hbits]
  show sel.toNat / 4 % 2 ^ 14 = 0 ↔ _
  omega

theorem effLimit_bytes (limit : BitVec 20) : (effLimit limit false).toNat = limit.toNat := by
  have := limit.isLt
  simp only [effLimit, Bool.false_eq_true, if_false, BitVec.toNat_setWidth]
  omega

/-- With G = 1 the low 12 bits of the last offset are ones. -/
theorem effLimit_pages (limit : BitVec 20) : (effLimit limit true).toNat = limit.toNat * 4096 + 4095 := by
  have hlimit := limit.isLt
  have hshift : (limit.setWidth 32 <<< 12 : Dword).toNat = limit.toNat <<< 12 := by
    rw [BitVec.toNat_shiftLeft, BitVec.toNat_setWidth, Nat.shiftLeft_eq, Nat.shiftLeft_eq]
    omega
  show (limit.setWidth 32 <<< 12 ||| 0xFFF : Dword).toNat = _
  rw [BitVec.toNat_or, hshift]
  show limit.toNat <<< 12 ||| 4095 = _
  rw [← Nat.shiftLeft_add_eq_or_of_lt (by omega : 4095 < 2 ^ 12), Nat.shiftLeft_eq]

/-- Settles O7, from the last offset that each value of G gives. -/
theorem effectiveLimitSizes : Obligations.EffectiveLimitSizes := by
  intro limit
  rw [effLimit_bytes, effLimit_pages]
  omega

/-- Settles O14, by the types that are conforming and those that are readable. -/
theorem dataLoadChecks : Obligations.DataLoadChecks := by
  intro cpl sel d
  have hpriv : dataPrivOk cpl sel d = true ↔
      d.typ.toNat ∈ [12, 13, 14, 15] ∨ (sel.toNat % 4 ≤ d.dpl.toNat ∧ cpl.toNat ≤ d.dpl.toNat) := by
    rw [dataPrivOk, Bool.or_eq_true, conforming_iff, Bool.and_eq_true, decide_eq_true_iff, decide_eq_true_iff, BitVec.le_def,
      BitVec.le_def, selRPL_toNat]
  refine ⟨hpriv, ?_⟩
  rw [dataLoadOk, Bool.and_eq_true, Bool.and_eq_true, hpriv, and_assoc, ← isReadable_iff]
  refine and_congr_right fun _ => and_congr_right fun hread => ?_
  rw [conforming_readable _ hread]

/-- Settles O15. -/
theorem stackLoadChecks : Obligations.StackLoadChecks := by
  intro cpl sel d
  simp only [stackLoadOk, Bool.and_eq_true, beq_iff_eq, ← BitVec.toNat_inj, selRPL_toNat, isWritableData_iff, and_assoc]

/-- Settles O16: the two kinds of code segment exclude each other. -/
theorem codeLoadChecks : Obligations.CodeLoadChecks := by
  intro cpl sel d
  rw [← conforming_iff, ← nonConforming_iff, ← selRPL_toNat, ← BitVec.le_def, ← BitVec.le_def, BitVec.toNat_inj]
  unfold codeLoadOk
  cases isCode d.typ <;> cases isDownOrConforming d.typ <;> simp

/-- Settles O24, by the types each access needs. -/
theorem accessRights : Obligations.AccessRights := by
  intro r h
  simp only [rightsOk, Bool.and_eq_true, beq_iff_eq, isWritableData_iff, isReadable_iff, isCode_iff, true_and]

/-- The greatest of `n` offsets is within a bound exactly where each of them is. -/
theorem last_le_iff {a b n : Nat} (hn : 0 < n) : a + n - 1 ≤ b ↔ ∀ i : Nat, i < n → a + i ≤ b := by
  constructor
  · intro h i hi
    omega
  · intro h
    have := h (n - 1) (by omega)
    omega

/-- Settles O23: the limit check looks at the last byte, and the others lie below it. -/
theorem segmentLimits : Obligations.SegmentLimits := by
  intro r h off n kind hn
  rw [segCheck, Bool.and_eq_true, limitOk]
  refine and_congr_right fun _ => ?_
  cases isExpandDown h.typ
  · simp only [Bool.false_eq_true, if_false, decide_eq_true_iff]
    exact last_le_iff hn
  · rw [if_pos rfl, if_pos rfl, Bool.and_eq_true, decide_eq_true_iff, decide_eq_true_iff]
    exact and_congr_right fun _ => last_le_iff hn

/-! The two double words of a descriptor (spec/30_encoding.md R158). -/

section
variable (d : Descriptor)

theorem Descriptor.hi_typ : d.hi.extractLsb' 8 4 = d.typ := by
  unfold Descriptor.hi
  rw [BitVec.extractLsb'_append_eq_of_le (by decide), BitVec.extractLsb'_append_eq_of_add_le (by decide)]
  exact BitVec.extractLsb'_eq_self

theorem Descriptor.hi_dpl : d.hi.extractLsb' 13 2 = d.dpl := by
  unfold Descriptor.hi
  iterate 3 rw [BitVec.extractLsb'_append_eq_of_le (by decide)]
  rw [BitVec.extractLsb'_append_eq_of_add_le (by decide)]
  exact BitVec.extractLsb'_eq_self

theorem Descriptor.hi_limit : d.hi.extractLsb' 16 4 = d.limit.extractLsb' 16 4 := by
  unfold Descriptor.hi
  iterate 5 rw [BitVec.extractLsb'_append_eq_of_le (by decide)]
  rw [BitVec.extractLsb'_append_eq_of_add_le (by decide)]
  exact BitVec.extractLsb'_eq_self

theorem Descriptor.hi_base_low : d.hi.extractLsb' 0 8 = d.base.extractLsb' 16 8 := by
  unfold Descriptor.hi
  exact BitVec.extractLsb'_append_eq_right

theorem Descriptor.hi_base_high : d.hi.extractLsb' 24 8 = d.base.extractLsb' 24 8 := by
  unfold Descriptor.hi
  iterate 10 rw [BitVec.extractLsb'_append_eq_of_le (by decide)]
  exact BitVec.extractLsb'_eq_self

theorem Descriptor.lo_base : d.lo.extractLsb' 16 16 = d.base.extractLsb' 0 16 := BitVec.extractLsb'_append_eq_left

theorem Descriptor.lo_limit : d.lo.extractLsb' 0 16 = d.limit.extractLsb' 0 16 := BitVec.extractLsb'_append_eq_right

/-- The one-bit fields of the second double word, and its reserved bit (spec/20_memory.md R93). -/
theorem Descriptor.hi_flags :
    d.hi.getLsbD 12 = d.s ∧ d.hi.getLsbD 15 = d.p ∧ d.hi.getLsbD 20 = d.avl ∧ d.hi.getLsbD 21 = false ∧
      d.hi.getLsbD 22 = d.db ∧ d.hi.getLsbD 23 = d.g := by
  unfold Descriptor.hi
  refine ⟨?_, ?_, ?_, ?_, ?_, ?_⟩ <;> (iterate 10 rw [BitVec.getLsbD_append]) <;> simp [bit]

theorem base_parts (b : Dword) : (b.extractLsb' 24 8 ++ b.extractLsb' 16 8 ++ b.extractLsb' 0 16 : Dword) = b := by
  have hhigh : b.extractLsb' 24 8 ++ b.extractLsb' 16 8 = b.extractLsb' 16 16 :=
    BitVec.extractLsb'_append_extractLsb'_eq_extractLsb' rfl
  rw [hhigh]
  exact (BitVec.extractLsb'_append_extractLsb'_eq_extractLsb' rfl).trans BitVec.extractLsb'_eq_self

theorem limit_parts (l : BitVec 20) : (l.extractLsb' 16 4 ++ l.extractLsb' 0 16 : BitVec 20) = l :=
  (BitVec.extractLsb'_append_extractLsb'_eq_extractLsb' rfl).trans BitVec.extractLsb'_eq_self

end

/-- Settles O5: each field of the descriptor is a run of bits of the two double words. -/
theorem descriptorRoundTrip : Obligations.DescriptorRoundTrip := by
  intro d
  obtain ⟨hs, hp, havl, hreserved, hdb, hg⟩ := d.hi_flags
  refine ⟨?_, hreserved⟩
  unfold decodeDescriptor
  rw [d.hi_typ, d.hi_dpl, d.hi_limit, d.lo_limit, d.hi_base_low, d.hi_base_high, d.lo_base, hs, hp, havl, hdb, hg, base_parts,
    limit_parts]
end Sys2Proof.Machine
end

section
/-! Accesses and loads that stop before they touch memory (spec/20_memory.md R97, R98; spec/40_segment_register_ops.md R190 to
R195), and the other agents' events (spec/20_memory.md R129, R131). -/

namespace Sys2Proof.Machine

/-- Settles O10: the two events of the schedule that are not the processor's. -/
theorem otherAgentsMove : Obligations.OtherAgentsMove := by
  intro s q
  refine ⟨fun pa b hq => ⟨fun hk => ?_, fun hk => ?_⟩, fun k hq => ?_⟩
  · simp only [step, nextOf, hq, State.environmentWrite, if_pos hk]
    rfl
  · simp only [step, nextOf, hq, State.environmentWrite, if_neg hk]
    rfl
  · simp only [step, nextOf, hq]
    rfl

/-- A bind ends where its first part does. -/
theorem bind_error {α β : Type} {x : Except Stop α} {e : Stop} {f : α → Except Stop β} (h : x = .error e) :
    (x >>= f) = .error e := by
  subst h; rfl

variable {c : Ctx}

theorem segFault_apply (r : SReg) (s : State) :
    segFault r s = if r = .ss then .stackFault 0 s else .generalProtection 0 s := by
  unfold segFault
  split <;> rfl

theorem logicalToLinear_ok {r : SReg} {off : Dword} {n : Nat} {kind : SegAccess}
    (h : segCheck r (c.cur.seg r).h off n kind = true) : logicalToLinear r off n kind c = .ok ((c.cur.seg r).h.base + off) :=
  if_pos h

theorem logicalToLinear_violation {r : SReg} {off : Dword} {n : Nat} {kind : SegAccess}
    (h : segCheck r (c.cur.seg r).h off n kind = false) :
    logicalToLinear r off n kind c = .error (.fault (if r = .ss then .stackFault 0 c.kept else .generalProtection 0 c.kept)) := by
  rw [← segFault_apply]
  exact if_neg (by rw [h]; exact Bool.false_ne_true)

/-! MREAD answers as its logical read does. -/

theorem execMread_ok {r : SReg} {off : Dword} {n : Nat} {s : State} {bs : List Byte}
    (h : memRead r off n (Ctx.start s) = .ok (bs, c)) : execMread r off n s = .next (c.cur.finish (valueOf bs)) := by
  unfold execMread
  exact runOp_ok (bind_ok h)

theorem execMread_fault {r : SReg} {off : Dword} {n : Nat} {s : State} {x : Fault}
    (h : memRead r off n (Ctx.start s) = .error (.fault x)) : execMread r off n s = .fault x := by
  unfold execMread
  exact runOp_fault (bind_error h)

theorem execMread_refused {r : SReg} {off : Dword} {n : Nat} {s : State} {x : Refusal}
    (h : memRead r off n (Ctx.start s) = .error (.refused x)) : execMread r off n s = .refused x := by
  unfold execMread
  exact runOp_ref (bind_error h)

/-- Settles O25: the segment checks come before any translation. -/
theorem accessViolationFaults : Obligations.AccessViolationFaults := by
  intro r off n v s
  refine ⟨fun h => ?_, fun h => ?_, fun h => ?_⟩
  · exact execMread_fault (bind_error (logicalToLinear_violation (c := Ctx.start s) h))
  · refine runQuiet_fault (bind_error (logicalToLinear_violation (c := Ctx.start s) ?_))
    rwa [leBytes_length]
  · show execMfetch off n s = _
    unfold execMfetch
    exact runOp_fault (bind_error (logicalToLinear_violation (r := .cs) (c := Ctx.start s) h))

/-! A load ends as its descriptor fetch does, where that fails. -/

theorem ldseg_of_fetch_error {r : SReg} {sel : Selector} {e : Stop} (hn : isNull sel = false)
    (h : fetchDescriptor sel c = .error e) : ldseg r sel c = .error e := by
  unfold ldseg
  rw [hn]
  exact bind_error h

theorem ldss_of_fetch_error {sel : Selector} {e : Stop} (hn : isNull sel = false) (h : fetchDescriptor sel c = .error e) :
    ldss sel c = .error e := by
  unfold ldss
  rw [hn]
  exact bind_error h

theorem ldcs_of_fetch_error {sel : Selector} {e : Stop} (hn : isNull sel = false) (h : fetchDescriptor sel c = .error e) :
    ldcs sel c = .error e := by
  unfold ldcs
  rw [hn]
  exact bind_error h

theorem lldtr_of_fetch_error {sel : Selector} {e : Stop} (hcpl : c.cur.cpl = 0#2) (hn : isNull sel = false)
    (hti : selTI sel = false) (h : fetchDescriptor sel c = .error e) : lldtr sel c = .error e := by
  unfold lldtr loadLdtr
  rw [bind_ok (requireLevel0_ok hcpl), hn, hti]
  exact bind_error h

/-- LLDTR takes no selector into the LDT (spec/40_segment_register_ops.md R195). -/
theorem lldtr_of_ti {sel : Selector} (hcpl : c.cur.cpl = 0#2) (hn : isNull sel = false) (hti : selTI sel = true) :
    lldtr sel c = .error (.fault (.generalProtection (selCode sel) c.kept)) := by
  unfold lldtr loadLdtr
  rw [bind_ok (requireLevel0_ok hcpl), hn, hti]
  rfl

/-- Steps (1) and (2) of R97. -/
theorem fetchDescriptor_outside {sel : Selector} (h : c.cur.selectorInTable sel = false) :
    fetchDescriptor sel c = .error (.fault (.generalProtection (selCode sel) c.kept)) := by
  unfold fetchDescriptor
  rw [h]
  rfl

/-- Step (3) of R97, with paging off. -/
theorem fetchDescriptor_reserved {sel : Selector} (hp : c.cur.pg = false) (ht : c.cur.selectorInTable sel = true)
    (hlo : c.cur.flatReadable (c.cur.descAddr sel) 4) (hhi : c.cur.flatReadable (c.cur.descAddr sel + 4) 4)
    (h : reservedBitSet (leValue 32 (c.cur.flatBytes (c.cur.descAddr sel + 4) 4)) = true) :
    fetchDescriptor sel c = .error (.refused .reservedBit) := by
  unfold fetchDescriptor
  rw [ht]
  refine (bind_ok (linRead_off _ 4 _ hp hlo)).trans ((bind_ok (linRead_off _ 4 _ hp hhi)).trans ?_)
  exact if_pos h

/-- Settles O19: each load ends as its fetch does; LLDTR of a selector into the LDT raises the same exception before it. -/
theorem fetchFailures : Obligations.FetchFailures := by
  intro sel s hn
  refine ⟨fun ht => ?_, fun hp ht hlo hhi hres => ?_⟩
  · have hf := fetchDescriptor_outside (c := Ctx.start s) ht
    refine ⟨fun r _ => runQuiet_fault (ldseg_of_fetch_error hn hf), runQuiet_fault (ldss_of_fetch_error hn hf),
      runQuiet_fault (ldcs_of_fetch_error hn hf), fun hcpl => ?_⟩
    cases hti : selTI sel with
    | false => exact runQuiet_fault (lldtr_of_fetch_error hcpl hn hti hf)
    | true => exact runQuiet_fault (lldtr_of_ti hcpl hn hti)
  · have hf := fetchDescriptor_reserved (c := Ctx.start s) hp ht hlo hhi hres
    exact ⟨fun r _ => runQuiet_ref (ldseg_of_fetch_error hn hf), runQuiet_ref (ldss_of_fetch_error hn hf),
      runQuiet_ref (ldcs_of_fetch_error hn hf), fun hcpl hti => runQuiet_ref (lldtr_of_fetch_error hcpl hn hti hf)⟩

end Sys2Proof.Machine
end

section
/-! Translations (spec/20_memory.md R110 to R129): what a walk answers, entry by entry, and the accesses that end as the
translation of their first byte does. -/

namespace Sys2Proof.Machine

/-! The TLB. -/

/-- A record answers only for its page, and picking draws at most one free value. -/
theorem tlbPick_cases (lin : Linear) (c : Ctx) :
    ∃ d : Ctx, (d = c ∨ d = c.tick) ∧
      (tlbPick lin c = (none, d) ∨ ∃ r ∈ c.cur.tlb, r.covers lin = true ∧ tlbPick lin c = (some r, d)) := by
  have hpick : ∀ (o : Option TlbRecord) (d : Ctx), (∀ r, o = some r → r ∈ c.cur.tlb.filter (·.covers lin)) →
      tlbPick lin c = (o, d) →
      tlbPick lin c = (none, d) ∨ ∃ r ∈ c.cur.tlb, r.covers lin = true ∧ tlbPick lin c = (some r, d) := by
    intro o d ho h
    cases o with
    | none => exact .inl h
    | some r =>
      obtain ⟨hr, hcovers⟩ := List.mem_filter.mp (ho r rfl)
      exact .inr ⟨r, hr, hcovers, h⟩
  by_cases hhere : c.cur.tlb.filter (·.covers lin) = []
  · exact ⟨c, .inl rfl, .inl (if_pos hhere)⟩
  · cases hpolicy : c.cur.platform.tlbPolicy with
    | never => exact ⟨c, .inl rfl, .inl (by simp [tlbPick, hhere, hpolicy])⟩
    | always =>
      exact ⟨c, .inl rfl, hpick _ c (fun r hr => List.mem_of_mem_head? hr) (by simp only [tlbPick, if_neg hhere, hpolicy])⟩
    | free =>
      cases hdraw : Config.tlbPick c.cur.draws with
      | zero => exact ⟨c.tick, .inr rfl, .inl (by simp [tlbPick, hhere, hpolicy, hdraw])⟩
      | succ k =>
        exact ⟨c.tick, .inr rfl, hpick ((c.cur.tlb.filter (·.covers lin))[k]?) c.tick (fun r hr => List.mem_of_getElem? hr)
          (by simp only [tlbPick, if_neg hhere, hpolicy, hdraw])⟩

/-- Settles O40: a translation asks the TLB first, which answers with a record of the page or with none. -/
theorem tlbAnswersOrWalks : Obligations.TlbAnswersOrWalks := by
  intro lin kind lvl c hpg hpae
  obtain ⟨d, hd, hnone | ⟨r, hr, hcovers, hsome⟩⟩ := tlbPick_cases lin c
  · refine ⟨d, hd, .inl ?_⟩
    simp only [translate, hpg, hpae, hnone, Bool.not_true, Bool.false_eq_true, if_false]
  · refine ⟨d, hd, .inr ⟨r, hr, hcovers, ?_⟩⟩
    have hplatform : d.cur.platform = c.cur.platform := by rcases hd with rfl | rfl <;> rfl
    simp only [translate, hpg, hpae, hsome, hplatform, Bool.not_true, Bool.false_eq_true, if_false, Bool.not_eq_true',
      Bool.or_eq_true, beq_iff_eq]
    rfl

/-! The walk. -/

section Walk
variable {c : Ctx} {lin : Linear} {kind : PageAccess} {lvl : Level}

theorem translate_pae (hpg : c.cur.pg = true) (hpae : c.cur.cr4.pae = true) :
    translate lin kind lvl c = .error (.refused .pae) := by
  simp only [translate, hpg, hpae, Bool.not_true, Bool.false_eq_true, if_false, if_true]
  rfl

theorem walk_absent (hb : c.cur.entryBacked (c.cur.pdeAddr lin)) (hp : entryP (c.cur.pdeOf lin) = false) :
    walk lin kind lvl c = .error (.fault (.pageFault lin kind lvl false c.kept)) := by
  refine (bind_ok (readEntry_backed hb)).trans (if_pos ?_)
  show (!entryP (c.cur.pdeOf lin)) = true
  rw [hp]
  rfl

theorem walk_present (hb : c.cur.entryBacked (c.cur.pdeAddr lin)) (hp : entryP (c.cur.pdeOf lin) = true) :
    walk lin kind lvl c = if (c.cur.cr4.pse && entryPS (c.cur.pdeOf lin)) = true then walkBig lin kind lvl (c.cur.pdeOf lin) c
      else walkSmall lin kind lvl (c.cur.pdeOf lin) c := by
  refine (bind_ok (readEntry_backed hb)).trans (if_neg ?_)
  show ¬(!entryP (c.cur.pdeOf lin)) = true
  rw [hp]
  exact Bool.false_ne_true

end Walk

section Maps
variable {s : State} {lin : Linear} {kind : PageAccess} {lvl : Level}

/-- The TLB record of a 4-KByte page (spec/20_memory.md R129 (a)). -/
def State.smallRecord (s : State) (lin : Linear) (dirty : Bool) : TlbRecord :=
  { linPage := pageOf .kb4 lin, size := .kb4, physBase := smallFrame (s.pteOf lin)
    rw := entryRW (s.pdeOf lin) && entryRW (s.pteOf lin), us := entryUS (s.pdeOf lin) && entryUS (s.pteOf lin)
    global := entryG (s.pteOf lin), dirty := dirty }

/-- The flags that the walk of a 4-KByte page sets: A in the PDE, A and on a write D in the PTE (R128). -/
def State.smallFlagged (s : State) (lin : Linear) (kind : PageAccess) : Ctx :=
  setFlags (pteAddr (s.pdeOf lin) lin) (kind == .write) (setFlags (s.pdeAddr lin) false (Ctx.start s))

/-- What the walk of a 4-KByte page leaves. -/
def State.smallWalk (s : State) (lin : Linear) (kind : PageAccess) : Ctx :=
  tlbFill (s.smallRecord lin ((s.smallFlagged lin kind).cur.dirtyAt (pteAddr (s.pdeOf lin) lin))) (s.smallFlagged lin kind)

/-- The TLB record of a 4-MByte page. -/
def State.bigRecord (s : State) (lin : Linear) (dirty : Bool) : TlbRecord :=
  { linPage := pageOf .mb4 lin, size := .mb4, physBase := bigFrame (s.pdeOf lin), rw := entryRW (s.pdeOf lin)
    us := entryUS (s.pdeOf lin), global := entryG (s.pdeOf lin), dirty := dirty }

/-- The flags that the walk of a 4-MByte page sets, in its PDE. -/
def State.bigFlagged (s : State) (lin : Linear) (kind : PageAccess) : Ctx :=
  setFlags (s.pdeAddr lin) (kind == .write) (Ctx.start s)

/-- What the walk of a 4-MByte page leaves. -/
def State.bigWalk (s : State) (lin : Linear) (kind : PageAccess) : Ctx :=
  tlbFill (s.bigRecord lin ((s.bigFlagged lin kind).cur.dirtyAt (s.pdeAddr lin))) (s.bigFlagged lin kind)

theorem translate_absentPde (h : s.walks) (hb : s.entryBacked (s.pdeAddr lin)) (hp : entryP (s.pdeOf lin) = false) :
    translate lin kind lvl (Ctx.start s) = .error (.fault (.pageFault lin kind lvl false s)) :=
  (translate_walk h lin kind lvl).trans (walk_absent hb hp)

/-- A PDE that points to a page table, with its reserved bit set (R125). -/
theorem translate_reservedPde (h : s.walks) (hb : s.entryBacked (s.pdeAddr lin)) (hp : entryP (s.pdeOf lin) = true)
    (hsmall : (s.cr4.pse && entryPS (s.pdeOf lin)) = false) (hres : entryD (s.pdeOf lin) = true) :
    translate lin kind lvl (Ctx.start s) = .error (.refused .reservedBit) := by
  refine (translate_walk h lin kind lvl).trans ((walk_present (c := Ctx.start s) hb hp).trans ?_)
  refine (if_neg (by rw [Ctx.start_cur, hsmall]; exact Bool.false_ne_true)).trans ?_
  exact if_pos hres

/-- A walk that reaches a PTE ends by what the PTE and the rights of both entries say (R126, R127). -/
theorem translate_reachesPte (h : s.reachesPte lin) :
    translate lin kind lvl (Ctx.start s) =
      if entryP (s.pteOf lin) = false then .error (.fault (.pageFault lin kind lvl false s))
      else if entryPS (s.pteOf lin) = true then .error (.refused .reservedBit)
      else if s.smallPermits lin lvl kind = false then .error (.fault (.pageFault lin kind lvl true s))
      else .ok (xlatOf .kb4 (smallFrame (s.pteOf lin)) lin, s.smallWalk lin kind) := by
  refine (translate_walk h.walks lin kind lvl).trans ((walk_present (c := Ctx.start s) h.pdeBacked h.pdePresent).trans ?_)
  refine (if_neg (by rw [Ctx.start_cur, h.small]; exact Bool.false_ne_true)).trans ?_
  refine (if_neg (by rw [Ctx.start_cur, h.pdeReserved]; exact Bool.false_ne_true)).trans ?_
  refine (bind_ok (readEntry_backed (c := Ctx.start s) h.pteBacked)).trans ?_
  simp only [Bool.not_eq_true']
  rfl

theorem translate_small (h : s.mapsSmall lin) (hp : s.smallPermits lin lvl kind = true) :
    translate lin kind lvl (Ctx.start s) = .ok (xlatOf .kb4 (smallFrame (s.pteOf lin)) lin, s.smallWalk lin kind) := by
  simp [translate_reachesPte h.reaches, h.ptePresent, h.pteReserved, hp]

theorem translate_smallDenied (h : s.mapsSmall lin) (hp : s.smallPermits lin lvl kind = false) :
    translate lin kind lvl (Ctx.start s) = .error (.fault (.pageFault lin kind lvl true s)) := by
  simp [translate_reachesPte h.reaches, h.ptePresent, h.pteReserved, hp]

/-- A present PDE of a 4-MByte page ends the walk (R123, R126). -/
theorem translate_bigPde (h : s.walks) (hb : s.entryBacked (s.pdeAddr lin)) (hp : entryP (s.pdeOf lin) = true)
    (hbig : (s.cr4.pse && entryPS (s.pdeOf lin)) = true) :
    translate lin kind lvl (Ctx.start s) =
      if (s.pdeOf lin).extractLsb' 12 10 ≠ 0#10 then .error (.refused .reservedBit)
      else if s.bigPermits lin lvl kind = false then .error (.fault (.pageFault lin kind lvl true s))
      else .ok (xlatOf .mb4 (bigFrame (s.pdeOf lin)) lin, s.bigWalk lin kind) := by
  refine (translate_walk h lin kind lvl).trans ((walk_present (c := Ctx.start s) hb hp).trans ?_)
  refine (if_pos hbig).trans ?_
  simp only [walkBig, Bool.not_eq_true']
  rfl

theorem State.mapsBig.pse_ps (h : s.mapsBig lin) : (s.cr4.pse && entryPS (s.pdeOf lin)) = true :=
  Bool.and_eq_true_iff.mpr h.big

theorem translate_big (h : s.mapsBig lin) (hp : s.bigPermits lin lvl kind = true) :
    translate lin kind lvl (Ctx.start s) = .ok (xlatOf .mb4 (bigFrame (s.pdeOf lin)) lin, s.bigWalk lin kind) := by
  simp [translate_bigPde h.walks h.pdeBacked h.pdePresent h.pse_ps, h.reserved, hp]

theorem translate_bigDenied (h : s.mapsBig lin) (hp : s.bigPermits lin lvl kind = false) :
    translate lin kind lvl (Ctx.start s) = .error (.fault (.pageFault lin kind lvl true s)) := by
  simp [translate_bigPde h.walks h.pdeBacked h.pdePresent h.pse_ps, h.reserved, hp]

end Maps

/-- Settles O39, by where the walk meets the bit. -/
theorem walkRefusals : Obligations.WalkRefusals := by
  intro lin kind lvl s
  refine ⟨translate_pae (c := Ctx.start s), fun h hb hp => ⟨fun hpse hps hres => ?_, translate_reservedPde h hb hp⟩,
    fun h hp hres => ?_⟩
  · rw [translate_bigPde h hb hp (Bool.and_eq_true_iff.mpr ⟨hpse, hps⟩), if_pos hres]
  · rw [translate_reachesPte h, hp, if_neg Bool.true_eq_false.mp, if_pos hres]

/-! What a walk leaves. -/

theorem flagMask_accessBits (kind : PageAccess) : flagMask (kind == .write) = accessBits kind := by
  cases kind <;> rfl

/-- Bits set in a byte after A of the same byte. -/
theorem accessBits_or (kind : PageAccess) (b : Byte) : b ||| accessBits .read ||| accessBits kind = b ||| accessBits kind := by
  rw [BitVec.or_assoc]
  cases kind <;> rfl

theorem marked_congr {s t : State} {pa : PhysAddr} (bits : Byte) (hk : t.kindAt pa = s.kindAt pa)
    (hb : t.byteAt pa = s.byteAt pa) : t.marked pa bits = s.marked pa bits := by
  unfold State.marked
  rw [hk, hb]

/-- One entry marked as the PDE and then as the entry that maps the page. -/
theorem marked_again {s t : State} {pa : PhysAddr} (kind : PageAccess) (hk : t.kindAt pa = s.kindAt pa)
    (hb : t.byteAt pa = s.marked pa (accessBits .read)) : t.marked pa (accessBits kind) = s.marked pa (accessBits kind) := by
  unfold State.marked at hb ⊢
  rw [hk, hb]
  split
  · exact accessBits_or kind _
  · rfl

section Leaves
variable {s : State} {lin : Linear} {kind : PageAccess}

theorem kindAt_of_rest {s t : State} (h : t = { s with mem := t.mem, draws := t.draws }) (pa : PhysAddr) :
    t.kindAt pa = s.kindAt pa := by
  rw [h]
  rfl

theorem smallFlagged_rest (s : State) (lin : Linear) (kind : PageAccess) :
    (s.smallFlagged lin kind).cur =
      { s with mem := (s.smallFlagged lin kind).cur.mem, draws := (s.smallFlagged lin kind).cur.draws } := by
  unfold State.smallFlagged
  rw [(setFlags_cur _ _ (setFlags (s.pdeAddr lin) false (Ctx.start s))).1, (setFlags_cur (s.pdeAddr lin) false (Ctx.start s)).1]
  rfl

/-- The bytes after the flags of a 4-KByte page are set, whether or not its PDE and PTE are one entry. -/
theorem smallFlagged_bytes (s : State) (lin : Linear) (kind : PageAccess) :
    (∀ a : Nat, a ≠ (s.pdeAddr lin).toNat → a ≠ (pteAddr (s.pdeOf lin) lin).toNat →
      (s.smallFlagged lin kind).cur.mem.read a = s.mem.read a) ∧
    (s.smallFlagged lin kind).cur.byteAt (pteAddr (s.pdeOf lin) lin) = s.marked (pteAddr (s.pdeOf lin) lin) (accessBits kind) ∧
    (s.pdeAddr lin ≠ pteAddr (s.pdeOf lin) lin →
      (s.smallFlagged lin kind).cur.byteAt (s.pdeAddr lin) = s.marked (s.pdeAddr lin) (accessBits .read)) := by
  unfold State.smallFlagged
  generalize hpte : pteAddr (s.pdeOf lin) lin = pte
  generalize hpde : s.pdeAddr lin = pde
  obtain ⟨hrest1, hother1, hmarked1⟩ := setFlags_cur pde false (Ctx.start s)
  obtain ⟨-, hother2, hmarked2⟩ := setFlags_cur pte (kind == .write) (setFlags pde false (Ctx.start s))
  have hkind := kindAt_of_rest hrest1 pte
  refine ⟨fun a hde hte => (hother2 a hte).trans (hother1 a hde), ?_, fun hne => ?_⟩
  · rw [hmarked2, flagMask_accessBits]
    by_cases heq : pte = pde
    · subst heq
      exact marked_again kind hkind hmarked1
    · exact marked_congr _ hkind (hother1 _ fun e => heq (BitVec.eq_of_toNat_eq e))
  · exact (hother2 _ fun e => hne (BitVec.eq_of_toNat_eq e)).trans hmarked1

/-- A record filled in after flags are set: all that has moved, and that memory is as the flags left it. -/
theorem tlbFill_flagged {c : Ctx} (r : TlbRecord) (h : s.tlb = [])
    (hrest : c.cur = { s with mem := c.cur.mem, draws := c.cur.draws }) :
    (tlbFill r c).cur = { s with mem := (tlbFill r c).cur.mem, tlb := (tlbFill r c).cur.tlb, draws := (tlbFill r c).cur.draws } ∧
      (tlbFill r c).cur.mem = c.cur.mem ∧ ((tlbFill r c).cur.tlb = [] ∨ (tlbFill r c).cur.tlb = [r]) := by
  obtain ⟨hfill, hrecord⟩ := tlbFill_cur r c (by rw [hrest]; exact h)
  refine ⟨?_, ?_, hrecord⟩
  · rw [hfill, hrest]
  · rw [hfill]

theorem smallWalk_walked (h : s.tlb = []) : s.SmallWalked (s.smallWalk lin kind).cur lin kind := by
  obtain ⟨hother, hpte, hpde⟩ := smallFlagged_bytes s lin kind
  obtain ⟨hrest, hmem, hrecord⟩ := tlbFill_flagged
    (s.smallRecord lin ((s.smallFlagged lin kind).cur.dirtyAt (pteAddr (s.pdeOf lin) lin))) h (smallFlagged_rest s lin kind)
  have hbyte : ∀ pa, (s.smallWalk lin kind).cur.byteAt pa = (s.smallFlagged lin kind).cur.byteAt pa :=
    fun pa => congrArg (Memory.read · pa.toNat) hmem
  refine ⟨hrest, fun a hde hte => ?_, (hbyte _).trans hpte, fun hne => (hbyte _).trans (hpde hne), ?_⟩
  · exact (congrArg (Memory.read · a) hmem).trans (hother a hde hte)
  · rw [hbyte]
    exact hrecord

theorem bigFlagged_rest (s : State) (lin : Linear) (kind : PageAccess) :
    (s.bigFlagged lin kind).cur =
      { s with mem := (s.bigFlagged lin kind).cur.mem, draws := (s.bigFlagged lin kind).cur.draws } :=
  (setFlags_cur (s.pdeAddr lin) (kind == .write) (Ctx.start s)).1

theorem bigWalk_walked (h : s.tlb = []) : s.BigWalked (s.bigWalk lin kind).cur lin kind := by
  obtain ⟨-, hother, hpde⟩ := setFlags_cur (s.pdeAddr lin) (kind == .write) (Ctx.start s)
  obtain ⟨hrest, hmem, hrecord⟩ := tlbFill_flagged
    (s.bigRecord lin ((s.bigFlagged lin kind).cur.dirtyAt (s.pdeAddr lin))) h (bigFlagged_rest s lin kind)
  have hbyte : ∀ pa, (s.bigWalk lin kind).cur.byteAt pa = (s.bigFlagged lin kind).cur.byteAt pa :=
    fun pa => congrArg (Memory.read · pa.toNat) hmem
  refine ⟨hrest, fun a hde => ?_, ?_, ?_⟩
  · exact (congrArg (Memory.read · a) hmem).trans (hother a hde)
  · rw [← flagMask_accessBits]
    exact (hbyte _).trans hpde
  · rw [hbyte]
    exact hrecord

end Leaves

/-! Frame and offset. -/

/-- The bits of a word from bit `k` up, in place: a multiple of `2 ^ k`. -/
theorem and_high_toNat {w : Nat} (e : BitVec w) (k : Nat) :
    (e &&& (BitVec.allOnes w <<< k)).toNat = e.toNat / 2 ^ k * 2 ^ k := by
  have hshift : e &&& (BitVec.allOnes w <<< k) = e >>> k <<< k := by
    refine BitVec.eq_of_getLsbD_eq fun i hi => ?_
    by_cases hik : i < k
    · simp [hik]
    · simp [hik, hi, show k + (i - k) = i by omega]
  have hlt : e.toNat / 2 ^ k * 2 ^ k < 2 ^ w := Nat.lt_of_le_of_lt (Nat.div_mul_le_self _ _) e.isLt
  rw [hshift, BitVec.toNat_shiftLeft, BitVec.toNat_ushiftRight, Nat.shiftLeft_eq, Nat.shiftRight_eq_div_pow,
    Nat.mod_eq_of_lt hlt]

/-- A page base with a page offset below it, as a physical address. -/
theorem frame_or_offset_toNat {k : Nat} (frame offset : Dword) {e l : Nat} (hframe : frame.toNat = e / 2 ^ k * 2 ^ k)
    (hoffset : offset.toNat = l % 2 ^ k) :
    ((frame ||| offset).setWidth 36 : PhysAddr).toNat = e / 2 ^ k * 2 ^ k + l % 2 ^ k := by
  have hor : (frame ||| offset).toNat = e / 2 ^ k * 2 ^ k + l % 2 ^ k := by
    rw [BitVec.toNat_or, hframe, hoffset, ← Nat.shiftLeft_eq,
      ← Nat.shiftLeft_add_eq_or_of_lt (Nat.mod_lt _ (Nat.two_pow_pos k))]
  rw [BitVec.toNat_setWidth_of_le (by decide), hor]

theorem xlatOf_kb4_toNat (e : Dword) (lin : Linear) :
    (xlatOf .kb4 (smallFrame e) lin).pa.toNat = e.toNat / 4096 * 4096 + lin.toNat % 4096 :=
  frame_or_offset_toNat (k := 12) _ _ (and_high_toNat e 12) (Nat.and_two_pow_sub_one_eq_mod lin.toNat 12)

theorem xlatOf_mb4_toNat (e : Dword) (lin : Linear) :
    (xlatOf .mb4 (bigFrame e) lin).pa.toNat = e.toNat / 2 ^ 22 * 2 ^ 22 + lin.toNat % 2 ^ 22 :=
  frame_or_offset_toNat (k := 22) _ _ (and_high_toNat e 22) (Nat.and_two_pow_sub_one_eq_mod lin.toNat 22)
/-- Settles O35, by what the translation answers and what the walk of each kind of page leaves. -/
theorem pageWalks : Obligations.PageWalks := by
  intro lin kind lvl s
  refine ⟨fun h hp => ?_, fun h hp => ?_⟩
  · exact ⟨_, _, translate_small h hp, xlatOf_kb4_toNat _ _, smallWalk_walked h.reaches.walks.noRecords⟩
  · exact ⟨_, _, translate_big h hp, xlatOf_mb4_toNat _ _, bigWalk_walked h.walks.noRecords⟩

end Sys2Proof.Machine
end

section
/-! Reads and writes with paging on (spec/20_memory.md R126, R130; spec/41_memory_access_ops.md R220, R221): an access ends as the
translation of its first byte does where that fails, and follows the translation of each byte where it completes. -/

namespace Sys2Proof.Machine

section Accesses
variable {c : Ctx} {lvl : Level}

theorem linRead_of_translate_error {la : Linear} {n : Nat} {e : Stop} (hn : 0 < n) (h : translate la .read lvl c = .error e) :
    linRead la n lvl c = .error e := by
  obtain ⟨m, rfl⟩ : ∃ m, n = m + 1 := ⟨n - 1, by omega⟩
  exact bind_error h

theorem linWrite_of_translate_error {la : Linear} {bs : List Byte} {e : Stop} (hn : 0 < bs.length)
    (h : translate la .write lvl c = .error e) : linWrite la bs lvl c = .error e := by
  obtain ⟨b, bs, rfl⟩ := List.exists_cons_of_length_pos hn
  exact bind_error (bind_error h)

/-- A logical read whose segment checks pass is the linear read at base plus offset. -/
theorem memRead_checked {r : SReg} {off : Dword} {n : Nat} (h : segCheck r (c.cur.seg r).h off n .read = true) :
    memRead r off n c = linRead ((c.cur.seg r).h.base + off) n c.cur.level c :=
  bind_ok (logicalToLinear_ok h)

/-- A logical write whose segment checks pass is the linear write at base plus offset. -/
theorem memWrite_checked {r : SReg} {off : Dword} {bs : List Byte}
    (h : segCheck r (c.cur.seg r).h off bs.length .write = true) :
    memWrite r off bs c = linWrite ((c.cur.seg r).h.base + off) bs c.cur.level c :=
  bind_ok (logicalToLinear_ok h)

end Accesses

section Instructions
variable {s : State} {r : SReg} {off : Dword} {n : Nat}

theorem mread_of_translate_fault {x : Fault} (hn : 0 < n) (hc : segCheck r (s.seg r).h off n .read = true)
    (h : translate ((s.seg r).h.base + off) .read s.level (Ctx.start s) = .error (.fault x)) :
    exec (.mread r off n) s = .fault x :=
  execMread_fault ((memRead_checked (c := Ctx.start s) hc).trans (linRead_of_translate_error hn h))

theorem mwrite_checked (v : Dword) (hc : segCheck r (s.seg r).h off n .write = true) :
    memWrite r off (leBytes n v) (Ctx.start s) = linWrite ((s.seg r).h.base + off) (leBytes n v) s.level (Ctx.start s) :=
  memWrite_checked (c := Ctx.start s) (by rw [leBytes_length]; exact hc)

theorem mwrite_of_translate_fault {v : Dword} {x : Fault} (hn : 0 < n) (hc : segCheck r (s.seg r).h off n .write = true)
    (h : translate ((s.seg r).h.base + off) .write s.level (Ctx.start s) = .error (.fault x)) :
    exec (.mwrite r off n v) s = .fault x :=
  runQuiet_fault ((mwrite_checked v hc).trans (linWrite_of_translate_error (by rwa [leBytes_length]) h))

end Instructions

theorem translate_absentPte {s : State} {lin : Linear} {kind : PageAccess} {lvl : Level} (h : s.reachesPte lin)
    (hp : entryP (s.pteOf lin) = false) :
    translate lin kind lvl (Ctx.start s) = .error (.fault (.pageFault lin kind lvl false s)) := by
  rw [translate_reachesPte h, if_pos hp]

/-- Settles O37: the first byte's translation raises the fault, before any flag is set. -/
theorem pageFaults : Obligations.PageFaults := by
  rintro r off n v s lin rfl hn hw
  refine ⟨fun hc => ⟨fun hb hp => ?_, fun h hp => ?_, fun h hp => ?_, fun h hp => ?_⟩,
    fun hc => ⟨fun hb hp => ?_, fun h hp => ?_, fun h hp => ?_, fun h hp => ?_⟩⟩
  · exact mread_of_translate_fault hn hc (translate_absentPde hw hb hp)
  · exact mread_of_translate_fault hn hc (translate_absentPte h hp)
  · exact mread_of_translate_fault hn hc (translate_smallDenied h hp)
  · exact mread_of_translate_fault hn hc (translate_bigDenied h hp)
  · exact mwrite_of_translate_fault hn hc (translate_absentPde hw hb hp)
  · exact mwrite_of_translate_fault hn hc (translate_absentPte h hp)
  · exact mwrite_of_translate_fault hn hc (translate_smallDenied h hp)
  · exact mwrite_of_translate_fault hn hc (translate_bigDenied h hp)

/-! A read within one page. -/

theorem physBytes_length (s : State) (pa : PhysAddr) (n : Nat) : (s.physBytes pa n).length = n := by
  induction n generalizing pa with
  | zero => rfl
  | succ n ih => simp [State.physBytes, ih]

theorem physIndex_succ (pa : PhysAddr) (i : Nat) : pa + BitVec.ofNat 36 (i + 1) = pa + 1 + BitVec.ofNat 36 i := by
  rw [BitVec.add_assoc, Nat.add_comm, BitVec.ofNat_add]
  rfl

/-- A byte that is not the last of its page is followed by one of the same page. -/
theorem next_in_page {la : Linear} (h : la.toNat % 4096 + 1 < 4096) :
    samePage 12 la (la + 1) = true ∧ (la + 1).toNat % 4096 = la.toNat % 4096 + 1 := by
  have hla := la.isLt
  have hsucc : (la + 1).toNat = la.toNat + 1 := by
    rw [BitVec.toNat_add]
    show (la.toNat + 1) % 2 ^ 32 = _
    omega
  refine ⟨?_, by omega⟩
  rw [samePage, beq_iff_eq, ← BitVec.toNat_inj, BitVec.toNat_ushiftRight, BitVec.toNat_ushiftRight, hsucc,
    Nat.shiftRight_eq_div_pow, Nat.shiftRight_eq_div_pow]
  omega

/-- The bytes after a translated byte of a 4-KByte page, up to the end of the page, share its translation (R126, R130). -/
theorem linReadFrom_samePage {c : Ctx} {lvl : Level} {n : Nat} {la : Linear} {x : Xlat} (hspan : x.span = 12)
    (hpage : la.toNat % 4096 + 1 + n ≤ 4096) (hm : ∀ i : Nat, i < n → c.cur.isMemory (x.pa + BitVec.ofNat 36 (i + 1))) :
    linReadFrom lvl n (la + 1) (some (la, x)) c = .ok (c.cur.physBytes (x.pa + 1) n, c) := by
  induction n generalizing la x with
  | zero => rfl
  | succ n ih =>
    obtain ⟨hsame, hoffset⟩ := next_in_page (la := la) (by omega)
    have hnext : nextXlat .read lvl (la + 1) (some (la, x)) c = .ok ({ x with pa := x.pa + 1 }, c) :=
      if_pos (by rw [hspan]; exact hsame)
    have hbyte : c.cur.isMemory (x.pa + 1) := hm 0 (by omega)
    have hrest := ih (la := la + 1) (x := { x with pa := x.pa + 1 }) hspan (by omega) fun i hi => by
      have := hm (i + 1) (by omega)
      rwa [physIndex_succ] at this
    exact (bind_ok hnext).trans ((bind_ok (physReadByte_memory _ hbyte)).trans (bind_ok hrest))

/-- A linear read within one 4-KByte page, whose first byte translates. -/
theorem linRead_page {c d : Ctx} {lvl : Level} {n : Nat} {la : Linear} {x : Xlat} (hn : 0 < n)
    (hx : translate la .read lvl c = .ok (x, d)) (hspan : x.span = 12) (hpage : la.toNat % 4096 + n ≤ 4096)
    (hm : ∀ i : Nat, i < n → c.cur.isMemory (x.pa + BitVec.ofNat 36 i)) :
    linRead la n lvl c = .ok (d.cur.physBytes x.pa n, d) := by
  obtain ⟨m, rfl⟩ : ∃ m, n = m + 1 := ⟨n - 1, by omega⟩
  have hd : ∀ pa, c.cur.isMemory pa → d.cur.isMemory pa := fun pa h => by
    rwa [State.isMemory, nextXlat_isMemory (prev := none) hx]
  have hbyte : d.cur.isMemory x.pa := hd _ (by simpa using hm 0 (by omega))
  have hrest := linReadFrom_samePage (c := d) (lvl := lvl) (la := la) (n := m) hspan (by omega)
    fun i hi => hd _ (hm (i + 1) (by omega))
  exact (bind_ok hx).trans ((bind_ok (physReadByte_memory _ hbyte)).trans (bind_ok hrest))

theorem physBytes_finish (s : State) (v : Result) (pa : PhysAddr) (n : Nat) :
    (s.finish v).physBytes pa n = s.physBytes pa n := by
  induction n generalizing pa with
  | zero => rfl
  | succ n ih => exact congrArg (s.byteAt pa :: ·) (ih (pa + 1))

/-- A translation keeps the result and what is pending, so putting them back undoes the end of an operation. -/
theorem finish_undone {s t : State} (h : t = { s with mem := t.mem, tlb := t.tlb, draws := t.draws }) (v : Result) :
    { t.finish v with result := s.result, pfx := s.pfx } = t := by
  have hresult : t.result = s.result := by rw [h]
  have hpfx : t.pfx = s.pfx := by rw [h]
  rw [← hresult, ← hpfx]
  rfl

/-- Settles O38: one translation serves all the bytes, which are read after the walk has set its flags. -/
theorem pagedReadCompletes : Obligations.PagedReadCompletes := by
  rintro r off n s lin pa rfl hn hc hmaps hperm hpage hpa hm
  have hx := translate_small (kind := .read) hmaps hperm
  have heq : (xlatOf .kb4 (smallFrame (s.pteOf ((s.seg r).h.base + off))) ((s.seg r).h.base + off)).pa = pa :=
    BitVec.eq_of_toNat_eq ((xlatOf_kb4_toNat _ _).trans hpa.symm)
  have hread := linRead_page (c := Ctx.start s) hn hx rfl hpage (by rwa [heq])
  rw [heq] at hread
  have hwalked := smallWalk_walked (lin := (s.seg r).h.base + off) (kind := .read) hmaps.reaches.walks.noRecords
  refine ⟨_, execMread_ok ((memRead_checked (c := Ctx.start s) hc).trans hread), ?_, rfl, ?_⟩
  · rw [physBytes_finish, State.finish_result, valueOf, physBytes_length]
  · rw [finish_undone hwalked.rest]
    exact hwalked
end Sys2Proof.Machine
end

section
/-! Values in memory: an access follows the translation of its bytes (spec/20_memory.md R126, R130), and what was written is read
back (R76, R220, R221). -/

namespace Sys2Proof.Machine

/-! Paging on or off. -/

theorem translateBytes_rest {kind : PageAccess} {lvl : Level} {n : Nat} {la : Linear} {s : State} {pas : List PhysAddr} {c : Ctx}
    (h : translateBytes kind lvl n la none (Ctx.start s) = .ok (pas, c)) : Grown s c.cur :=
  ((translateBytes_ends kind lvl n la none (start_grown s)).of_ok h).1

theorem translateBytes_length {kind : PageAccess} {lvl : Level} {n : Nat} {la : Linear} {prev : Option (Linear × Xlat)}
    {c d : Ctx} {pas : List PhysAddr} (h : translateBytes kind lvl n la prev c = .ok (pas, d)) : pas.length = n := by
  induction n generalizing la prev c pas with
  | zero => cases h; rfl
  | succ n ih =>
    obtain ⟨_, _, _, _, htail, rfl⟩ := translateBytes_succ h
    rw [List.length_cons, ih htail]

/-- Storing bytes at addresses in read-write memory: no other byte moves, and in canonical memory each of the addresses holds its
byte, where no two are the same. -/
theorem physWriteBytes_stored {c : Ctx} (pas : List PhysAddr) (bs : List Byte) (h : ∀ pa ∈ pas, c.cur.kindAt pa = .readWrite)
    (hl : bs.length = pas.length) :
    ∃ m : Memory, physWriteBytes pas bs c = .ok (c.onCur (·.setMem m)) ∧
      (∀ a : Nat, (∀ pa ∈ pas, a ≠ pa.toNat) → m.read a = c.cur.mem.read a) ∧
      (c.cur.mem.wf = true → pas.Nodup → ∀ (i : Nat) (pa : PhysAddr), pas[i]? = some pa → bs[i]? = some (m.read pa.toNat)) := by
  obtain ⟨m, hm, hother⟩ := physWriteBytes_gen pas bs h
  refine ⟨m, hm, hother, fun hw hnodup => ?_⟩
  obtain ⟨m', hm', -, hstored⟩ := physWriteBytes_nodup pas bs h hw hnodup hl
  have heq : m = m' := congrArg (fun d : Ctx => d.cur.mem) (Except.ok.inj (hm.symm.trans hm'))
  rw [heq]
  exact hstored

/-- Settles O29: a read goes byte by byte as its translations go, and a write stores after all of them. -/
theorem accessFollowsTranslation : Obligations.AccessFollowsTranslation := by
  intro r off n v s pas c
  refine ⟨fun hc ht hm => ⟨(translateBytes_rest ht).same.rest, ?_⟩, fun hc i pa hi ht hm hn => ?_,
    fun hc ht hm => ⟨(translateBytes_rest ht).same.rest, ?_⟩⟩
  · obtain ⟨bs, hread, hlength, hbytes⟩ := linReadFrom_memory ht hm
    refine ⟨bs, ?_, hlength, hbytes⟩
    have hvalue : valueOf bs = .value n (leValue 32 bs) := by rw [valueOf, hlength]
    rw [← hvalue]
    exact execMread_ok ((memRead_checked (c := Ctx.start s) hc).trans hread)
  · exact execMread_refused ((memRead_checked (c := Ctx.start s) hc).trans (linReadFrom_unbacked hi ht hm hn))
  · have hl : (leBytes n v).length = pas.length := (leBytes_length n v).trans (translateBytes_length ht).symm
    obtain ⟨m, hstore, hother, hstored⟩ := physWriteBytes_stored pas (leBytes n v) hm hl
    have hwrite : linWrite ((s.seg r).h.base + off) (leBytes n v) s.level (Ctx.start s) = .ok (c.onCur (·.setMem m)) := by
      unfold linWrite
      rw [leBytes_length, bind_ok ht]
      exact hstore
    refine ⟨_, runQuiet_ok ((mwrite_checked v hc).trans hwrite), rfl, hother, fun hw hnodup => ?_⟩
    exact hstored ((translateBytes_rest ht).wf hw) hnodup

/-! Paging off. -/

theorem leBytes_take {w : Nat} {n m : Nat} (h : m ≤ n) (v : BitVec w) : (leBytes n v).take m = leBytes m v := by
  induction m generalizing n v with
  | zero => rfl
  | succ m ih =>
    obtain ⟨k, rfl⟩ : ∃ k, n = k + 1 := ⟨n - 1, by omega⟩
    exact congrArg (v.setWidth 8 :: ·) (ih (by omega) (v >>> 8))

/-- The low bytes of a value give back its low bits (spec/20_memory.md R76). -/
theorem leValue_leBytes {w : Nat} (m : Nat) (v : BitVec w) (h : 8 * m ≤ w) :
    (leValue w (leBytes m v)).toNat = v.toNat % 2 ^ (8 * m) := by
  induction m generalizing v with
  | zero => simp [leBytes, leValue, Nat.mod_one]
  | succ m ih =>
    have hlow : (((v.setWidth 8).setWidth w : BitVec w)).toNat = v.toNat % 2 ^ 8 := by
      rw [BitVec.toNat_setWidth_of_le (by omega), BitVec.toNat_setWidth]
    have hhigh : (leValue w (leBytes m (v >>> 8)) <<< 8 : BitVec w).toNat = v.toNat / 2 ^ 8 % 2 ^ (8 * m) * 2 ^ 8 := by
      have hlt : v.toNat / 2 ^ 8 % 2 ^ (8 * m) * 2 ^ 8 < 2 ^ w :=
        calc v.toNat / 2 ^ 8 % 2 ^ (8 * m) * 2 ^ 8 < 2 ^ (8 * m) * 2 ^ 8 :=
              Nat.mul_lt_mul_of_pos_right (Nat.mod_lt _ (Nat.two_pow_pos _)) (Nat.two_pow_pos _)
          _ = 2 ^ (8 * (m + 1)) := by rw [← Nat.pow_add]; rfl
          _ ≤ 2 ^ w := Nat.pow_le_pow_right (by decide) h
      rw [BitVec.toNat_shiftLeft, ih _ (by omega), BitVec.toNat_ushiftRight, Nat.shiftRight_eq_div_pow, Nat.shiftLeft_eq,
        Nat.mod_eq_of_lt hlt]
    calc (leValue w (leBytes (m + 1) v)).toNat = v.toNat % 2 ^ 8 ||| v.toNat / 2 ^ 8 % 2 ^ (8 * m) * 2 ^ 8 := by
          rw [leBytes, leValue, BitVec.toNat_or, hlow, hhigh]
      _ = v.toNat / 2 ^ 8 % 2 ^ (8 * m) * 2 ^ 8 + v.toNat % 2 ^ 8 := by
          rw [Nat.or_comm, ← Nat.shiftLeft_eq, ← Nat.shiftLeft_add_eq_or_of_lt (Nat.mod_lt _ (by decide))]
      _ = v.toNat % 2 ^ (8 * (m + 1)) := by
          rw [Nat.mul_succ, Nat.add_comm (8 * m), Nat.pow_add, Nat.mod_mul, Nat.mul_comm, Nat.add_comm]

/-- `n` bytes from an address on, modulo 2^32, do not come back to it. -/
theorem flat_ne_later {la : Linear} {i : Nat} (h : i + 1 < 2 ^ 32) :
    (flat la).toNat ≠ (flat (la + 1 + BitVec.ofNat 32 i)).toNat := by
  rw [← index_succ, flat, flat, BitVec.toNat_setWidth_of_le (by decide), BitVec.toNat_setWidth_of_le (by decide), BitVec.toNat_add,
    BitVec.toNat_ofNat]
  have := la.isLt
  omega

/-- Reading where bytes were stored gives them back. -/
theorem flatBytes_flatStore {s : State} (w : s.mem.wf = true) {bs : List Byte} (hlen : bs.length < 2 ^ 32) (la : Linear) (m : Nat)
    (hm : m ≤ bs.length) : (s.flatStore la bs).flatBytes la m = bs.take m := by
  induction bs generalizing s la m with
  | nil =>
    obtain rfl : m = 0 := by simpa using hm
    rfl
  | cons b bs ih =>
    rw [List.length_cons] at hlen hm
    cases m with
    | zero => rfl
    | succ m =>
      have hfirst : (s.flatStore la (b :: bs)).byteAt (flat la) = b :=
        (flatStore_other (la + 1) bs _ _ fun i hi => flat_ne_later (by omega)).trans (Memory.read_write_same _ _ w)
      have hrest : (s.flatStore la (b :: bs)).flatBytes (la + 1) m = bs.take m :=
        ih (Memory.write_wf _ _ w) (by omega) (la + 1) m (by omega)
      show _ :: _ = b :: bs.take m
      rw [hfirst, hrest]

theorem flatBytes_finish (s : State) (v : Result) (la : Linear) (n : Nat) : (s.finish v).flatBytes la n = s.flatBytes la n := by
  induction n generalizing la with
  | zero => rfl
  | succ n ih => exact congrArg (s.byteAt (flat la) :: ·) (ih (la + 1))

theorem isReadable_of_isWritableData {typ : BitVec 4} (h : isWritableData typ = true) : isReadable typ = true := by
  revert typ; decide

/-- Where `n` bytes may be written, fewer of them may be read (R98 to R100). -/
theorem segCheck_read_of_write {r : SReg} {h : Hidden} {off : Dword} {n m : Nat} (hm : 0 < m) (hle : m ≤ n)
    (hw : segCheck r h off n .write = true) : segCheck r h off m .read = true := by
  obtain ⟨hrights, hlimit⟩ := (segmentLimits r h off n .write (by omega)).mp hw
  refine (segmentLimits r h off m .read hm).mpr ⟨?_, ?_⟩
  · obtain ⟨hvalid, htyp⟩ := Bool.and_eq_true_iff.mp hrights
    exact Bool.and_eq_true_iff.mpr ⟨hvalid, isReadable_of_isWritableData htyp⟩
  · split at hlimit
    · rename_i hdown
      rw [if_pos hdown]
      exact ⟨hlimit.1, fun i hi => hlimit.2 i (by omega)⟩
    · rename_i hup
      rw [if_neg hup]
      exact fun i hi => hlimit i (by omega)

/-- A logical read where bytes were stored, after the operation that stored them. -/
theorem flatMemBytes_flatMemStore {s : State} (w : s.mem.wf = true) {r : SReg} {off : Dword} {bs : List Byte}
    (hlen : bs.length < 2 ^ 32) {m : Nat} (hm : m ≤ bs.length) (v : Result) :
    ((s.flatMemStore r off bs).finish v).flatMemBytes r off m = bs.take m := by
  have hseg : ((s.flatMemStore r off bs).finish v).seg r = s.seg r := by
    unfold State.flatMemStore
    rw [flatStore_eq]
    rfl
  unfold State.flatMemBytes
  rw [flatBytes_finish, hseg]
  exact flatBytes_flatStore w hlen _ m hm

/-- It completes. -/
theorem flatMemReadable_flatMemStore {s : State} {r : SReg} {off : Dword} {bs : List Byte} (hw : s.flatMemWritable r off bs.length)
    {m : Nat} (hm : 0 < m) (hle : m ≤ bs.length) (v : Result) : ((s.flatMemStore r off bs).finish v).flatMemReadable r off m := by
  unfold State.flatMemStore
  rw [flatStore_eq]
  exact ⟨hw.pagingOff, segCheck_read_of_write hm hle hw.check, fun i hi => .inl (hw.memory i (by omega))⟩

/-- Settles O30: the bytes stored are the bytes read, and a value's low bytes hold its low bits. -/
theorem readAfterWrite : Obligations.ReadAfterWrite := by
  intro r off n m v s t hwf hn hm hle hw ht
  have hlen := leBytes_length n v
  rw [← hlen] at hw hle
  have hwrite : execMwrite r off n v s = .next ((s.flatMemStore r off (leBytes n v)).finish .none) :=
    runQuiet_ok (memWrite_off (c := Ctx.start s) hw)
  have hstate := Host.Outcome.next.inj (ht.symm.trans hwrite)
  have hreadable : t.flatMemReadable r off m := hstate ▸ flatMemReadable_flatMemStore hw hm hle .none
  have hbytes : t.flatMemBytes r off m = leBytes m v := by
    rw [hstate, flatMemBytes_flatMemStore hwf (by omega) hle, leBytes_take (by omega)]
  have hvalue : leValue 32 (leBytes m v) = BitVec.ofNat 32 (v.toNat % 2 ^ (8 * m)) := by
    refine BitVec.eq_of_toNat_eq ?_
    rw [leValue_leBytes m v (by omega), BitVec.toNat_ofNat,
      Nat.mod_eq_of_lt (Nat.lt_of_le_of_lt (Nat.mod_le _ _) v.isLt)]
  have hread := execMread_ok (memRead_off (c := Ctx.start t) hreadable)
  rw [Ctx.start_cur, hbytes, valueOf, leBytes_length, hvalue] at hread
  exact hread

end Sys2Proof.Machine
end

section
/-! What an exception leaves (spec/60_exceptions.md R300): each operation's body keeps, at every place where it may raise, a state
that differs from the one before it by what translations that passed may do (spec/20_memory.md R130). -/

namespace Sys2Proof.Machine

/-- A part that has completed raises nothing. -/
theorem Ends.done {α : Type} {a : α} {E : State → Prop} : Ends (.ok a) (fun _ => True) E := trivial

/-- For what an exception leaves, the answer does not matter. -/
theorem Ends.forget {α : Type} {y : Except Stop α} {Q : α → Prop} {E : State → Prop} (hy : Ends y Q E) :
    Ends y (fun _ => True) E :=
  hy.imp fun _ _ => trivial

section Whole
variable {s : State} {x : Fault}

theorem runOp_fault_grown {f : Ctx → Except Stop (Result × Ctx)} {Q : Result × Ctx → Prop} (h : runOp f s = .fault x)
    (hf : Ends (f (Ctx.start s)) Q (Grown s)) : Grown s x.left :=
  (runOp_cases (P := fun _ => True) (hf.imp fun _ _ _ => trivial)).2 x h

theorem runQuiet_fault_grown {f : Ctx → Except Stop Ctx} {Q : Ctx → Prop} (h : runQuiet f s = .fault x)
    (hf : Ends (f (Ctx.start s)) Q (Grown s)) : Grown s x.left :=
  (runQuiet_cases (P := fun _ => True) (hf.imp fun _ _ _ => trivial)).2 x h

end Whole

/-! The meanings that are more than one call of a shared operation. -/

section Meanings
variable {s : State} {x : Fault}

theorem execRdsel_ne_fault {r : SReg} : execRdsel r s ≠ .fault x := nofun

theorem execMread_fault_grown {r : SReg} {off : Dword} {n : Nat} (h : execMread r off n s = .fault x) : Grown s x.left :=
  runOp_fault_grown h ((memRead_ends r off n (start_grown s)).bind fun _ _ => Ends.done)

theorem execMfetch_fault_grown {off : Dword} {n : Nat} (h : execMfetch off n s = .fault x) : Grown s x.left :=
  runOp_fault_grown h ((logicalToLinear_ends .cs off n .exec (start_grown s)).bind fun lin _ =>
    (fetchBytes_ends _ n lin (start_grown s)).bind fun _ _ => Ends.done)

theorem execSpop_fault_grown {n : Nat} (h : execSpop n s = .fault x) : Grown s x.left :=
  runOp_fault_grown h ((spop_ends n (start_grown s)).bind fun _ _ => Ends.done)

theorem execRdcr_fault_grown {j : Nat} (h : execRdcr j s = .fault x) : Grown s x.left :=
  runOp_fault_grown h ((readCr_ends j (start_grown s)).bind fun _ _ => Ends.done)

theorem execMovSregRm16_fault_grown {r : SReg} {src : RM} (h : execMovSregRm16 r src s = .fault x) : Grown s x.left :=
  runQuiet_fault_grown h ((readRM16_ends src (start_grown s)).bind fun y hy => (loadSreg_sameLevel r y.1 hy.2).forget)

theorem execJmpMem_fault_grown {m : MemArg} (h : execJmpMem m s = .fault x) : Grown s x.left :=
  runOp_fault_grown h ((readFarPointer_ends m (start_grown s)).bind fun y hy => (farJump_ends y.1 y.2.1 hy.2).forget)

theorem execCallMem_fault_grown {m : MemArg} (h : execCallMem m s = .fault x) : Grown s x.left :=
  runQuiet_fault_grown h ((readFarPointer_ends m (start_grown s)).bind fun y hy => farCall_ends y.2.1 hy.2)

theorem execLgdt_fault_grown {m : MemArg} (h : execLgdt m s = .fault x) : Grown s x.left :=
  runQuiet_fault_grown h ((requireLevel0_ends (start_grown s)).bind fun _ _ =>
    (readTablePointer_ends m (start_grown s)).bind fun y hy => (lgdtr_ends y.1 y.2.1 hy.2).forget)

theorem execLldt_fault_grown {src : RM} (h : execLldt src s = .fault x) : Grown s x.left :=
  runQuiet_fault_grown h ((requireLevel0_ends (start_grown s)).bind fun _ _ =>
    (readRM16_ends src (start_grown s)).bind fun y hy => (lldtr_ends y.1 hy.2).forget)

theorem execMovR32Cr_fault_grown {r j : BitVec 3} (h : execMovR32Cr r j s = .fault x) : Grown s x.left :=
  runQuiet_fault_grown h ((readCr_ends j.toNat (start_grown s)).bind fun _ _ => Ends.done)

theorem execPushR32_fault_grown {r : BitVec 3} (h : execPushR32 r s = .fault x) : Grown s x.left := by
  unfold execPushR32 at h
  exact runQuiet_fault_grown h (spush_ends _ (start_grown s))

theorem execPopR32_fault_grown {r : BitVec 3} (h : execPopR32 r s = .fault x) : Grown s x.left :=
  runQuiet_fault_grown h ((spop_ends _ (start_grown s)).bind fun _ _ => Ends.done)

end Meanings

/-- An exception leaves what translations that passed may have done, whatever the instruction, well-formed or not. -/
theorem exec_fault_grown {i : Instr} {s : State} {x : Fault} (h : exec i s = .fault x) : Grown s x.left := by
  have hs := start_grown s
  cases i with
  | ldseg r sel => exact runQuiet_fault_grown h (ldseg_sameLevel r sel hs)
  | ldss sel => exact runQuiet_fault_grown h (ldss_ends sel hs)
  | ldcs sel => exact runQuiet_fault_grown h (ldcs_ends sel hs)
  | rdsel _ => exact absurd h execRdsel_ne_fault
  | lgdtr base limit => exact runQuiet_fault_grown h (lgdtr_ends base limit hs)
  | lldtr sel => exact runQuiet_fault_grown h (lldtr_ends sel hs)
  | mread _ _ _ => exact execMread_fault_grown h
  | mwrite r off n v => exact runQuiet_fault_grown h (memWrite_ends r off (leBytes n v) hs)
  | mfetch _ _ => exact execMfetch_fault_grown h
  | spush n v => exact runQuiet_fault_grown h (spush_ends (leBytes n v) hs)
  | spop _ => exact execSpop_fault_grown h
  | pfx66 | pfx67 | segEs | segCs | segSs | segDs | segFs | segGs | tasksw => nomatch h
  | wrcr0 v => exact runQuiet_fault_grown h (writeCr_ends 0 v hs)
  | wrcr3 v => exact runQuiet_fault_grown h (writeCr_ends 3 v hs)
  | wrcr4 v => exact runQuiet_fault_grown h (writeCr_ends 4 v hs)
  | rdcr _ => exact execRdcr_fault_grown h
  | maccess64 va _ => exact runOp_fault_grown h (maccess64_ends va hs)
  | movSregRm16 _ _ => exact execMovSregRm16_fault_grown h
  | movRm16Sreg dst _ => exact runQuiet_fault_grown h (writeRM16_ends dst _ hs)
  | popEs => exact runQuiet_fault_grown h (popSreg_ends .es nofun hs)
  | popSs => exact runQuiet_fault_grown h (popSreg_ends .ss nofun hs)
  | popDs => exact runQuiet_fault_grown h (popSreg_ends .ds nofun hs)
  | popFs => exact runQuiet_fault_grown h (popSreg_ends .fs nofun hs)
  | popGs => exact runQuiet_fault_grown h (popSreg_ends .gs nofun hs)
  | les r m => exact runQuiet_fault_grown h (loadFar_ends .es r m nofun hs)
  | lds r m => exact runQuiet_fault_grown h (loadFar_ends .ds r m nofun hs)
  | lss r m => exact runQuiet_fault_grown h (loadFar_ends .ss r m nofun hs)
  | lfs r m => exact runQuiet_fault_grown h (loadFar_ends .fs r m nofun hs)
  | lgs r m => exact runQuiet_fault_grown h (loadFar_ends .gs r m nofun hs)
  | jmpPtr off sel => exact runOp_fault_grown h (farJump_ends off sel hs)
  | callPtr _ sel => exact runQuiet_fault_grown h (farCall_ends sel hs)
  | jmpMem _ => exact execJmpMem_fault_grown h
  | callMem _ => exact execCallMem_fault_grown h
  | retf | retfImm _ | iret => exact runQuiet_fault_grown h (farReturn_ends hs)
  | lgdt _ => exact execLgdt_fault_grown h
  | sgdt m => exact runQuiet_fault_grown h (writeMem_ends m _ hs)
  | lldt _ => exact execLldt_fault_grown h
  | sldt dst => exact runQuiet_fault_grown h (writeRM16_ends dst _ hs)
  | movCrR32 j r => exact runQuiet_fault_grown h (writeCr_ends j.toNat (s.reg r) hs)
  | movR32Cr _ _ => exact execMovR32Cr_fault_grown h
  | movEaxMoffs a32 off => exact runQuiet_fault_grown h (loadAccumulator_ends a32 off _ hs)
  | movAlMoffs a32 off => exact runQuiet_fault_grown h (loadAccumulator_ends a32 off 1 hs)
  | movMoffsEax a32 off => exact runQuiet_fault_grown h (storeAccumulator_ends a32 off s.operandBytes hs)
  | movMoffsAl a32 off => exact runQuiet_fault_grown h (storeAccumulator_ends a32 off 1 hs)
  | pushR32 _ => exact execPushR32_fault_grown h
  | popR32 _ => exact execPopR32_fault_grown h

/-- Settles O56: what an exception leaves has grown by flags, records and draws alone. -/
theorem faultsArePrecise : Obligations.FaultsArePrecise := fun _ _ _ _ h => (exec_fault_grown h).same

end Sys2Proof.Machine
end

section
/-! An instruction that stores nothing changes memory by A flags of page entries alone (spec/20_memory.md R126, R128): the
translation of a read sets A in the PDE and the PTE it used, and no such flag moves an entry, so what the tables place is the same
after any number of translations. -/

namespace Sys2Proof.Machine

/-- What an instruction that stores nothing may do: A newly set in first bytes of page entries, which the tables before it place. -/
structure OnlyAccessed (s t : State) : Prop where
  bytes : ∀ a : Nat, t.mem.read a = s.mem.read a ∨ (s.entryByte a ∧ t.mem.read a = s.mem.read a ||| 0x20)
  ioOut : t.ioOut = s.ioOut
  off : s.pg = false → t.mem = s.mem

/-- What its translations and reads may do: they do not switch paging, nor move the page directory. -/
structure Accessed (s t : State) : Prop extends OnlyAccessed s t where
  pg : t.pg = s.pg
  cr3 : t.cr3 = s.cr3

theorem OnlyAccessed.of_same {s t : State} (hmem : t.mem = s.mem) (hio : t.ioOut = s.ioOut) : OnlyAccessed s t :=
  ⟨fun a => .inl (by rw [hmem]), hio, fun _ => hmem⟩

theorem OnlyAccessed.trans_same {s t u : State} (h : OnlyAccessed s t) (hmem : u.mem = t.mem) (hio : u.ioOut = t.ioOut) :
    OnlyAccessed s u :=
  ⟨fun a => by rw [hmem]; exact h.bytes a, hio.trans h.ioOut, fun hp => hmem.trans (h.off hp)⟩

theorem Accessed.of_same {s t : State} (hmem : t.mem = s.mem) (hio : t.ioOut = s.ioOut) (hpg : t.pg = s.pg)
    (hcr3 : t.cr3 = s.cr3) : Accessed s t :=
  ⟨.of_same hmem hio, hpg, hcr3⟩

theorem Accessed.refl (s : State) : Accessed s s := .of_same rfl rfl rfl rfl

theorem Accessed.tick (s : State) : Accessed s s.tick := .of_same rfl rfl rfl rfl

/-! A flags do not move the tables. -/

/-- An entry's first byte is at a multiple of 4. -/
theorem entryAddr_mod (f : BitVec 20) (i : BitVec 10) : (entryAddr f i).toNat % 4 = 0 := by
  rw [entryAddr_toNat]
  omega

theorem State.entryByte.aligned {s : State} {a : Nat} (h : s.entryByte a) : a % 4 = 0 := by
  obtain ⟨-, lin, rfl | rfl⟩ := h
  · exact entryAddr_mod _ _
  · exact entryAddr_mod _ _

/-- The other three bytes of an entry are no entry's first. -/
theorem entryAddr_byte_mod (f : BitVec 20) (i : BitVec 10) {k : Nat} (h : k < 4) :
    (entryAddr f i + BitVec.ofNat 36 k).toNat % 4 = k := by
  have hf := f.isLt
  have hi := i.isLt
  rw [BitVec.toNat_add, BitVec.toNat_ofNat, entryAddr_toNat]
  omega

/-- The frame an entry holds lies above its first byte (R114). -/
theorem entryFrame_leValue (b b' : Byte) (bs : List Byte) :
    entryFrame (leValue 32 (b :: bs)) = entryFrame (leValue 32 (b' :: bs)) := by
  refine BitVec.eq_of_getLsbD_eq fun i hi => ?_
  simp [entryFrame, leValue, BitVec.getLsbD_of_ge b (12 + i) (by omega), BitVec.getLsbD_of_ge b' (12 + i) (by omega)]

theorem Accessed.byteAt_inside {s t : State} (h : Accessed s t) (f : BitVec 20) (i : BitVec 10) {k : Nat} (hk : k < 4)
    (h0 : k ≠ 0) : t.byteAt (entryAddr f i + BitVec.ofNat 36 k) = s.byteAt (entryAddr f i + BitVec.ofNat 36 k) := by
  refine (h.bytes _).resolve_right fun hentry => h0 ?_
  rw [← entryAddr_byte_mod f i hk]
  exact hentry.1.aligned

theorem Accessed.pdeAddr {s t : State} (h : Accessed s t) (lin : Linear) : t.pdeAddr lin = s.pdeAddr lin := by
  unfold State.pdeAddr
  rw [h.cr3]

theorem Accessed.pteAddr {s t : State} (h : Accessed s t) (lin : Linear) :
    pteAddr (t.pdeOf lin) lin = pteAddr (s.pdeOf lin) lin := by
  have hframe : entryFrame (t.pdeOf lin) = entryFrame (s.pdeOf lin) := by
    have hbyte := fun k => h.byteAt_inside (s.cr3.extractLsb' 12 20) (dirIndex lin) (k := k)
    have h1 : t.byteAt (s.pdeAddr lin + 1) = s.byteAt (s.pdeAddr lin + 1) := hbyte 1 (by decide) (by decide)
    have h2 : t.byteAt (s.pdeAddr lin + 2) = s.byteAt (s.pdeAddr lin + 2) := hbyte 2 (by decide) (by decide)
    have h3 : t.byteAt (s.pdeAddr lin + 3) = s.byteAt (s.pdeAddr lin + 3) := hbyte 3 (by decide) (by decide)
    unfold State.pdeOf State.entryAt
    rw [h.pdeAddr, h1, h2, h3]
    exact entryFrame_leValue _ _ _
  unfold Machine.pteAddr
  rw [hframe]

/-- The tables place the same entries after A flags are set. -/
theorem Accessed.entryByte_iff {s t : State} (h : Accessed s t) (a : Nat) : t.entryByte a ↔ s.entryByte a := by
  unfold State.entryByte
  simp only [h.pg, h.pdeAddr, h.pteAddr]

theorem Accessed.trans {s t u : State} (h : Accessed s t) (g : Accessed t u) : Accessed s u := by
  refine ⟨⟨fun a => ?_, g.ioOut.trans h.ioOut, fun hp => (g.off (h.pg.trans hp)).trans (h.off hp)⟩, g.pg.trans h.pg,
    g.cr3.trans h.cr3⟩
  obtain hg | ⟨hentry, hg⟩ := g.bytes a
  · rw [hg]
    exact h.bytes a
  · refine .inr ⟨(h.entryByte_iff a).mp hentry, hg.trans ?_⟩
    obtain hh | ⟨-, hh⟩ := h.bytes a
    · rw [hh]
    · rw [hh, BitVec.or_assoc, BitVec.or_self]

/-! Translations. -/

/-- What a part of an operation answers, where it answers. -/
abbrev Answers {α : Type} (x : Except Stop α) (Q : α → Prop) : Prop := Ends x Q fun _ => True

theorem Ends.answers {α : Type} {x : Except Stop α} {Q Q' : α → Prop} {E : State → Prop} (h : Ends x Q E)
    (hq : ∀ a, Q a → Q' a) : Answers x Q' :=
  h.mono hq fun _ _ => trivial

theorem tableByte_answers (pa : PhysAddr) (c : Ctx) : Answers (tableByte pa c) (· = c.cur.byteAt pa) := by
  unfold tableByte
  split
  · exact Ends.ok rfl
  · exact Ends.ok rfl
  · exact Ends.refuse
  · exact Ends.refuse

/-- An entry that is read is the one in memory. -/
theorem readEntry_answers (pa : PhysAddr) (c : Ctx) : Answers (readEntry pa c) (· = c.cur.entryAt pa) := by
  unfold readEntry
  refine (tableByte_answers pa c).bind fun b0 h0 => (tableByte_answers (pa + 1) c).bind fun b1 h1 =>
    (tableByte_answers (pa + 2) c).bind fun b2 h2 => (tableByte_answers (pa + 3) c).bind fun b3 h3 => Ends.ok ?_
  rw [h0, h1, h2, h3]
  rfl

/-- Setting A in a page entry. -/
theorem setFlags_accessed {pa : PhysAddr} {c : Ctx} (h : c.cur.entryByte pa.toNat) :
    Accessed c.cur (setFlags pa false c).cur := by
  obtain ⟨hrest, hother, hmarked⟩ := setFlags_cur pa false c
  have hbyte : (setFlags pa false c).cur.mem.read pa.toNat = c.cur.mem.read pa.toNat ∨
      (setFlags pa false c).cur.mem.read pa.toNat = c.cur.mem.read pa.toNat ||| 0x20 := by
    change (setFlags pa false c).cur.mem.read pa.toNat = _ at hmarked
    unfold State.marked at hmarked
    split at hmarked
    · exact .inr hmarked
    · exact .inl hmarked
  refine ⟨⟨fun a => ?_, by rw [hrest], fun hp => absurd (hp.symm.trans h.1) Bool.false_ne_true⟩, by rw [hrest], by rw [hrest]⟩
  by_cases ha : a = pa.toNat
  · subst ha
    exact hbyte.imp_right fun hset => ⟨h, hset⟩
  · exact .inl (hother a ha)

theorem tlbFill_accessed (r : TlbRecord) (c : Ctx) : Accessed c.cur (tlbFill r c).cur := by
  unfold tlbFill
  split
  · exact .refl _
  · exact .of_same rfl rfl rfl rfl
  · split
    · exact .of_same rfl rfl rfl rfl
    · exact .tick _

section Reads
variable {c : Ctx} {lin : Linear} {lvl : Level}

theorem walkBig_accessed (pde : Dword) (hpg : c.cur.pg = true) :
    Answers (walkBig lin .read lvl pde c) (fun r => Accessed c.cur r.2.cur) := by
  unfold walkBig
  split
  · exact Ends.refuse
  · split
    · exact Ends.raise rfl trivial
    · exact Ends.ok ((setFlags_accessed ⟨hpg, lin, .inl rfl⟩).trans (tlbFill_accessed _ _))

theorem walkSmall_accessed (hpg : c.cur.pg = true) :
    Answers (walkSmall lin .read lvl (c.cur.pdeOf lin) c) (fun r => Accessed c.cur r.2.cur) := by
  unfold walkSmall
  split
  · exact Ends.refuse
  · refine (readEntry_answers _ _).bind fun pte _ => ?_
    split
    · exact Ends.raise rfl trivial
    · split
      · exact Ends.refuse
      · simp only
        split
        · exact Ends.raise rfl trivial
        · have hpde : Accessed c.cur (setFlags (c.cur.pdeAddr lin) false c).cur := setFlags_accessed ⟨hpg, lin, .inl rfl⟩
          have hpte := setFlags_accessed ((hpde.entryByte_iff _).mpr ⟨hpg, lin, .inr rfl⟩)
          exact Ends.ok ((hpde.trans hpte).trans (tlbFill_accessed _ _))

theorem walk_accessed (hpg : c.cur.pg = true) : Answers (walk lin .read lvl c) (fun r => Accessed c.cur r.2.cur) := by
  unfold walk
  refine (readEntry_answers _ _).bind fun pde hpde => ?_
  split
  · exact Ends.raise rfl trivial
  · split
    · exact walkBig_accessed pde hpg
    · rw [hpde]
      exact walkSmall_accessed hpg

/-- The translation of a read sets A in entries that the tables place, or nothing. -/
theorem translate_accessed : Answers (translate lin .read lvl c) (fun r => Accessed c.cur r.2.cur) := by
  by_cases hpg : c.cur.pg = true
  · by_cases hpae : c.cur.cr4.pae = true
    · rw [translate_pae hpg hpae]
      trivial
    · obtain ⟨d, hd, htranslate⟩ := tlbAnswersOrWalks lin .read lvl c hpg (by simpa using hpae)
      have hcd : Accessed c.cur d.cur := by
        rcases hd with rfl | rfl
        · exact .refl _
        · exact .tick _
      have hwalk : Answers (walk lin .read lvl d) (fun r => Accessed c.cur r.2.cur) :=
        (walk_accessed (hcd.pg.trans hpg)).imp fun _ h => hcd.trans h
      obtain htranslate | ⟨r, -, -, htranslate⟩ := htranslate
      · rw [htranslate]
        exact hwalk
      · rw [htranslate]
        split
        · trivial
        · split
          · exact Ends.ok hcd
          · exact hwalk
  · rw [translate_off lin .read lvl (by simpa using hpg)]
    exact Ends.ok (.refl _)

theorem nextXlat_accessed (la : Linear) (prev : Option (Linear × Xlat)) :
    Answers (nextXlat .read lvl la prev c) (fun r => Accessed c.cur r.2.cur) := by
  unfold nextXlat
  split
  · split
    · exact Ends.ok (.refl _)
    · exact translate_accessed
  · exact translate_accessed

theorem physReadByte_accessed (pa : PhysAddr) : Answers (physReadByte pa c) (fun r => Accessed c.cur r.2.cur) := by
  unfold physReadByte
  split
  · exact Ends.ok (.refl _)
  · exact Ends.ok (.refl _)
  · exact Ends.ok (.tick _)
  · exact Ends.refuse

theorem linReadFrom_accessed (n : Nat) (la : Linear) (prev : Option (Linear × Xlat)) :
    Answers (linReadFrom lvl n la prev c) (fun r => Accessed c.cur r.2.cur) := by
  induction n generalizing la prev c with
  | zero => exact Ends.ok (.refl _)
  | succ n ih =>
    unfold linReadFrom
    refine (nextXlat_accessed la prev).bind fun x hx => ?_
    refine (physReadByte_accessed x.1.pa).bind fun b hb => ?_
    exact (ih (la + 1) (some (la, x.1))).bind fun y hy => Ends.ok (hx.trans (hb.trans hy))

theorem fetchBytes_accessed (n : Nat) (la : Linear) :
    Answers (fetchBytes lvl n la c) (fun r => Accessed c.cur r.2.cur) := by
  induction n generalizing la c with
  | zero => exact Ends.ok (.refl _)
  | succ n ih =>
    unfold fetchBytes
    exact (linReadFrom_accessed 1 la none).bind fun x hx => (ih (la + 1)).bind fun y hy => Ends.ok (hx.trans hy)

theorem memRead_accessed (r : SReg) (off : Dword) (n : Nat) :
    Answers (memRead r off n c) (fun x => Accessed c.cur x.2.cur) := by
  unfold memRead
  exact ((logicalToLinear_ends r off n .read (.refl c.kept)).answers fun _ h => h).bind fun _ _ => linReadFrom_accessed n _ none

theorem fetchDescriptor_accessed (sel : Selector) : Answers (fetchDescriptor sel c) (fun x => Accessed c.cur x.2.cur) := by
  unfold fetchDescriptor
  split
  · exact Ends.raise rfl trivial
  · refine (linReadFrom_accessed 4 _ none).bind fun x hx => ?_
    refine (linReadFrom_accessed 4 _ none).bind fun ⟨hi, c2⟩ hy => ?_
    simp only at hy ⊢
    split
    · exact Ends.refuse
    · exact Ends.ok (hx.trans hy)

theorem readRM16_accessed (rm : RM) : Answers (readRM16 rm c) (fun x => Accessed c.cur x.2.cur) := by
  unfold readRM16
  split
  · exact Ends.ok (.refl _)
  · exact (memRead_accessed _ _ 2).bind fun _ hx => Ends.ok hx

theorem readTablePointer_accessed (m : MemArg) : Answers (readTablePointer m c) (fun x => Accessed c.cur x.2.2.cur) := by
  unfold readTablePointer
  exact (memRead_accessed _ _ 6).bind fun _ hx => Ends.ok hx

end Reads

/-! The operations that store nothing, after translations and reads. -/

theorem State.setReg_memory (s : State) (r : BitVec 3) (v : Dword) :
    (s.setReg r v).mem = s.mem ∧ (s.setReg r v).ioOut = s.ioOut := by
  rcases s.setReg_cases r v with h | ⟨g, h⟩ <;> rw [h] <;> exact ⟨rfl, rfl⟩

theorem Accessed.setReg {s t : State} (h : Accessed s t) (r : BitVec 3) (v : Dword) : OnlyAccessed s (t.setReg r v) := by
  obtain ⟨hmem, hio⟩ := t.setReg_memory r v
  exact h.toOnlyAccessed.trans_same hmem hio

theorem Accessed.setRegLow {s t : State} (h : Accessed s t) (r : BitVec 3) (n : Nat) (v : Dword) :
    OnlyAccessed s (t.setRegLow r n v) := by
  obtain ⟨w, hw⟩ := t.setRegLow_cases r n v
  rw [hw]
  exact h.setReg r w

section Operations
variable {c : Ctx} {s : State}

theorem requireLevel0_answers : Answers (requireLevel0 c) (fun _ => True) :=
  (requireLevel0_ends (.refl c.kept)).answers fun _ _ => trivial

/-- A pop moves ESP besides, which `Accessed` leaves free. -/
theorem spop_accessed (n : Nat) : Answers (spop n c) (fun x => Accessed c.cur x.2.cur) := by
  unfold spop
  exact (memRead_accessed .ss _ n).bind fun _ hx => Ends.ok (hx.trans (.of_same rfl rfl rfl rfl))

theorem loadAccumulator_onlyAccessed (a32 : Bool) (off : Dword) (n : Nat) :
    Answers (loadAccumulator a32 off n c) (fun d => OnlyAccessed c.cur d.cur) := by
  unfold loadAccumulator
  exact (memRead_accessed _ _ n).bind fun _ hx => Ends.ok (hx.setRegLow _ _ _)

theorem readCr_accessed (j : Nat) : Answers (readCr j c) (fun x => Accessed c.cur x.2.cur) := by
  unfold readCr
  refine requireLevel0_answers.bind fun _ _ => ?_
  split
  · exact Ends.ok (.refl _)
  · split <;> exact Ends.ok (.tick _)

theorem writeCr_onlyAccessed (j : Nat) (v : Dword) : Answers (writeCr j v c) (fun d => OnlyAccessed c.cur d.cur) :=
  (writeCr_ends j v (.refl c.kept)).answers fun _ ⟨_, hcur, _⟩ => by rw [hcur]; exact .of_same rfl rfl

theorem lgdtr_onlyAccessed (base : Linear) (limit : BitVec 16) (h : Accessed s c.cur) :
    Answers (lgdtr base limit c) (fun d => OnlyAccessed s d.cur) :=
  (lgdtr_ends base limit (.refl c.kept)).answers fun _ ⟨_, hcur, _⟩ => by
    rw [hcur]
    exact h.toOnlyAccessed.trans_same rfl rfl

theorem lldtr_onlyAccessed (sel : Selector) (h : Accessed s c.cur) :
    Answers (lldtr sel c) (fun d => OnlyAccessed s d.cur) := by
  unfold lldtr loadLdtr
  refine requireLevel0_answers.bind fun _ _ => ?_
  split
  · exact Ends.ok (h.toOnlyAccessed.trans_same rfl rfl)
  · split
    · exact Ends.raise rfl trivial
    · refine (fetchDescriptor_accessed sel).bind fun ⟨d, c1⟩ hx => ?_
      simp only at hx ⊢
      split
      · exact Ends.raise rfl trivial
      · split
        · exact Ends.raise rfl trivial
        · exact Ends.ok ((h.trans hx).toOnlyAccessed.trans_same rfl rfl)

end Operations

section Whole
variable {s t : State}

/-- The end of an operation moves the result and what is pending. -/
theorem OnlyAccessed.finish (h : OnlyAccessed s t) (v : Result) : OnlyAccessed s (t.finish v) := h.trans_same rfl rfl

theorem runOp_onlyAccessed {f : Ctx → Except Stop (Result × Ctx)} (h : runOp f s = .next t)
    (hf : Answers (f (Ctx.start s)) (fun x => OnlyAccessed s x.2.cur)) : OnlyAccessed s t :=
  (runOp_cases (hf.imp fun _ hx => hx.finish)).1 t h

theorem runQuiet_onlyAccessed {f : Ctx → Except Stop Ctx} (h : runQuiet f s = .next t)
    (hf : Answers (f (Ctx.start s)) (fun d => OnlyAccessed s d.cur)) : OnlyAccessed s t :=
  (runQuiet_cases (hf.imp fun _ hd => hd.finish)).1 t h

theorem execMread_onlyAccessed {r : SReg} {off : Dword} {n : Nat} (h : execMread r off n s = .next t) : OnlyAccessed s t :=
  runOp_onlyAccessed h ((memRead_accessed r off n).bind fun _ hx => Ends.ok hx.toOnlyAccessed)

theorem execMfetch_onlyAccessed {off : Dword} {n : Nat} (h : execMfetch off n s = .next t) : OnlyAccessed s t :=
  runOp_onlyAccessed h (((logicalToLinear_ends .cs off n .exec (start_grown s)).answers fun _ h => h).bind fun lin _ =>
    (fetchBytes_accessed n lin).bind fun _ hx => Ends.ok hx.toOnlyAccessed)

theorem execSpop_onlyAccessed {n : Nat} (h : execSpop n s = .next t) : OnlyAccessed s t :=
  runOp_onlyAccessed h ((spop_accessed n).bind fun _ hx => Ends.ok hx.toOnlyAccessed)

theorem execRdcr_onlyAccessed {j : Nat} (h : execRdcr j s = .next t) : OnlyAccessed s t :=
  runOp_onlyAccessed h ((readCr_accessed j).bind fun _ hx => Ends.ok hx.toOnlyAccessed)

theorem execLgdt_onlyAccessed {m : MemArg} (h : execLgdt m s = .next t) : OnlyAccessed s t :=
  runQuiet_onlyAccessed h (requireLevel0_answers.bind fun _ _ =>
    (readTablePointer_accessed m).bind fun x hx => lgdtr_onlyAccessed x.1 x.2.1 hx)

theorem execLldt_onlyAccessed {src : RM} (h : execLldt src s = .next t) : OnlyAccessed s t :=
  runQuiet_onlyAccessed h (requireLevel0_answers.bind fun _ _ =>
    (readRM16_accessed src).bind fun x hx => lldtr_onlyAccessed x.1 hx)

theorem execMovR32Cr_onlyAccessed {r j : BitVec 3} (h : execMovR32Cr r j s = .next t) : OnlyAccessed s t :=
  runQuiet_onlyAccessed h ((readCr_accessed j.toNat).bind fun _ hx => Ends.ok (hx.setReg r _))

theorem execPopR32_onlyAccessed {r : BitVec 3} (h : execPopR32 r s = .next t) : OnlyAccessed s t :=
  runQuiet_onlyAccessed h ((spop_accessed _).bind fun _ hx => Ends.ok (hx.setRegLow r _ _))

end Whole

/-- An instruction that stores nothing and completes has set A flags of page entries at most. -/
theorem exec_onlyAccessed {i : Instr} {s t : State} (hi : storesNothing i = true) (h : exec i s = .next t) :
    OnlyAccessed s t := by
  have hs := Accessed.refl s
  cases i with
  | rdsel _ | pfx66 | pfx67 | segEs | segCs | segSs | segDs | segFs | segGs => cases h; exact .of_same rfl rfl
  | lgdtr base limit => exact runQuiet_onlyAccessed h (lgdtr_onlyAccessed base limit hs)
  | lldtr sel => exact runQuiet_onlyAccessed h (lldtr_onlyAccessed sel hs)
  | mread _ _ _ => exact execMread_onlyAccessed h
  | mfetch _ _ => exact execMfetch_onlyAccessed h
  | spop _ => exact execSpop_onlyAccessed h
  | wrcr0 v => exact runQuiet_onlyAccessed h (writeCr_onlyAccessed 0 v)
  | wrcr3 v => exact runQuiet_onlyAccessed h (writeCr_onlyAccessed 3 v)
  | wrcr4 v => exact runQuiet_onlyAccessed h (writeCr_onlyAccessed 4 v)
  | rdcr _ => exact execRdcr_onlyAccessed h
  | tasksw => nomatch h
  | maccess64 va _ =>
    exact runOp_onlyAccessed h ((maccess64_ends va (start_grown s)).answers fun _ hx => hx.elim)
  | lgdt _ => exact execLgdt_onlyAccessed h
  | lldt _ => exact execLldt_onlyAccessed h
  | movCrR32 j r => exact runQuiet_onlyAccessed h (writeCr_onlyAccessed j.toNat (s.reg r))
  | movR32Cr _ _ => exact execMovR32Cr_onlyAccessed h
  | movEaxMoffs a32 off => exact runQuiet_onlyAccessed h (loadAccumulator_onlyAccessed a32 off _)
  | movAlMoffs a32 off => exact runQuiet_onlyAccessed h (loadAccumulator_onlyAccessed a32 off 1)
  | popR32 _ => exact execPopR32_onlyAccessed h
  | _ => cases hi

/-- Settles O60: the entries whose A flags are set are those the tables place in the state before. -/
theorem readersKeepMemory : Obligations.ReadersKeepMemory := by
  intro i s t hi h
  have ht := exec_onlyAccessed hi h
  refine ⟨fun a ha => ?_, fun a => ?_, ht.ioOut, ht.off⟩
  · exact (ht.bytes a).resolve_right fun hentry => ha hentry.1
  · exact (ht.bytes a).imp_right And.right

end Sys2Proof.Machine
end

section
/-! The decoder (spec/30_encoding.md R152, R155, R159): what each part of it reads off the front of a stream is what the matching
part of the encoder wrote, and what it accepts lies in the operand ranges. -/

namespace Sys2Proof

open Sys2Proof.Machine (DecodeError leValue leBytes leValue_leBytes leBytes_length)

/-- An instruction in its operand ranges, read under the address size in force. -/
def Accepted (a32 : Bool) (i : Instr) : Prop := i.wf = true ∧ i.readsUnder a32 = true

/-- The same of a ModRM operand. -/
def AcceptedRM (a32 : Bool) (rm : RM) : Prop := rm.wf = true ∧ (rm.addr32 == none || rm.addr32 == some a32) = true

/-! What the parts of the encoder write is read back. -/

/-- A bind of a part of the decoder that answers. -/
theorem bind_of_ok {α β : Type} {x : Except DecodeError α} {a : α} {f : α → Except DecodeError β} (h : x = .ok a) :
    (x >>= f) = f a := by
  subst h; rfl

/-- A value that fits in its bytes is the value of its bytes (spec/20_memory.md R76). -/
theorem leValue_leBytes_of_lt {w m : Nat} {v : BitVec w} (hm : 8 * m ≤ w) (hv : v.toNat < 2 ^ (8 * m)) :
    leValue w (leBytes m v) = v :=
  BitVec.eq_of_toNat_eq ((leValue_leBytes m v hm).trans (Nat.mod_eq_of_lt hv))

theorem SReg.ofNumber_number (r : SReg) : SReg.ofNumber r.number = some r := by
  cases r <;> rfl

theorem takeBytes_append {n : Nat} {bs : List Byte} (h : bs.length = n) (rest : List Byte) :
    takeBytes n (bs ++ rest) = .ok (bs, rest) := by
  subst h
  simp [takeBytes]

theorem takeSib_append {has : Bool} {sib : Option Byte} (h : sib.isSome = has) (rest : List Byte) :
    takeSib has (sib.toList ++ rest) = .ok (sib, rest) := by
  subst h
  cases sib <;> rfl

section Fields
variable (mod : BitVec 2) (reg rm : BitVec 3)

theorem modRM_mod : (modRM mod reg rm).extractLsb' 6 2 = mod := by
  revert mod reg rm; decide

theorem modRM_reg : (modRM mod reg rm).extractLsb' 3 3 = reg := by
  revert mod reg rm; decide

theorem modRM_rm : (modRM mod reg rm).extractLsb' 0 3 = rm := by
  revert mod reg rm; decide

end Fields

theorem MemArg.wf_iff (m : MemArg) :
    m.wf = true ↔ m.mod ≠ 3#2 ∧ m.sib.isSome = MemArg.hasSib m.a32 m.rm ∧
      m.disp.length = MemArg.dispLen m.a32 m.mod m.rm m.sib := by
  simp only [MemArg.wf, Bool.and_eq_true, bne_iff_ne, beq_iff_eq, and_assoc]

section Operands
variable {a32 : Bool} (rest : List Byte)

theorem decodeModRM_mem {m : MemArg} (reg : BitVec 3) (hw : m.wf = true) :
    decodeModRM m.a32 (encodeModRM reg (.mem m) ++ rest) = .ok (reg, .mem m, rest) := by
  obtain ⟨hmod, hsib, hdisp⟩ := m.wf_iff.mp hw
  simp only [encodeModRM, List.cons_append, List.append_assoc, decodeModRM, modRM_mod, modRM_reg, modRM_rm, if_neg hmod]
  exact (bind_of_ok (takeSib_append hsib _)).trans (bind_of_ok (takeBytes_append hdisp rest))

theorem decodeModRM_reg (reg r : BitVec 3) :
    decodeModRM a32 (encodeModRM reg (.reg r) ++ rest) = .ok (reg, .reg r, rest) := by
  simp only [encodeModRM, List.cons_append, List.nil_append, decodeModRM, modRM_mod, modRM_reg, modRM_rm]
  rfl

theorem AcceptedRM.a32_eq {m : MemArg} (h : AcceptedRM a32 (.mem m)) : m.a32 = a32 := by
  simpa [RM.addr32] using h.2

theorem decodeModRM_encode {rm : RM} (reg : BitVec 3) (h : AcceptedRM a32 rm) :
    decodeModRM a32 (encodeModRM reg rm ++ rest) = .ok (reg, rm, rest) := by
  cases rm with
  | reg r => exact decodeModRM_reg rest reg r
  | mem m =>
    rw [← h.a32_eq]
    exact decodeModRM_mem rest reg h.1

theorem decodeMovToSreg_encode {r : SReg} {src : RM} (hr : r ≠ .cs) (h : AcceptedRM a32 src) :
    decodeMovToSreg a32 (encodeModRM r.number src ++ rest) = .ok (.movSregRm16 r src, rest) := by
  unfold decodeMovToSreg
  rw [bind_of_ok (decodeModRM_encode rest r.number h)]
  simp only [SReg.ofNumber_number, if_neg hr]

theorem decodeMovFromSreg_encode {r : SReg} {dst : RM} (h : AcceptedRM a32 dst) :
    decodeMovFromSreg a32 (encodeModRM r.number dst ++ rest) = .ok (.movRm16Sreg dst r, rest) := by
  unfold decodeMovFromSreg
  rw [bind_of_ok (decodeModRM_encode rest r.number h)]
  simp only [SReg.ofNumber_number]

theorem decodeFarLoadAs_encode {m : MemArg} (f : BitVec 3 → MemArg → Instr) (op : Byte) (r : BitVec 3)
    (h : AcceptedRM a32 (.mem m)) :
    decodeFarLoadAs f op a32 (encodeModRM r (.mem m) ++ rest) = .ok (f r m, rest) :=
  bind_of_ok (decodeModRM_encode rest r h)

theorem decodeFarAs_encode (f : Dword → Selector → Instr) (off : Dword) (sel : Selector) :
    decodeFarAs f (encodeFar off sel ++ rest) = .ok (f off sel, rest) := by
  unfold decodeFarAs encodeFar
  rw [List.append_assoc, bind_of_ok (takeBytes_append (leBytes_length 4 off) _)]
  refine (bind_of_ok (takeBytes_append (leBytes_length 2 sel) rest)).trans ?_
  exact congrArg₂ (fun o s => Except.ok (f o s, rest)) (leValue_leBytes_of_lt (by decide) off.isLt)
    (leValue_leBytes_of_lt (by decide) sel.isLt)

/-- The offset of a well-formed moffs operand fits in the bytes it is written in. -/
theorem decodeMoffs_encode {off : Dword} (h : moffsOk a32 off = true) :
    decodeMoffs a32 (encodeMoffs a32 off ++ rest) = .ok (off, rest) := by
  unfold decodeMoffs encodeMoffs
  rw [bind_of_ok (takeBytes_append (leBytes_length _ off) rest)]
  refine congrArg (fun v => Except.ok (v, rest)) ?_
  cases a32 with
  | true => exact leValue_leBytes_of_lt (m := 4) (by decide) off.isLt
  | false => exact leValue_leBytes_of_lt (m := 2) (by decide) (of_decide_eq_true h)

theorem decodeMoffsAs_encode {a : Bool} {off : Dword} (f : Bool → Dword → Instr) (h : moffsOk a off = true)
    (ha : (some a == none || some a == some a32) = true) :
    decodeMoffsAs f a32 (encodeMoffs a off ++ rest) = .ok (f a off, rest) := by
  obtain rfl : a = a32 := by simpa using ha
  exact bind_of_ok (decodeMoffs_encode rest h)

theorem decodeMovCr_encode {toCr : Bool} {k r : BitVec 3} (hk : controlRegOk k.toNat = true) :
    decodeMovCr toCr (modRM 3 k r :: rest) = .ok (if toCr then .movCrR32 k r else .movR32Cr r k, rest) := by
  simp only [decodeMovCr, modRM_reg, modRM_rm, if_pos hk]

end Operands

/-! The opcode of an instruction leads to the part of the decoder that reads the rest of its bytes. -/

section Streams
variable {a32 : Bool} {b : Byte} {bs : List Byte}

theorem decodeCode_alone {i : Instr} (h : decodeAlone b = some i) : decodeCode a32 (b :: bs) = .ok (i, bs) := by
  simp only [decodeCode, h]

theorem decodeCode_withOperands (h : decodeAlone b = none) : decodeCode a32 (b :: bs) = decodeWithOperands a32 b bs := by
  simp only [decodeCode, h]

end Streams

theorem decodeAlone_push (r : BitVec 3) : decodeAlone (0b01010#5 ++ r : BitVec 8) = some (.pushR32 r) := by
  revert r; decide

theorem decodeAlone_pop (r : BitVec 3) : decodeAlone (0b01011#5 ++ r : BitVec 8) = some (.popR32 r) := by
  revert r; decide

/-! Operations (spec/30_encoding.md R152). -/

theorem argBits_toNat {w : Nat} (name : OpName) (v : BitVec w) : argBits name w v.toNat = .ok v := by
  simp [argBits, v.isLt]

theorem checked_of_wf {name : OpName} {i : Instr} (h : i.wf = true) : checked name i = .ok i := by
  simp only [checked, h, if_true]

/-- An operand that is a number of `w` bits, in front of what decodes with it. -/
theorem argBits_bind {w : Nat} {name : OpName} {v : BitVec w} {f : BitVec w → Except DecodeError Instr} {i : Instr}
    (h : f v = .ok i) : (argBits name w v.toNat >>= f) = .ok i :=
  (bind_of_ok (argBits_toNat name v)).trans h

/-- Decoding an instruction's encoding gives the instruction, and of a stream that begins with it leaves the rest. -/
def EncodingDecodes (a32 : Bool) (i : Instr) : Prop :=
  match encode i with
  | .op name args => decodeOp name args = .ok i
  | .code bytes => ∀ rest : List Byte, decodeCode a32 (bytes ++ rest) = .ok (i, rest)

theorem encodingDecodes {a32 : Bool} {i : Instr} (h : Accepted a32 i) : EncodingDecodes a32 i := by
  obtain ⟨hw, ha⟩ := h
  cases i with
  | ldseg _ _ | ldss _ | ldcs _ | lldtr _ | mread _ _ _ | mfetch _ _ | spush _ _ | wrcr0 _ | wrcr3 _ | wrcr4 _ | maccess64 _ _ =>
    exact argBits_bind (checked_of_wf hw)
  | lgdtr _ _ | mwrite _ _ _ _ => exact argBits_bind (argBits_bind (checked_of_wf hw))
  | rdsel _ | tasksw => rfl
  | spop _ | rdcr _ => exact checked_of_wf hw
  | pfx66 | pfx67 | popEs | popSs | popDs | retf | iret | segEs | segCs | segSs | segDs | segFs | segGs =>
    exact fun _ => decodeCode_alone rfl
  | pushR32 r => exact fun _ => decodeCode_alone (decodeAlone_push r)
  | popR32 r => exact fun _ => decodeCode_alone (decodeAlone_pop r)
  | popFs | popGs => exact fun _ => rfl
  | movSregRm16 r src =>
    obtain ⟨hr, hsrc⟩ := Bool.and_eq_true_iff.mp hw
    exact fun rest => (decodeCode_withOperands rfl).trans (decodeMovToSreg_encode rest (bne_iff_ne.mp hr) ⟨hsrc, ha⟩)
  | movRm16Sreg dst r => exact fun rest => (decodeCode_withOperands rfl).trans (decodeMovFromSreg_encode rest ⟨hw, ha⟩)
  | les r m | lds r m | lss r m | lfs r m | lgs r m =>
    exact fun rest => (decodeCode_withOperands rfl).trans (decodeFarLoadAs_encode rest _ _ r ⟨hw, ha⟩)
  | jmpPtr off sel | callPtr off sel =>
    exact fun rest => (decodeCode_withOperands rfl).trans (decodeFarAs_encode rest _ off sel)
  | jmpMem m | callMem m | lgdt m | sgdt m =>
    exact fun rest => (decodeCode_withOperands rfl).trans (bind_of_ok (decodeModRM_encode rest _ (rm := .mem m) ⟨hw, ha⟩))
  | lldt rm | sldt rm =>
    exact fun rest => (decodeCode_withOperands rfl).trans (bind_of_ok (decodeModRM_encode rest _ ⟨hw, ha⟩))
  | retfImm imm =>
    intro rest
    refine (decodeCode_withOperands rfl).trans ((bind_of_ok (takeBytes_append (leBytes_length 2 imm) rest)).trans ?_)
    exact congrArg (fun v => Except.ok (Instr.retfImm v, rest)) (leValue_leBytes_of_lt (by decide) imm.isLt)
  | movCrR32 k r => exact fun rest => (decodeCode_withOperands rfl).trans (decodeMovCr_encode (toCr := true) rest hw)
  | movR32Cr r k => exact fun rest => (decodeCode_withOperands rfl).trans (decodeMovCr_encode (toCr := false) rest hw)
  | movEaxMoffs _ _ | movAlMoffs _ _ | movMoffsEax _ _ | movMoffsAl _ _ =>
    exact fun rest => (decodeCode_withOperands rfl).trans (decodeMoffsAs_encode rest _ hw ha)

/-- Settles O1: each part of the decoder reads back what the matching part of the encoder wrote. -/
theorem decodeEncodeAgree : Obligations.DecodeEncodeAgree := by
  intro i a32 hw ha
  have h := encodingDecodes ⟨hw, ha⟩
  unfold EncodingDecodes at h
  cases he : encode i with
  | op name args =>
    rw [he] at h
    exact ⟨bind_of_ok h, fun _ _ hcode => nomatch hcode⟩
  | code bytes =>
    rw [he] at h
    refine ⟨?_, fun _ rest hcode => ?_⟩
    · have hall := h []
      rw [List.append_nil] at hall
      exact bind_of_ok hall
    · cases hcode
      exact h rest

/-! What the decoder accepts. -/

/-- What holds of the answer of a part of the decoder, where it answers. -/
def Accepts {α : Type} (x : Except DecodeError α) (P : α → Prop) : Prop := ∀ a : α, x = .ok a → P a

section Rules
variable {α β : Type} {P : α → Prop} {Q : β → Prop}

theorem Accepts.ok {a : α} (h : P a) : Accepts (.ok a) P := fun _ e => Except.ok.inj e ▸ h

theorem Accepts.error {e : DecodeError} : Accepts (.error e) P := nofun

theorem Accepts.bind {x : Except DecodeError α} {f : α → Except DecodeError β} (hx : Accepts x P)
    (hf : ∀ a, P a → Accepts (f a) Q) : Accepts (x >>= f) Q := by
  cases x with
  | ok a => exact hf a (hx a rfl)
  | error e => exact Accepts.error

/-- A bind whose first part may answer anything. -/
theorem Accepts.after {x : Except DecodeError α} {f : α → Except DecodeError β} (hf : ∀ a, Accepts (f a) Q) :
    Accepts (x >>= f) Q :=
  Accepts.bind (P := fun _ => True) (fun _ _ => trivial) fun a _ => hf a

theorem Accepts.ite {c : Prop} [Decidable c] {x y : Except DecodeError α} (hx : c → Accepts x P) (hy : ¬ c → Accepts y P) :
    Accepts (if c then x else y) P := by
  split
  · exact hx ‹_›
  · exact hy ‹_›

end Rules

theorem takeBytes_accepts (n : Nat) (bs : List Byte) : Accepts (takeBytes n bs) (fun p => p.1.length = n) :=
  .ite (fun h => .ok (List.length_take_of_le h)) fun _ => .error

theorem takeSib_accepts (has : Bool) (bs : List Byte) : Accepts (takeSib has bs) (fun p => p.1.isSome = has) := by
  cases has with
  | false => exact .ok rfl
  | true =>
    cases bs with
    | nil => exact .error
    | cons b bs => exact .ok rfl

/-- Bytes hold no more than their number allows. -/
theorem leValue_lt {w : Nat} (bs : List Byte) : (leValue w bs).toNat < 2 ^ (8 * bs.length) := by
  induction bs with
  | nil => simp [leValue]
  | cons b bs ih =>
    have hlow : (b.setWidth w).toNat < 2 ^ (8 * (bs.length + 1)) :=
      calc (b.setWidth w).toNat ≤ b.toNat := by rw [BitVec.toNat_setWidth]; exact Nat.mod_le _ _
        _ < 2 ^ 8 := b.isLt
        _ ≤ 2 ^ (8 * (bs.length + 1)) := Nat.pow_le_pow_right (by decide) (by omega)
    have hhigh : (leValue w bs <<< 8).toNat < 2 ^ (8 * (bs.length + 1)) :=
      calc (leValue w bs <<< 8).toNat ≤ (leValue w bs).toNat * 2 ^ 8 := by
            rw [BitVec.toNat_shiftLeft, Nat.shiftLeft_eq]; exact Nat.mod_le _ _
        _ < 2 ^ (8 * bs.length) * 2 ^ 8 := Nat.mul_lt_mul_of_pos_right ih (by decide)
        _ = 2 ^ (8 * (bs.length + 1)) := by rw [← Nat.pow_add]; rfl
    rw [leValue, BitVec.toNat_or]
    exact Nat.or_lt_two_pow hlow hhigh

section Decoded
variable (a32 : Bool) (bs : List Byte)

/-- A ModRM operand has the SIB and displacement bytes its fields call for. -/
theorem decodeModRM_accepts : Accepts (decodeModRM a32 bs) (fun p => AcceptedRM a32 p.2.1) := by
  cases bs with
  | nil => exact .error
  | cons b bs =>
    refine .ite (fun _ => .ok ⟨rfl, rfl⟩) fun hmod => (takeSib_accepts _ bs).bind fun p hsib =>
      (takeBytes_accepts _ p.2).bind fun q hdisp => .ok ⟨(MemArg.wf_iff _).mpr ⟨hmod, hsib, hdisp⟩, ?_⟩
    show (some a32 == none || some a32 == some a32) = true
    simp

theorem memOnly_accepts {op : Byte} {rm : RM} (h : AcceptedRM a32 rm) :
    Accepts (memOnly op rm) (fun m => AcceptedRM a32 (.mem m)) := by
  cases rm with
  | reg r => exact .error
  | mem m => exact .ok h

theorem decodeMoffs_accepts : Accepts (decodeMoffs a32 bs) (fun p => moffsOk a32 p.1 = true) := by
  refine (takeBytes_accepts _ bs).bind fun p hp => .ok ?_
  cases a32 with
  | true => rfl
  | false =>
    have hlt : (leValue 32 p.1).toNat < 2 ^ (8 * p.1.length) := leValue_lt p.1
    rw [hp] at hlt
    exact decide_eq_true hlt

theorem decodeMoffsAs_accepts {f : Bool → Dword → Instr} (hw : ∀ off, (f a32 off).wf = moffsOk a32 off)
    (ha : ∀ off, (f a32 off).addr32 = some a32) : Accepts (decodeMoffsAs f a32 bs) (fun p => Accepted a32 p.1) :=
  (decodeMoffs_accepts a32 bs).bind fun _ hp => .ok ⟨(hw _).trans hp, by simp [Instr.readsUnder, ha]⟩

theorem decodeFarAs_accepts {f : Dword → Selector → Instr} (hf : ∀ off sel, Accepted a32 (f off sel)) :
    Accepts (decodeFarAs f bs) (fun p => Accepted a32 p.1) :=
  .after fun _ => .after fun _ => .ok (hf _ _)

theorem decodeFarLoadAs_accepts {f : BitVec 3 → MemArg → Instr} {op : Byte}
    (hf : ∀ r m, AcceptedRM a32 (.mem m) → Accepted a32 (f r m)) :
    Accepts (decodeFarLoadAs f op a32 bs) (fun p => Accepted a32 p.1) :=
  (decodeModRM_accepts a32 bs).bind fun _ hp => (memOnly_accepts a32 hp).bind fun _ hm => .ok (hf _ _ hm)

theorem decodeMovToSreg_accepts : Accepts (decodeMovToSreg a32 bs) (fun p => Accepted a32 p.1) := by
  refine (decodeModRM_accepts a32 bs).bind fun p hp => ?_
  cases hr : SReg.ofNumber p.1 with
  | none => simp only [hr]; exact .error
  | some r =>
    simp only [hr]
    exact .ite (fun _ => .error) fun hcs => .ok ⟨Bool.and_eq_true_iff.mpr ⟨bne_iff_ne.mpr hcs, hp.1⟩, hp.2⟩

theorem decodeMovFromSreg_accepts : Accepts (decodeMovFromSreg a32 bs) (fun p => Accepted a32 p.1) := by
  refine (decodeModRM_accepts a32 bs).bind fun p hp => ?_
  cases hr : SReg.ofNumber p.1 with
  | none => simp only [hr]; exact .error
  | some r => simp only [hr]; exact .ok hp

theorem decodeGroupFF_accepts : Accepts (decodeGroupFF a32 bs) (fun p => Accepted a32 p.1) :=
  (decodeModRM_accepts a32 bs).bind fun _ hp =>
    .ite (fun _ => (memOnly_accepts a32 hp).bind fun _ hm => .ok hm) fun _ =>
      .ite (fun _ => (memOnly_accepts a32 hp).bind fun _ hm => .ok hm) fun _ => .error

theorem decodeGroup0F00_accepts : Accepts (decodeGroup0F00 a32 bs) (fun p => Accepted a32 p.1) :=
  (decodeModRM_accepts a32 bs).bind fun _ hp => .ite (fun _ => .ok hp) fun _ => .ite (fun _ => .ok hp) fun _ => .error

theorem decodeGroup0F01_accepts : Accepts (decodeGroup0F01 a32 bs) (fun p => Accepted a32 p.1) :=
  (decodeModRM_accepts a32 bs).bind fun _ hp =>
    .ite (fun _ => (memOnly_accepts a32 hp).bind fun _ hm => .ok hm) fun _ =>
      .ite (fun _ => (memOnly_accepts a32 hp).bind fun _ hm => .ok hm) fun _ => .error

theorem decodeMovCr_accepts (toCr : Bool) : Accepts (decodeMovCr toCr bs) (fun p => Accepted a32 p.1) := by
  cases bs with
  | nil => exact .error
  | cons b bs => exact .ite (fun hk => .ok (by cases toCr <;> exact ⟨hk, rfl⟩)) fun _ => .error

theorem decodeTwoByte_accepts : Accepts (decodeTwoByte a32 bs) (fun p => Accepted a32 p.1) := by
  cases bs with
  | nil => exact .error
  | cons b bs =>
    exact .ite (fun _ => decodeGroup0F00_accepts a32 bs) fun _ => .ite (fun _ => decodeGroup0F01_accepts a32 bs) fun _ =>
      .ite (fun _ => decodeMovCr_accepts a32 bs false) fun _ => .ite (fun _ => decodeMovCr_accepts a32 bs true) fun _ =>
      .ite (fun _ => .ok ⟨rfl, rfl⟩) fun _ => .ite (fun _ => .ok ⟨rfl, rfl⟩) fun _ =>
      .ite (fun _ => decodeFarLoadAs_accepts a32 bs fun _ _ h => h) fun _ =>
      .ite (fun _ => decodeFarLoadAs_accepts a32 bs fun _ _ h => h) fun _ =>
      .ite (fun _ => decodeFarLoadAs_accepts a32 bs fun _ _ h => h) fun _ => .error

theorem decodeWithOperands_accepts (b : Byte) : Accepts (decodeWithOperands a32 b bs) (fun p => Accepted a32 p.1) := by
  unfold decodeWithOperands
  exact .ite (fun _ => decodeTwoByte_accepts a32 bs) fun _ => .ite (fun _ => decodeMovFromSreg_accepts a32 bs) fun _ =>
    .ite (fun _ => decodeMovToSreg_accepts a32 bs) fun _ =>
    .ite (fun _ => decodeFarAs_accepts a32 bs fun _ _ => ⟨rfl, rfl⟩) fun _ =>
    .ite (fun _ => decodeMoffsAs_accepts a32 bs (fun _ => rfl) fun _ => rfl) fun _ =>
    .ite (fun _ => decodeMoffsAs_accepts a32 bs (fun _ => rfl) fun _ => rfl) fun _ =>
    .ite (fun _ => decodeMoffsAs_accepts a32 bs (fun _ => rfl) fun _ => rfl) fun _ =>
    .ite (fun _ => decodeMoffsAs_accepts a32 bs (fun _ => rfl) fun _ => rfl) fun _ =>
    .ite (fun _ => decodeFarLoadAs_accepts a32 bs fun _ _ h => h) fun _ =>
    .ite (fun _ => decodeFarLoadAs_accepts a32 bs fun _ _ h => h) fun _ =>
    .ite (fun _ => .after fun _ => .ok ⟨rfl, rfl⟩) fun _ =>
    .ite (fun _ => decodeFarAs_accepts a32 bs fun _ _ => ⟨rfl, rfl⟩) fun _ =>
    .ite (fun _ => decodeGroupFF_accepts a32 bs) fun _ => .error

theorem accepted_of_ite {c : Prop} [Decidable c] {i j : Instr} {o : Option Instr} (hi : Accepted a32 i)
    (ho : o = some j → Accepted a32 j) : (if c then some i else o) = some j → Accepted a32 j := by
  split
  · exact fun h => Option.some.inj h ▸ hi
  · exact ho

/-- The opcodes that stand alone have no operand but a general register. -/
theorem decodeAlone_accepted {b : Byte} {i : Instr} : decodeAlone b = some i → Accepted a32 i := by
  unfold decodeAlone
  iterate 15 refine accepted_of_ite a32 ⟨rfl, rfl⟩ ?_
  exact nofun

theorem decodeCode_accepts : Accepts (decodeCode a32 bs) (fun p => Accepted a32 p.1) := by
  cases bs with
  | nil => exact .error
  | cons b bs =>
    cases h : decodeAlone b with
    | some i => rw [decodeCode_alone h]; exact .ok (decodeAlone_accepted a32 h)
    | none => rw [decodeCode_withOperands h]; exact decodeWithOperands_accepts a32 bs b

theorem checked_accepts {name : OpName} {i : Instr} (h : i.addr32 = none) : Accepts (checked name i) (Accepted a32) :=
  .ite (fun hw => .ok ⟨hw, by simp [Instr.readsUnder, h]⟩) fun _ => .error

/-- An operation has no memory operand, and its ranges are checked. -/
theorem decodeOp_accepts (name : OpName) (args : List Arg) : Accepts (decodeOp name args) (Accepted a32) := by
  unfold decodeOp
  split
  case h_4 | h_12 | h_13 | h_18 => exact .ok ⟨rfl, rfl⟩
  case h_11 | h_17 => exact checked_accepts a32 rfl
  case h_5 | h_8 => exact .after fun _ => .after fun _ => checked_accepts a32 rfl
  case h_20 => exact .error
  all_goals exact .after fun _ => checked_accepts a32 rfl

end Decoded

/-- Settles O2: an operation's ranges are checked, and the bytes of an operand are counted by its fields. -/
theorem decodedIsWellFormed : Obligations.DecodedIsWellFormed := by
  intro a32 item i rest h
  suffices hitem : Accepts (decodeItem a32 item) (fun p => Accepted a32 p.1) from hitem _ h
  cases item with
  | op name args => exact (decodeOp_accepts a32 name args).bind fun _ hi => .ok hi
  | code bytes => exact (decodeCode_accepts a32 bytes).bind fun _ hi => .ok hi

open Laws.EncodeMatchesTable in
/-- Settles O3, constructor by constructor. -/
theorem encodingsMatchTheTable : Obligations.EncodingsMatchTheTable
  | .ldseg sreg sel => ldseg sreg sel
  | .ldss sel => ldss sel
  | .ldcs sel => ldcs sel
  | .rdsel sreg => rdsel sreg
  | .lgdtr base limit => lgdtr base limit
  | .lldtr sel => lldtr sel
  | .mread sreg off n => mread sreg off n
  | .mwrite sreg off n v => mwrite sreg off n v
  | .mfetch off n => mfetch off n
  | .spush n v => spush n v
  | .spop n => spop n
  | .pfx66 => pfx66
  | .pfx67 => pfx67
  | .wrcr0 v => wrcr0 v
  | .wrcr3 v => wrcr3 v
  | .wrcr4 v => wrcr4 v
  | .rdcr k => rdcr k
  | .tasksw => tasksw
  | .maccess64 va kind => maccess64 va kind
  | .movSregRm16 sreg src => movSregRm16 sreg src
  | .movRm16Sreg dst sreg => movRm16Sreg dst sreg
  | .popEs => popEs
  | .popSs => popSs
  | .popDs => popDs
  | .popFs => popFs
  | .popGs => popGs
  | .les r m => les r m
  | .lds r m => lds r m
  | .lss r m => lss r m
  | .lfs r m => lfs r m
  | .lgs r m => lgs r m
  | .jmpPtr off sel => jmpPtr off sel
  | .callPtr off sel => callPtr off sel
  | .jmpMem m => jmpMem m
  | .callMem m => callMem m
  | .retf => retf
  | .retfImm imm => retfImm imm
  | .iret => iret
  | .lgdt m => lgdt m
  | .sgdt m => sgdt m
  | .lldt src => lldt src
  | .sldt dst => sldt dst
  | .movCrR32 k r => movCrR32 k r
  | .movR32Cr r k => movR32Cr r k
  | .movEaxMoffs a32 off => movEaxMoffs a32 off
  | .movAlMoffs a32 off => movAlMoffs a32 off
  | .movMoffsEax a32 off => movMoffsEax a32 off
  | .movMoffsAl a32 off => movMoffsAl a32 off
  | .pushR32 r => pushR32 r
  | .popR32 r => popR32 r
  | .segEs => segEs
  | .segCs => segCs
  | .segSs => segSs
  | .segDs => segDs
  | .segFs => segFs
  | .segGs => segGs

/-- Settles O4, by reading each word. -/
theorem wordsDecode : Obligations.WordsDecode :=
  ⟨rfl, rfl, rfl, rfl, rfl, rfl, rfl, rfl, rfl⟩

end Sys2Proof
end

section
/-! General registers, prefixes and the step (spec/30_encoding.md R151, R159; spec/20_memory.md R131). -/

namespace Sys2Proof.Machine

/-- The general registers, by number (log 9). -/
theorem register_cases (r : BitVec 3) :
    r = 0#3 ∨ r = 1#3 ∨ r = 2#3 ∨ r = 3#3 ∨ r = 4#3 ∨ r = 5#3 ∨ r = 6#3 ∨ r = 7#3 := by
  revert r; decide

section Registers
variable (s : State) (r : BitVec 3) (v : Dword)

theorem reg_setReg_same : (s.setReg r v).reg r = v := by
  obtain rfl | rfl | rfl | rfl | rfl | rfl | rfl | rfl := register_cases r <;> rfl

theorem reg_setReg_other {q : BitVec 3} (h : q ≠ r) : (s.setReg r v).reg q = s.reg q := by
  have hq := register_cases q
  obtain rfl | rfl | rfl | rfl | rfl | rfl | rfl | rfl := register_cases r <;>
    obtain rfl | rfl | rfl | rfl | rfl | rfl | rfl | rfl := hq <;> first | rfl | exact absurd rfl h

theorem reg_setReg (q : BitVec 3) : (s.setReg r v).reg q = if q = r then v else s.reg q := by
  split
  · rename_i h
    rw [h, reg_setReg_same]
  · exact reg_setReg_other s r v ‹_›

end Registers

/-- Two values under masks that part their bits. -/
theorem masked_or_eq_append {n k : Nat} (x v : BitVec (n + k)) :
    (x &&& (BitVec.allOnes n ++ 0#k)) ||| (v &&& (0#n ++ BitVec.allOnes k)) = x.extractLsb' k n ++ v.extractLsb' 0 k := by
  refine BitVec.eq_of_getLsbD_eq fun i hi => ?_
  rw [BitVec.getLsbD_or, BitVec.getLsbD_and, BitVec.getLsbD_and, BitVec.getLsbD_append, BitVec.getLsbD_append,
    BitVec.getLsbD_append]
  by_cases hk : i < k
  · simp [hk]
  · have hn : i - k < n := by omega
    have hi' : k + (i - k) = i := by omega
    simp [hk, hn, hi']

theorem setRegLow_word (s : State) (r : BitVec 3) (v : Dword) :
    s.setRegLow r 2 v = s.setReg r ((s.reg r).extractLsb' 16 16 ++ v.extractLsb' 0 16) :=
  congrArg (s.setReg r) (masked_or_eq_append (n := 16) (k := 16) (s.reg r) v)

theorem setRegLow_byte (s : State) (r : BitVec 3) (v : Dword) :
    s.setRegLow r 1 v = s.setReg r ((s.reg r).extractLsb' 8 24 ++ v.extractLsb' 0 8) :=
  congrArg (s.setReg r) (masked_or_eq_append (n := 24) (k := 8) (s.reg r) v)

/-- Settles O53: each is the write of a whole register. -/
theorem registerWrites : Obligations.RegisterWrites := by
  intro s r q v
  rw [setRegLow_word, setRegLow_byte]
  exact ⟨reg_setReg s r _ q, reg_setReg s r _ q, reg_setReg s r _ q⟩

theorem overrideWith_selects (s : State) (r : SReg) :
    ∃ t : State, overrideWith r s = .next t ∧ t = { s with pfx := { s.pfx with seg := some r }, result := .none } ∧
      ∀ stack : Bool, t.operandSeg stack = r :=
  ⟨_, rfl, rfl, fun _ => rfl⟩

/-- Settles O34: the six prefixes differ in their register alone. -/
theorem overridePrefixes : Obligations.OverridePrefixes := by
  intro s
  refine ⟨?_, fun hnone => ?_⟩
  · simp only [List.forall_mem_cons]
    exact ⟨overrideWith_selects s .es, overrideWith_selects s .cs, overrideWith_selects s .ss, overrideWith_selects s .ds,
      overrideWith_selects s .fs, overrideWith_selects s .gs, List.forall_mem_nil _⟩
  · simp only [State.operandSeg, hnone]
    exact ⟨rfl, rfl⟩

theorem nextOf_decoded {s : State} {item : Item} {q : List Event} {i : Instr} {rest : List Item}
    (hq : s.queue = .processor item :: q) (hd : decodeItem s.address32 item = .ok (i, rest)) :
    nextOf s = .run i (rest.map Event.processor ++ q) := by
  simp only [nextOf, hq, hd]

/-- Settles O9: what comes next in the schedule is the run of `i`. -/
theorem stepRunsTheDecoded : Obligations.StepRunsTheDecoded := by
  intro s item q i rest hq hd
  simp only [step, nextOf_decoded hq hd]
  cases exec i s <;> rfl

end Sys2Proof.Machine
end

section
/-! The annex's instructions with paging off (spec/30_encoding.md R159): each is the operations its row names, one after the other,
and completes where they do. -/

namespace Sys2Proof.Machine

variable {c : Ctx} {s : State}

/-- An operation completes with what its body returns and the state it ends in. -/
theorem runOp_completes {f : Ctx → Except Stop (Result × Ctx)} {r : Result} {t : State} (h : f (Ctx.start s) = .ok (r, c))
    (ht : c.cur = t) : runOp f s = .next (t.finish r) :=
  ht ▸ runOp_ok h

theorem runQuiet_completes {f : Ctx → Except Stop Ctx} {t : State} (h : f (Ctx.start s) = .ok c) (ht : c.cur = t) :
    runQuiet f s = .next (t.finish .none) :=
  ht ▸ runQuiet_ok h

/-- Operations whose bodies answer alike answer alike. -/
theorem runQuiet_congr {f g : Ctx → Except Stop Ctx} (h : f (Ctx.start s) = g (Ctx.start s)) : runQuiet f s = runQuiet g s := by
  unfold runQuiet runOp
  simp only [h]

/-! Loads of segment registers. -/

theorem popSreg_off {r : SReg} (hr : r ≠ .cs) (hp : c.cur.flatPoppable c.cur.operandBytes)
    (h : (c.cur.popped c.cur.operandBytes).flatLoadOk r (leValue 16 (c.cur.flatPopBytes c.cur.operandBytes))) :
    popSreg r c = .ok ((c.onCur (·.popped c.cur.operandBytes)).onCur
      (·.afterLoad r (leValue 16 (c.cur.flatPopBytes c.cur.operandBytes)))) :=
  (bind_ok (spop_off hp)).trans (loadSreg_off (c := c.onCur (·.popped c.cur.operandBytes)) hr h)

theorem loadFar_off {r : SReg} {m : MemArg} (g : BitVec 3) (hr : r ≠ .cs) (hm : c.cur.flatOperandReadable m 6)
    (h : c.cur.flatLoadOk r (c.cur.farSelector m)) :
    loadFar r g m c = .ok (c.onCur fun s => (s.afterLoad r (s.farSelector m)).setReg g (s.farOffset m)) :=
  (bind_ok (readFarPointer_off hm)).trans (bind_ok (loadSreg_off hr h))

theorem execMovSregRm16_off {r : SReg} {src : RM} (hr : r ≠ .cs) (hs : s.flatSource16 src)
    (h : s.flatLoadOk r (s.source16 src)) :
    execMovSregRm16 r src s = .next ((s.afterLoad r (s.source16 src)).finish .none) :=
  runQuiet_completes ((bind_ok (readRM16_off (c := Ctx.start s) hs)).trans (loadSreg_off hr h)) rfl

theorem runQuiet_popSreg_off {r : SReg} (hr : r ≠ .cs) (hp : s.flatPoppable s.operandBytes)
    (h : (s.popped s.operandBytes).flatLoadOk r (leValue 16 (s.flatPopBytes s.operandBytes))) :
    runQuiet (popSreg r) s =
      .next (((s.popped s.operandBytes).afterLoad r (leValue 16 (s.flatPopBytes s.operandBytes))).finish .none) :=
  runQuiet_ok (popSreg_off (c := Ctx.start s) hr hp h)

theorem runQuiet_loadFar_off {r : SReg} {m : MemArg} (g : BitVec 3) (hr : r ≠ .cs) (hm : s.flatOperandReadable m 6)
    (h : s.flatLoadOk r (s.farSelector m)) :
    runQuiet (loadFar r g m) s = .next (((s.afterLoad r (s.farSelector m)).setReg g (s.farOffset m)).finish .none) :=
  runQuiet_ok (loadFar_off (c := Ctx.start s) g hr hm h)

/-- Settles O44: the operand or the stack item is read, and then the register loaded. -/
theorem sregLoadsComplete : Obligations.SregLoadsComplete := by
  refine fun s => ⟨fun r src => execMovSregRm16_off, fun sel hp hsel => ?_⟩
  subst hsel
  simp only [List.forall_mem_cons]
  have hpop (r : SReg) (hr : r ≠ .cs) := runQuiet_popSreg_off hr hp
  exact ⟨hpop .es nofun, hpop .ss nofun, hpop .ds nofun, hpop .fs nofun, hpop .gs nofun, List.forall_mem_nil _⟩

/-- Settles O46: the five instructions differ in the segment register alone. -/
theorem farLoadsComplete : Obligations.FarLoadsComplete := by
  intro s g m hm
  simp only [List.forall_mem_cons]
  have hload (r : SReg) (hr : r ≠ .cs) := runQuiet_loadFar_off g hr hm
  exact ⟨hload .es nofun, hload .ds nofun, hload .ss nofun, hload .fs nofun, hload .gs nofun, List.forall_mem_nil _⟩

/-! Far transfers. -/

theorem farJump_off {sel : Selector} (off : Dword) (h : c.cur.flatLoadable .cs sel) :
    farJump off sel c = .ok (.target off, c.onCur (·.flatLoaded .cs sel)) :=
  bind_ok (ldcs_off h)

theorem execJmpMem_off {m : MemArg} (hm : s.flatOperandReadable m 6) (h : s.flatLoadable .cs (s.farSelector m)) :
    execJmpMem m s = .next ((s.flatLoaded .cs (s.farSelector m)).finish (.target (s.farOffset m))) :=
  runOp_completes ((bind_ok (readFarPointer_off (c := Ctx.start s) hm)).trans (farJump_off (c := Ctx.start s) _ h)) rfl

/-- Settles O47: a far jump is its CS load, and returns its offset. -/
theorem farJumpsComplete : Obligations.FarJumpsComplete :=
  fun s => ⟨fun off _ h => runOp_ok (farJump_off (c := Ctx.start s) off h), fun _ => execJmpMem_off⟩

/-- A far call ends as its CS load does, but that the rest is refused where the load completes. -/
theorem runQuiet_restRefused (f : Ctx → Except Stop Ctx) (s : State) :
    runQuiet (fun c => f c >>= restRefused) s = onlyCsLoad (runQuiet f s) := by
  match hf : f (Ctx.start s) with
  | .ok d => rw [runQuiet_ok hf]; exact runQuiet_ref (bind_ok hf)
  | .error (.fault x) => rw [runQuiet_fault hf]; exact runQuiet_fault (bind_error hf)
  | .error (.refused x) => rw [runQuiet_ref hf]; exact runQuiet_ref (bind_error hf)

theorem runQuiet_farCall (sel : Selector) (s : State) : runQuiet (farCall sel) s = onlyCsLoad (exec (.ldcs sel) s) :=
  runQuiet_restRefused (ldcs sel) s

theorem execCallMem_off {m : MemArg} (hm : s.flatOperandReadable m 6) :
    execCallMem m s = onlyCsLoad (exec (.ldcs (s.farSelector m)) s) :=
  (runQuiet_congr (bind_ok (readFarPointer_off (c := Ctx.start s) hm))).trans (runQuiet_farCall _ s)

/-- The two reads of a far return give the selector above the first item, and leave the stack pointer as it was. -/
theorem returnSelector_off (h₁ : s.flatPoppable s.operandBytes) (h₂ : (s.popped s.operandBytes).flatPoppable s.operandBytes) :
    Machine.returnSelector (Ctx.start s) = .ok (s.returnSelector, Ctx.start s) :=
  (bind_ok (spop_off (c := Ctx.start s) h₁)).trans
    (bind_ok (spop_off (c := (Ctx.start s).onCur (·.popped s.operandBytes)) h₂))

theorem returnLoad_eq (sel : Selector) (c : Ctx) :
    returnLoad sel c = if isNull sel = false ∧ c.cur.cpl < selRPL sel then refuse .privilegeChange else ldcs sel c := by
  simp [returnLoad]

theorem farReturn_off (h₁ : s.flatPoppable s.operandBytes) (h₂ : (s.popped s.operandBytes).flatPoppable s.operandBytes) :
    runQuiet farReturn s = if isNull s.returnSelector = false ∧ s.cpl < selRPL s.returnSelector then .refused .privilegeChange
      else onlyCsLoad (exec (.ldcs s.returnSelector) s) := by
  have hbody : farReturn (Ctx.start s) = (returnLoad s.returnSelector (Ctx.start s) >>= restRefused) :=
    (bind_ok (returnSelector_off h₁ h₂)).trans rfl
  split
  · rename_i h
    have hload : returnLoad s.returnSelector (Ctx.start s) = .error (.refused .privilegeChange) :=
      (returnLoad_eq _ _).trans (if_pos h)
    exact runQuiet_ref (hbody.trans (bind_error hload))
  · rename_i h
    have hload : returnLoad s.returnSelector (Ctx.start s) = ldcs s.returnSelector (Ctx.start s) :=
      (returnLoad_eq _ _).trans (if_neg h)
    rw [← runQuiet_farCall]
    exact runQuiet_congr (hbody.trans (congrArg (· >>= restRefused) hload))

/-- Settles O48: each is its CS load with the rest refused, and so never answers a next state. -/
theorem farCallsAndReturnsStop : Obligations.FarCallsAndReturnsStop := by
  refine fun s => ⟨fun off sel => ⟨runQuiet_farCall sel s, fun h => ?_⟩, fun _ => execCallMem_off, fun i imm hi h₁ h₂ => ?_,
    fun off sel m imm i t hi => ?_⟩
  · exact (runQuiet_farCall sel s).trans (congrArg onlyCsLoad (runQuiet_ok (ldcs_off (c := Ctx.start s) h)))
  · simp only [List.mem_cons, List.not_mem_nil, or_false] at hi
    obtain rfl | rfl | rfl := hi <;> exact farReturn_off h₁ h₂
  · simp only [List.mem_cons, List.not_mem_nil, or_false] at hi
    obtain rfl | rfl | rfl | rfl | rfl := hi
    · exact runQuiet_ne_next (farCall_ends sel (start_grown s))
    · exact execCallMem_ne_next
    all_goals exact runQuiet_ne_next (farReturn_ends (start_grown s))

/-! Stores, and the table registers. -/

theorem flatMemStore_other (s : State) (r : SReg) (off : Dword) {n : Nat} {bs : List Byte} (hl : bs.length = n) {a : Nat}
    (ha : outside ((s.seg r).h.base + off) n a) : (s.flatMemStore r off bs).mem.read a = s.mem.read a :=
  flatStore_other _ bs s a (hl ▸ ha)

/-- A logical store of `n` bytes, as a whole operation, and that no other byte changes. -/
theorem runQuiet_memWrite_off {r : SReg} {off : Dword} {n : Nat} {bs : List Byte} (hl : bs.length = n)
    (h : s.flatMemWritable r off n) :
    ∃ t : State, runQuiet (memWrite r off bs) s = .next t ∧ t = (s.flatMemStore r off bs).finish .none ∧
      ∀ a : Nat, outside ((s.seg r).h.base + off) n a → t.mem.read a = s.mem.read a := by
  subst hl
  exact ⟨_, runQuiet_ok (memWrite_off (c := Ctx.start s) h), rfl, fun a ha => flatMemStore_other s r off rfl ha⟩

/-- Writing a general register moves no memory. -/
theorem setRegLow_mem (s : State) (r : BitVec 3) (n : Nat) (v : Dword) : (s.setRegLow r n v).mem = s.mem := by
  obtain ⟨w, hw⟩ := s.setRegLow_cases r n v
  obtain he | ⟨g, hg⟩ := s.setReg_cases r w
  · rw [hw, he, State.setEsp_mem]
  · rw [hw, hg, State.setGpr_mem]

/-- Settles O45: one store of two bytes or one write of a register. -/
theorem selectorStoresComplete : Obligations.SelectorStoresComplete := by
  intro dst s hd
  refine ⟨fun r => runQuiet_ok (writeRM16_off (c := Ctx.start s) hd), runQuiet_ok (writeRM16_off (c := Ctx.start s) hd),
    fun v a => ?_⟩
  cases dst with
  | reg r => exact setRegLow_mem s r _ _
  | mem m => exact flatMemStore_other s _ _ (leBytes_length 2 v)

theorem tablePointerBytes_length (g : Gdtr) : (tablePointerBytes g).length = 6 := rfl

theorem execLgdt_off {m : MemArg} (h0 : s.cpl = 0#2) (hm : s.flatOperandReadable m 6) :
    execLgdt m s = .next ({ s with gdtr :=
      { base := leValue 32 ((s.flatOperandBytes m 6).drop 2), limit := leValue 16 ((s.flatOperandBytes m 6).take 2) } }.finish
        .none) :=
  have hlevel := requireLevel0_ok (c := Ctx.start s) h0
  runQuiet_completes ((bind_ok hlevel).trans ((bind_ok (readTablePointer_off (c := Ctx.start s) hm)).trans (bind_ok hlevel))) rfl

theorem loadLdtr_off {sel : Selector} (h : c.cur.flatLdtOk sel) : loadLdtr sel c = .ok (c.onCur (·.afterLdt sel)) := by
  unfold loadLdtr Ctx.onCur State.afterLdt
  cases hn : isNull sel with
  | true => rfl
  | false =>
    obtain hn' | ⟨hti, hfetch, hs, htyp, hp⟩ := h
    · exact absurd (hn.symm.trans hn') Bool.false_ne_true
    · simp only [hti, Bool.false_eq_true, if_false]
      rw [bind_ok (fetchDescriptor_off hfetch)]
      simp only [hs, htyp, hp]
      rfl

theorem lldtr_off {sel : Selector} (h0 : c.cur.cpl = 0#2) (h : c.cur.flatLdtOk sel) :
    lldtr sel c = .ok (c.onCur (·.afterLdt sel)) :=
  (bind_ok (requireLevel0_ok h0)).trans (loadLdtr_off h)

theorem execLldt_off {src : RM} (h0 : s.cpl = 0#2) (hs : s.flatSource16 src) (h : s.flatLdtOk (s.source16 src)) :
    execLldt src s = .next ((s.afterLdt (s.source16 src)).finish .none) :=
  runQuiet_completes ((bind_ok (requireLevel0_ok (c := Ctx.start s) h0)).trans
    ((bind_ok (readRM16_off (c := Ctx.start s) hs)).trans (lldtr_off h0 h))) rfl

/-- Settles O49. LGDT and LLDT check the level before they read their operand. -/
theorem tableMovesComplete : Obligations.TableMovesComplete :=
  fun s => ⟨fun _ => execLgdt_off, fun _ => runQuiet_memWrite_off (tablePointerBytes_length s.gdtr), fun _ => execLldt_off⟩

/-! Control registers. -/

/-- A value read under a mask has the given bits there. -/
theorem withDrawn_getLsbD (s : State) (mask v : Dword) {i : Nat} (h : mask.getLsbD i = true) :
    (withDrawn s mask v).getLsbD i = v.getLsbD i := by
  simp [withDrawn, h]

theorem cr0Bits_getLsbD (pg : Bool) : (if pg then 0x80000000 else 0 : Dword).getLsbD 31 = pg := by
  cases pg <;> rfl

theorem cr4Bits_getLsbD (f : Cr4) :
    (cr4Bits f).getLsbD 4 = f.pse ∧ (cr4Bits f).getLsbD 5 = f.pae ∧ (cr4Bits f).getLsbD 7 = f.pge := by
  obtain ⟨pse, pae, pge⟩ := f
  revert pse pae pge; decide

theorem execMovR32Cr_ok {r k : BitVec 3} {v : Dword} (h : readCr k.toNat (Ctx.start s) = .ok (v, c)) :
    execMovR32Cr r k s = .next ((c.cur.setReg r v).finish .none) :=
  runQuiet_completes (bind_ok h) rfl

section ReadCr
variable (h0 : c.cur.cpl = 0#2)
include h0

theorem readCr_cr3 : readCr 3 c = .ok (c.cur.cr3, c) := bind_ok (requireLevel0_ok h0)

theorem readCr_cr0 : readCr 0 c = .ok (withDrawn c.cur 0x80000000 (if c.cur.pg then 0x80000000 else 0), c.tick) :=
  bind_ok (requireLevel0_ok h0)

theorem readCr_cr4 : readCr 4 c = .ok (withDrawn c.cur 0xB0 (cr4Bits c.cur.cr4), c.tick) := bind_ok (requireLevel0_ok h0)

end ReadCr

theorem writeCr4_level0 {v : Dword} (h0 : c.cur.cpl = 0#2) (h : cr4Supported c.cur.platform (cr4Of v) = true) :
    writeCr4 v c = .ok (c.onCur (·.setCr4 (cr4Of v))) :=
  (bind_ok (requireLevel0_ok h0)).trans (if_pos h)

/-- Settles O50: at level 0 each move is its write or its read of the control register. -/
theorem controlMoves : Obligations.ControlMoves := by
  intro s r h0
  have hlevel := requireLevel0_ok (c := Ctx.start s) h0
  refine ⟨runQuiet_completes (bind_ok hlevel) rfl, runQuiet_completes (bind_ok hlevel) rfl, rfl,
    fun h => runQuiet_ok (writeCr4_level0 (c := Ctx.start s) h0 h),
    execMovR32Cr_ok (k := 3) (readCr_cr3 (c := Ctx.start s) h0), ?_, ?_⟩
  · exact ⟨_, execMovR32Cr_ok (k := 0) (readCr_cr0 (c := Ctx.start s) h0),
      (withDrawn_getLsbD _ _ _ rfl).trans (cr0Bits_getLsbD s.pg)⟩
  · obtain ⟨hpse, hpae, hpge⟩ := cr4Bits_getLsbD s.cr4
    exact ⟨_, execMovR32Cr_ok (k := 4) (readCr_cr4 (c := Ctx.start s) h0), (withDrawn_getLsbD _ _ _ rfl).trans hpse,
      (withDrawn_getLsbD _ _ _ rfl).trans hpae, (withDrawn_getLsbD _ _ _ rfl).trans hpge⟩

/-! The accumulator and the stack. -/

theorem loadAccumulator_off {a32 : Bool} {off : Dword} {n : Nat}
    (h : c.cur.flatMemReadable (c.cur.operandSeg false) (narrowOffset a32 off) n) :
    loadAccumulator a32 off n c =
      .ok (c.onCur (·.setRegLow 0 n (leValue 32 (c.cur.flatMemBytes (c.cur.operandSeg false) (narrowOffset a32 off) n)))) :=
  bind_ok (memRead_off h)

/-- Settles O51: the offset is narrowed as R226 gives it, and the access is one logical read or write. -/
theorem moffsMovesComplete : Obligations.MoffsMovesComplete := by
  rintro s a32 off _ _ rfl rfl
  exact ⟨fun h => runQuiet_ok (loadAccumulator_off (c := Ctx.start s) h),
    fun h => runQuiet_ok (loadAccumulator_off (c := Ctx.start s) h),
    runQuiet_memWrite_off (leBytes_length _ _), runQuiet_memWrite_off (leBytes_length _ _)⟩

theorem flatPushed_other (s : State) {n : Nat} {bs : List Byte} (hl : bs.length = n) {a : Nat}
    (ha : outside (s.segs.ss.h.base + s.pushOffset n) n a) : (s.flatPushed bs).mem.read a = s.mem.read a := by
  subst hl
  exact flatMemStore_other s .ss _ rfl ha

theorem execPopR32_off (r : BitVec 3) (h : s.flatPoppable s.operandBytes) :
    execPopR32 r s = .next (((s.popped s.operandBytes).setRegLow r s.operandBytes
      (leValue 32 (s.flatPopBytes s.operandBytes))).finish .none) :=
  runQuiet_completes (bind_ok (spop_off (c := Ctx.start s) h)) rfl

theorem execPushR32_off (r : BitVec 3) (h : s.flatPushable s.operandBytes) :
    execPushR32 r s = .next ((s.flatPushed (leBytes s.operandBytes (s.reg r))).finish .none) := by
  rw [← leBytes_length s.operandBytes (s.reg r)] at h
  exact runQuiet_completes (spush_off (c := Ctx.start s) h) rfl

/-- Settles O52: SPUSH of the register, and SPOP into it. -/
theorem pushPopComplete : Obligations.PushPopComplete := by
  rintro s r n rfl
  exact ⟨fun h => ⟨_, execPushR32_off r h, rfl, fun a => flatPushed_other s (leBytes_length _ _)⟩, execPopR32_off r⟩

end Sys2Proof.Machine
end

section
/-! The operations on segment and table registers (spec/40_segment_register_ops.md R190 to R195, R197): a null selector, the checks
of a fetched descriptor in their order, the loads that complete, and the accessed bit. -/

namespace Sys2Proof.Machine

variable {c : Ctx} {s : State}

/-! Null selectors. -/

theorem ldseg_null {sel : Selector} (r : SReg) (hn : isNull sel = true) : ldseg r sel c = .ok (c.onCur (·.nullLoaded r sel)) :=
  if_pos hn

theorem ldss_null {sel : Selector} (hn : isNull sel = true) : ldss sel c = .error (.fault (.generalProtection 0 c.kept)) :=
  if_pos hn

theorem ldcs_null {sel : Selector} (hn : isNull sel = true) : ldcs sel c = .error (.fault (.generalProtection 0 c.kept)) :=
  if_pos hn

/-- Settles O17: a null selector is answered before any fetch. -/
theorem nullLoads : Obligations.NullLoads := fun _ s hn =>
  ⟨fun r _ => runQuiet_ok (ldseg_null (c := Ctx.start s) r hn), runQuiet_fault (ldss_null (c := Ctx.start s) hn),
    runQuiet_fault (ldcs_null (c := Ctx.start s) hn)⟩

/-- Settles O21: RDSEL's body is one reading of the register, from the state the operation begins in. -/
theorem rdselReads : Obligations.RdselReads := by
  intro r s
  show execRdsel r s = _
  unfold execRdsel
  exact runOp_ok (c := Ctx.start s) rfl

/-! The checks of a load, paging on or off, once its descriptor is fetched. -/

section Fetched
variable {sel : Selector} {d : Descriptor} {e : Ctx}

theorem ldseg_of_fetched (r : SReg) (hn : isNull sel = false) (h : fetchDescriptor sel c = .ok (d, e)) :
    ldseg r sel c =
      if dataLoadOk e.cur.cpl sel d = false then raise (.generalProtection (selCode sel)) e
      else if d.p = false then raise (.segmentNotPresent (selCode sel)) e
      else setAccessed sel d e >>= fun f => .ok (f.loadSeg r sel d) := by
  unfold ldseg
  rw [hn, bind_ok h]
  simp

theorem ldss_of_fetched (hn : isNull sel = false) (h : fetchDescriptor sel c = .ok (d, e)) :
    ldss sel c =
      if stackLoadOk e.cur.cpl sel d = false then raise (.generalProtection (selCode sel)) e
      else if d.p = false then raise (stackNotPresent e.cur.platform.ssNotPresent (selCode sel)) e
      else setAccessed sel d e >>= fun f => .ok (f.loadSeg .ss sel d) := by
  unfold ldss
  rw [hn, bind_ok h]
  simp

theorem ldcs_of_fetched (hn : isNull sel = false) (h : fetchDescriptor sel c = .ok (d, e)) :
    ldcs sel c =
      if d.s = false then refuse .gateOrTss
      else if codeLoadOk e.cur.cpl sel d = false then raise (.generalProtection (selCode sel)) e
      else if d.p = false then raise (.segmentNotPresent (selCode sel)) e
      else setAccessed sel d e >>= fun f => .ok (f.loadSeg .cs (codeSelector f.cur.cpl sel) d) := by
  unfold ldcs
  rw [hn, bind_ok h]
  simp

theorem lldtr_of_fetched (hcpl : c.cur.cpl = 0#2) (hn : isNull sel = false) (hti : selTI sel = false)
    (h : fetchDescriptor sel c = .ok (d, e)) :
    lldtr sel c =
      if d.s = true ∨ d.typ ≠ 2#4 then raise (.generalProtection (selCode sel)) e
      else if d.p = false then raise (.segmentNotPresent (selCode sel)) e
      else .ok (e.onCur fun s => { s with ldtr := { sel := sel, h := d.cachedLdt } }) := by
  unfold lldtr loadLdtr
  rw [bind_ok (requireLevel0_ok hcpl), hn, hti, bind_ok h]
  simp

end Fetched

/-- LDSS of a stack segment that is not present, in the words of `SS_NP_EXC` (R191). -/
theorem runQuiet_stackNotPresent {f : Ctx → Except Stop Ctx} {code : BitVec 16}
    (h : f (Ctx.start s) = raise (stackNotPresent s.platform.ssNotPresent code) (Ctx.start s)) :
    runQuiet f s = match s.platform.ssNotPresent with
      | .np => .fault (.segmentNotPresent code s)
      | .ss => .fault (.stackFault code s) := by
  rw [runQuiet_fault h]
  cases s.platform.ssNotPresent <;> rfl

/-- Settles O18: with paging off the fetch changes nothing, and each clause is one branch of the checks that follow it. -/
theorem loadFaultOrder : Obligations.LoadFaultOrder := by
  intro sel s hn hfetchable
  have hfetch := fetchDescriptor_off (c := Ctx.start s) hfetchable
  have hss := ldss_of_fetched hn hfetch
  have hcs := ldcs_of_fetched hn hfetch
  refine ⟨fun r _ => ⟨fun hbad => ?_, fun hok hp => ?_⟩, fun hbad => ?_, fun hok hp => ?_, fun hsys => ?_, fun hseg hbad => ?_,
    fun hseg hok hp => ?_, fun h0 hti hbad => ?_, fun h0 hti hsys htyp hp => ?_⟩
  · exact runQuiet_fault ((ldseg_of_fetched r hn hfetch).trans (if_pos hbad))
  · exact runQuiet_fault ((ldseg_of_fetched r hn hfetch).trans ((if_neg (by simp [hok])).trans (if_pos hp)))
  · exact runQuiet_fault (hss.trans (if_pos hbad))
  · exact runQuiet_stackNotPresent (hss.trans ((if_neg (by simp [hok])).trans (if_pos hp)))
  · exact runQuiet_ref (hcs.trans (if_pos hsys))
  · exact runQuiet_fault (hcs.trans ((if_neg (by simp [hseg])).trans (if_pos hbad)))
  · exact runQuiet_fault (hcs.trans ((if_neg (by simp [hseg])).trans ((if_neg (by simp [hok])).trans (if_pos hp))))
  · exact runQuiet_fault ((lldtr_of_fetched (c := Ctx.start s) h0 hn hti hfetch).trans (if_pos hbad))
  · exact runQuiet_fault ((lldtr_of_fetched (c := Ctx.start s) h0 hn hti hfetch).trans
      ((if_neg (by simp [hsys, htyp])).trans (if_pos hp)))

/-! The table registers. -/

theorem requireLevel0_fault (h : c.cur.cpl ≠ 0#2) : requireLevel0 c = .error (.fault (.generalProtection 0 c.kept)) :=
  if_pos h

/-- Settles O22: the level is checked first, then TI; LLDTR completes as `lldtr_off` says. -/
theorem tableRegisterLoads : Obligations.TableRegisterLoads := by
  refine ⟨fun base limit s => ⟨fun h => ?_, fun h0 => ?_⟩, fun sel s h0 => ⟨fun h => ?_, fun hn hti => ?_⟩⟩
  · exact runQuiet_fault (bind_error (requireLevel0_fault (c := Ctx.start s) h))
  · exact runQuiet_completes (bind_ok (requireLevel0_ok (c := Ctx.start s) h0)) rfl
  · exact runQuiet_ok (lldtr_off (c := Ctx.start s) h0 h)
  · exact runQuiet_fault (lldtr_of_ti (c := Ctx.start s) h0 hn hti)

/-! Loads that complete with paging off. -/

/-- Settles O12: each load as its equation with paging off gives it. -/
theorem loadsComplete : Obligations.LoadsComplete := fun _ s =>
  ⟨fun _ hr h => runQuiet_ok (ldseg_off (c := Ctx.start s) hr h), fun h => runQuiet_ok (ldss_off (c := Ctx.start s) h),
    fun h => runQuiet_ok (ldcs_off (c := Ctx.start s) h)⟩

/-- A loadable selector is loaded by the operation of its register (spec/30_encoding.md R154). -/
theorem exec_loadOf_off {r : SReg} {sel : Selector} (h : s.flatLoadable r sel) :
    exec (loadOf r sel) s = .next ((s.flatLoaded r sel).finish .none) := by
  obtain ⟨hdata, hstack, hcode⟩ := loadsComplete sel s
  have hafter : s.afterLoad r sel = s.flatLoaded r sel := if_neg (by simp [h.notNull])
  cases r with
  | cs => exact hcode h
  | ss => exact hstack h
  | ds | es | fs | gs => exact hafter ▸ hdata _ rfl (.inr h)

/-- Bit 8 of a little-endian double word is bit 0 of its second byte (spec/20_memory.md R76). -/
theorem leValue_getLsbD_8 (b₀ b₁ b₂ b₃ : Byte) : (leValue 32 [b₀, b₁, b₂, b₃]).getLsbD 8 = b₁.getLsbD 0 := by
  simp [leValue]

/-- The accessed bit is bit 0 of the descriptor's sixth byte (R94, R197). -/
theorem isAccessed_flatDescriptor (s : State) (sel : Selector) :
    isAccessed (s.flatDescriptor sel).typ = (s.byteAt (flat (s.descAddr sel + 5))).getLsbD 0 := by
  have hfield (lo hi : Dword) : isAccessed (decodeDescriptor lo hi).typ = hi.getLsbD 8 := by
    simp [isAccessed, decodeDescriptor]
  have haddr : s.descAddr sel + 5 = s.descAddr sel + 4 + 1 := by rw [BitVec.add_assoc]; rfl
  rw [haddr]
  exact (hfield _ _).trans (leValue_getLsbD_8 _ _ _ _)

theorem or_one_of_getLsbD_0 {b : Byte} (h : b.getLsbD 0 = true) : b ||| 1 = b := by
  revert b; decide

theorem flatMark_other (s : State) (sel : Selector) {a : Nat} (ha : outside (s.descAddr sel + 5) 1 a) :
    (s.flatMark sel).mem.read a = s.mem.read a := by
  unfold State.flatMark
  split
  · rfl
  · exact flatStore_other _ _ s a ha

/-- In canonical memory the sixth byte of the descriptor has its accessed bit, whether it was set before or is now (R197). -/
theorem flatMark_byte (s : State) (sel : Selector) (w : s.mem.wf = true) :
    (s.flatMark sel).byteAt (flat (s.descAddr sel + 5)) = s.byteAt (flat (s.descAddr sel + 5)) ||| 1 := by
  unfold State.flatMark
  split
  · rename_i hset
    rw [isAccessed_flatDescriptor] at hset
    exact (or_one_of_getLsbD_0 hset).symm
  · exact State.byteAt_write_same s _ _ w

/-- Settles O13: the state after a load holds the memory that `flatMark` leaves. -/
theorem loadMarksAccessed : Obligations.LoadMarksAccessed := fun s _ sel h w =>
  ⟨_, exec_loadOf_off h, fun _ ha => flatMark_other s sel ha, flatMark_byte s sel w⟩

end Sys2Proof.Machine
end

section
/-! The memory accesses of a program with paging off (spec/41_memory_access_ops.md R220 to R227): MREAD, MWRITE, MFETCH, SPUSH and
SPOP on memory, a byte at each kind of physical address, and the size prefixes. -/

namespace Sys2Proof.Machine

variable {c : Ctx} {s : State}

/-! Reads. -/

theorem valueOf_flatMemBytes (s : State) (r : SReg) (off : Dword) (n : Nat) :
    valueOf (s.flatMemBytes r off n) = .value n (leValue 32 (s.flatMemBytes r off n)) := by
  rw [valueOf, State.flatMemBytes, flatBytes_length]

theorem execMread_off {r : SReg} {off : Dword} {n : Nat} (h : s.flatMemReadable r off n) :
    execMread r off n s = .next (s.finish (.value n (leValue 32 (s.flatMemBytes r off n)))) := by
  rw [← valueOf_flatMemBytes]
  exact execMread_ok (memRead_off (c := Ctx.start s) h)

theorem execMfetch_off {off : Dword} {n : Nat} (hp : s.pg = false) (hc : segCheck .cs s.segs.cs.h off n .exec = true)
    (hm : s.flatReadable (s.segs.cs.h.base + off) n) :
    execMfetch off n s = .next (s.finish (.bytes (s.flatBytes (s.segs.cs.h.base + off) n))) :=
  runOp_completes ((bind_ok (logicalToLinear_ok (r := .cs) (c := Ctx.start s) hc)).trans
    (bind_ok (fetchBytes_off (c := Ctx.start s) s.level n _ hp hm))) rfl

/-- Settles O26: one logical read, and a fetch byte by byte. -/
theorem readsComplete : Obligations.ReadsComplete := fun _ _ _ => ⟨fun _ => execMread_off, execMfetch_off⟩

/-! Stores. -/

theorem flatMemStore_finish_eq (s : State) (r : SReg) (off : Dword) (bs : List Byte) (v : Result) :
    (s.flatMemStore r off bs).finish v = { s with mem := (s.flatMemStore r off bs).mem, result := v, pfx := Pending.none } := by
  conv_lhs => rw [State.flatMemStore, flatStore_eq]
  rfl

/-- Settles O27: one logical store, which moves memory alone. -/
theorem mwriteCompletes : Obligations.MwriteCompletes := by
  intro r off n v s h
  obtain ⟨t, hrun, rfl, hother⟩ := runQuiet_memWrite_off (leBytes_length n v) h
  exact ⟨_, hrun, rfl, flatMemStore_finish_eq s r off _ .none, hother⟩

/-! The stack. -/

theorem execSpush_off {n : Nat} (v : Dword) (h : s.flatPushable n) :
    execSpush n v s = .next ((s.flatPushed (leBytes n v)).finish .none) := by
  rw [← leBytes_length n v] at h
  exact runQuiet_ok (spush_off (c := Ctx.start s) h)

theorem execSpop_off {n : Nat} (h : s.flatPoppable n) :
    execSpop n s = .next ((s.popped n).finish (.value n (leValue 32 (s.flatPopBytes n)))) := by
  rw [State.flatPopBytes, ← valueOf_flatMemBytes]
  exact runOp_completes (bind_ok (spop_off (c := Ctx.start s) h)) rfl

theorem flatPushed_finish_eq (s : State) {n : Nat} {bs : List Byte} (hl : bs.length = n) (v : Result) :
    (s.flatPushed bs).finish v =
      { s with mem := (s.flatPushed bs).mem, esp := s.pushedEsp n, result := v, pfx := Pending.none } := by
  subst hl
  conv_lhs => rw [flatPushed_eq]
  rfl

/-- Settles O28: a push is one store below the stack pointer, and a pop one read at it. -/
theorem stackCompletes : Obligations.StackCompletes := fun n s =>
  ⟨fun h v => ⟨_, execSpush_off v h, rfl, flatPushed_finish_eq s (leBytes_length n v) .none,
    fun _ ha => flatPushed_other s (leBytes_length n v) ha⟩, execSpop_off⟩

/-! A pop after a push. -/

theorem flatStore_setEsp (la : Linear) (bs : List Byte) (s : State) (v : Dword) :
    (s.flatStore la bs).setEsp v = (s.setEsp v).flatStore la bs := by
  induction bs generalizing la s with
  | nil => rfl
  | cons b bs ih => exact ih (la + 1) (s.setMem (s.mem.write (flat la).toNat b))

/-- A push is the store of its bytes in the state that has its stack pointer. -/
theorem flatPushed_eq_store (s : State) (bs : List Byte) :
    s.flatPushed bs = (s.setEsp (s.pushedEsp bs.length)).flatMemStore .ss (s.pushOffset bs.length) bs :=
  flatStore_setEsp _ bs s _

/-- The stack pointer after a push points at what was pushed (R223, R224). -/
theorem popOffset_pushedEsp (s : State) (n : Nat) : (s.setEsp (s.pushedEsp n)).popOffset = s.pushOffset n := by
  unfold State.popOffset State.pushOffset State.pushedEsp
  rw [State.setEsp_segs, State.setEsp_esp]
  split
  · rfl
  · exact congrArg (BitVec.setWidth 32) BitVec.extractLsb'_append_eq_right

/-- A pop of as many bytes undoes a push's move of the stack pointer, modulo 2^32 or 2^16 (R223, R224). -/
theorem poppedEsp_pushedEsp (s : State) (n : Nat) : (s.setEsp (s.pushedEsp n)).poppedEsp n = s.esp := by
  unfold State.poppedEsp State.pushedEsp
  rw [State.setEsp_segs, State.setEsp_esp]
  split
  · exact BitVec.sub_add_cancel s.esp _
  · rw [BitVec.extractLsb'_append_eq_left, BitVec.extractLsb'_append_eq_right, BitVec.sub_add_cancel]
    exact BitVec.extractLsb'_append_extractLsb'

section AfterPush
variable {n : Nat} {bs : List Byte} (hl : bs.length = n) (v : Result)
include hl

theorem popOffset_flatPushed (s : State) : ((s.flatPushed bs).finish v).popOffset = s.pushOffset n := by
  rw [flatPushed_finish_eq s hl]
  exact popOffset_pushedEsp s n

theorem popped_flatPushed (s : State) :
    ((s.flatPushed bs).finish v).popped n = { (s.flatPushed bs).finish v with esp := s.esp } := by
  have hesp : ((s.flatPushed bs).finish v).poppedEsp n = s.esp := by
    rw [flatPushed_finish_eq s hl]
    exact poppedEsp_pushedEsp s n
  rw [State.popped, hesp]
  rfl

/-- The bytes popped are the bytes pushed. -/
theorem flatPopBytes_flatPushed (w : s.mem.wf = true) (hn : n < 2 ^ 32) :
    ((s.flatPushed bs).finish v).flatPopBytes n = bs := by
  rw [State.flatPopBytes, popOffset_flatPushed hl, flatPushed_eq_store]
  subst hl
  exact (flatMemBytes_flatMemStore (s := s.setEsp (s.pushedEsp bs.length)) w hn (Nat.le_refl _) v).trans List.take_length

/-- Where a push completes, so does the pop of as many bytes. -/
theorem flatPoppable_flatPushed (hn : 0 < n) (h : s.flatPushable n) : ((s.flatPushed bs).finish v).flatPoppable n := by
  rw [State.flatPoppable, popOffset_flatPushed hl, flatPushed_eq_store]
  subst hl
  exact flatMemReadable_flatMemStore (s := s.setEsp (s.pushedEsp bs.length)) ⟨h.pagingOff, h.check, h.memory⟩ hn
    (Nat.le_refl _) v

end AfterPush

/-- Settles O31: the pop reads where the push stored, and moves the stack pointer back. -/
theorem popAfterPush : Obligations.PopAfterPush := by
  intro n v s t hw hn hfits h ht
  have hl := leBytes_length n v
  have hvalue : leValue 32 (leBytes n v) = v := leValue_leBytes_of_lt (by omega) (of_decide_eq_true hfits)
  obtain rfl := Host.Outcome.next.inj (ht.symm.trans (execSpush_off v h))
  have hpop := execSpop_off (flatPoppable_flatPushed hl .none (by omega) h)
  rw [flatPopBytes_flatPushed hl .none hw (by omega), hvalue, popped_flatPushed hl] at hpop
  exact hpop

/-! A byte at each kind of physical address. -/

theorem linWrite_byte_off (la : Linear) (b : Byte) (lvl : Level) (hp : c.cur.pg = false) :
    linWrite la [b] lvl c = physWriteByte (flat la) b c := by
  unfold linWrite
  rw [bind_ok (translateBytes_off _ _ _ _ _ (.inl rfl) hp)]
  exact bind_pure (physWriteByte (flat la) b c)

theorem linRead_byte_off (la : Linear) (lvl : Level) (hp : c.cur.pg = false) :
    linRead la 1 lvl c = (physReadByte (flat la) c >>= fun x => .ok ([x.1], x.2)) :=
  bind_ok (nextXlat_off .read lvl la none (.inl rfl) hp)

section Kinds
variable {pa : PhysAddr}

theorem physWriteByte_readOnly (b : Byte) (h : c.cur.kindAt pa = .readOnly) : physWriteByte pa b c = .ok c := by
  unfold physWriteByte; rw [h]

theorem physWriteByte_io (b : Byte) (h : c.cur.kindAt pa = .io) :
    physWriteByte pa b c = .ok (c.onCur fun s => s.setIoOut (s.ioOut ++ [(pa.toNat, b)])) := by
  unfold physWriteByte; rw [h]

theorem physWriteByte_nothing (b : Byte) (h : c.cur.kindAt pa = .nothing) :
    physWriteByte pa b c = .error (.refused (.unbacked pa)) := by
  unfold physWriteByte; rw [h]; rfl

theorem physReadByte_io (h : c.cur.kindAt pa = .io) :
    physReadByte pa c = .ok (Config.ioByte pa.toNat c.cur.draws, c.tick) := by
  unfold physReadByte; rw [h]

theorem physReadByte_nothing (h : c.cur.kindAt pa = .nothing) : physReadByte pa c = .error (.refused (.unbacked pa)) := by
  unfold physReadByte; rw [h]; rfl

end Kinds

theorem valueOf_singleton (b : Byte) : valueOf [b] = .value 1 (b.setWidth 32) := by
  simp [valueOf, leValue]

/-- Settles O32: one byte written or read at the physical address that the linear address is. -/
theorem physicalKinds : Obligations.PhysicalKinds := by
  intro r off v s hp
  refine ⟨fun hc => ?_, fun hc => ?_⟩
  · have hwrite := (mwrite_checked v hc).trans (linWrite_byte_off (c := Ctx.start s) _ (v.setWidth 8) s.level hp)
    exact ⟨fun hk => runQuiet_ok (hwrite.trans (physWriteByte_readOnly _ hk)),
      fun hk => runQuiet_ok (hwrite.trans (physWriteByte_io _ hk)),
      fun hk => runQuiet_ref (hwrite.trans (physWriteByte_nothing _ hk))⟩
  · have hread := (memRead_checked (c := Ctx.start s) hc).trans (linRead_byte_off _ s.level hp)
    refine ⟨fun hk => ?_, fun hk => execMread_refused (hread.trans (bind_error (physReadByte_nothing hk)))⟩
    have hio := execMread_ok (hread.trans (bind_ok (physReadByte_io hk)))
    rw [valueOf_singleton] at hio
    exact ⟨_, hio⟩

/-! The size prefixes. -/

theorem operandBytes_eq_operandSize_div (s : State) : s.operandBytes = s.operandSize / 8 := by
  unfold State.operandBytes State.operandSize
  cases s.operand32 <;> rfl

theorem narrowOffset_lt (off : Dword) : (narrowOffset false off).toNat < 2 ^ 16 :=
  calc (narrowOffset false off).toNat = (off.setWidth 16).toNat := BitVec.toNat_setWidth_of_le (by decide : 16 ≤ 32)
    _ < 2 ^ 16 := (off.setWidth 16).isLt

theorem effectiveOffset_lt (s : State) {m : MemArg} (h : m.a32 = false) : (s.effectiveOffset m).toNat < 2 ^ 16 := by
  unfold State.effectiveOffset
  rw [h]
  exact narrowOffset_lt _

/-- Settles O33: a 16-bit offset is zero-extended. -/
theorem sizePrefixes : Obligations.SizePrefixes := fun s =>
  ⟨rfl, rfl, rfl, operandBytes_eq_operandSize_div s, rfl, fun _ => effectiveOffset_lt s⟩

end Sys2Proof.Machine
end

section
/-! The operations on control registers (spec/42_paging_control_ops.md R250 to R254), the level checked before anything else, and
MACCESS64 (spec/43_long_mode.md R273). -/

namespace Sys2Proof.Machine

variable {c : Ctx} {s : State}

/-! Writes. -/

/-- R250 empties the TLB where PG changes. -/
theorem setPg_eq (s : State) (b : Bool) : s.setPg b = { s with pg := b, tlb := if b ≠ s.pg then [] else s.tlb } := by
  unfold State.setPg
  rw [ite_not]

/-- R252 keeps the TLB where the flags written are those that stood. -/
theorem setCr4_eq (s : State) (f : Cr4) : s.setCr4 f = { s with cr4 := f, tlb := if s.cr4 = f then s.tlb else [] } := by
  simp only [State.setCr4, eq_comm (a := f)]

/-- A flag that is set and that the processor lacks is what makes a value of CR4 unsupported. -/
theorem cr4Supported_eq_false_iff (p : Platform) (f : Cr4) :
    cr4Supported p f = false ↔
      (f.pse = true ∧ p.hasPSE = false) ∨ (f.pae = true ∧ p.hasPAE = false) ∨ (f.pge = true ∧ p.hasPGE = false) := by
  simp only [cr4Supported, Bool.and_eq_false_iff, Bool.or_eq_false_iff, Bool.not_eq_false', or_assoc]

theorem writeCr4_unsupported {v : Dword} (h0 : c.cur.cpl = 0#2) (h : cr4Supported c.cur.platform (cr4Of v) = false) :
    writeCr4 v c = .error (.fault (.generalProtection 0 c.kept)) :=
  (bind_ok (requireLevel0_ok h0)).trans (if_neg (Bool.eq_false_iff.mp h))

/-- Every write checks the level before it looks at its value. -/
theorem writeCr_above_level0 (k : Nat) (v : Dword) (h : c.cur.cpl ≠ 0#2) :
    writeCr k v c = .error (.fault (.generalProtection 0 c.kept)) := by
  unfold writeCr
  split
  · exact bind_error (requireLevel0_fault h)
  · split
    · exact bind_error (requireLevel0_fault h)
    · exact bind_error (requireLevel0_fault h)

/-- Settles O41: each write is the check of the level and one change, and WRCR4's two outcomes are those of `cr4Supported`. -/
theorem controlRegisterWrites : Obligations.ControlRegisterWrites := by
  have habove {s : State} (k : Nat) (v : Dword) (h : s.cpl ≠ 0#2) : runQuiet (writeCr k v) s = .fault (.generalProtection 0 s) :=
    runQuiet_fault (writeCr_above_level0 (c := Ctx.start s) k v h)
  refine ⟨fun v s => ⟨habove 0 v, fun h0 => ?_⟩, fun v s => ⟨habove 3 v, fun h0 => ?_⟩,
    fun v s => ⟨habove 4 v, fun h0 => ⟨fun hlacks => ?_, fun hlacks => ?_⟩⟩⟩
  · exact runQuiet_completes (bind_ok (requireLevel0_ok (c := Ctx.start s) h0)) (setPg_eq s _)
  · exact runQuiet_completes (bind_ok (requireLevel0_ok (c := Ctx.start s) h0)) rfl
  · exact runQuiet_fault (writeCr4_unsupported (c := Ctx.start s) h0 ((cr4Supported_eq_false_iff _ _).mpr hlacks))
  · have hsupported := Bool.of_not_eq_false (mt (cr4Supported_eq_false_iff s.platform (cr4Of v)).mp hlacks)
    exact runQuiet_completes (writeCr4_level0 (c := Ctx.start s) h0 hsupported) (setCr4_eq s (cr4Of v))

/-! Reads. -/

theorem readCr_above_level0 (k : Nat) (h : c.cur.cpl ≠ 0#2) :
    readCr k c = .error (.fault (.generalProtection 0 c.kept)) :=
  bind_error (requireLevel0_fault h)

theorem execRdcr_ok {k : Nat} {v : Dword} (h : readCr k (Ctx.start s) = .ok (v, c)) :
    execRdcr k s = .next (c.cur.finish (.value 4 v)) :=
  runOp_completes (bind_ok h) rfl

theorem execRdcr_fault {k : Nat} {x : Fault} (h : readCr k (Ctx.start s) = .error (.fault x)) : execRdcr k s = .fault x :=
  runOp_fault (bind_error h)

/-- Settles O42: the masks of `readCr` hold the flags that R253 gives, so the drawn value shows in the other bits alone. -/
theorem rdcrReads : Obligations.RdcrReads := by
  refine fun s => ⟨fun h k => ?_, fun h0 => ⟨execRdcr_ok (readCr_cr3 (c := Ctx.start s) h0), ?_, ?_⟩⟩
  · exact execRdcr_fault (readCr_above_level0 (c := Ctx.start s) k h)
  · exact ⟨_, execRdcr_ok (readCr_cr0 (c := Ctx.start s) h0), (withDrawn_getLsbD _ _ _ rfl).trans (cr0Bits_getLsbD s.pg)⟩
  · obtain ⟨hpse, hpae, hpge⟩ := cr4Bits_getLsbD s.cr4
    exact ⟨_, execRdcr_ok (readCr_cr4 (c := Ctx.start s) h0), (withDrawn_getLsbD _ _ _ rfl).trans hpse,
      (withDrawn_getLsbD _ _ _ rfl).trans hpae, (withDrawn_getLsbD _ _ _ rfl).trans hpge⟩

/-! The operations that never complete. -/

theorem maccess64_nonCanonical {va : BitVec 64} (h : isCanonical c.cur.platform.vaBits va = false) :
    maccess64 va c = .error (.fault (.nonCanonical c.cur.platform.nonCanonical c.kept)) :=
  if_neg (Bool.eq_false_iff.mp h)

theorem maccess64_canonical {va : BitVec 64} (h : isCanonical c.cur.platform.vaBits va = true) :
    maccess64 va c = .error (.refused .longModeTranslation) :=
  if_pos h

/-- Settles O43: TASKSW's refusal is one state, the TLB flushed as R251 flushes it; MACCESS64 has the two outcomes of its check. -/
theorem operationsThatStop : Obligations.OperationsThatStop :=
  ⟨fun _ => rfl, fun _ _ s => ⟨fun h => runOp_fault (maccess64_nonCanonical (c := Ctx.start s) h),
    fun h => runOp_ref (maccess64_canonical (c := Ctx.start s) h)⟩⟩

end Sys2Proof.Machine
end

section
/-! Canonical form of a 64-bit virtual address (spec/43_long_mode.md R271, R272), for every number of implemented bits. -/

namespace Sys2Proof.Machine

theorem isCanonical_iff (w : Nat) (va : BitVec 64) : isCanonical w va = true ↔ va = (va.setWidth w).signExtend 64 :=
  beq_iff_eq

section Implemented
variable {w : Nat} (hw : w ≤ 64) (va : BitVec 64)

/-- The sign that the extension copies is the topmost implemented bit. -/
theorem msb_implemented (hpos : 0 < w) : (va.setWidth w).msb = va.getLsbD (w - 1) := by
  rw [BitVec.msb_setWidth, decide_eq_true hpos, Bool.true_and]

/-- The implemented bits, and 2^64 - 2^w more where their sign is set. -/
theorem toNat_signExtend_implemented :
    ((va.setWidth w).signExtend 64).toNat =
      va.toNat % 2 ^ w + if 2 ^ (w - 1) ≤ va.toNat % 2 ^ w then 2 ^ 64 - 2 ^ w else 0 := by
  have hlow : va.toNat % 2 ^ w < 2 ^ 64 := (Nat.mod_le _ _).trans_lt va.isLt
  simp only [BitVec.toNat_signExtend, BitVec.msb_eq_decide, BitVec.toNat_setWidth, Nat.mod_eq_of_lt hlow, decide_eq_true_eq]

include hw

/-- An address is its bits above the implemented ones, and those below. -/
theorem toNat_eq_high_append_low : va.toNat = (va.extractLsb' w (64 - w) ++ va.setWidth w).toNat := by
  rw [BitVec.setWidth_eq_extractLsb' hw, BitVec.extractLsb'_append_extractLsb'_eq_extractLsb' (Nat.zero_add w).symm,
    BitVec.extractLsb'_toNat, Nat.shiftRight_zero, Nat.sub_add_cancel hw, Nat.mod_eq_of_lt va.isLt]

/-- The bits above the implemented ones are copies of the topmost implemented bit. -/
theorem isCanonical_iff_high_copies (hpos : 0 < w) :
    isCanonical w va = true ↔
      va.extractLsb' w (64 - w) = if va.getLsbD (w - 1) then BitVec.allOnes (64 - w) else 0#(64 - w) := by
  rw [isCanonical_iff, ← BitVec.toNat_inj, BitVec.signExtend_eq_append_of_le hw, BitVec.toNat_cast,
    toNat_eq_high_append_low hw, BitVec.toNat_inj, BitVec.append_left_inj, msb_implemented va hpos]

/-- An address in the topmost 2^w bytes has its offset there as its implemented bits. -/
theorem toNat_mod_of_top (htop : 2 ^ 64 - 2 ^ w ≤ va.toNat) : va.toNat % 2 ^ w = va.toNat - (2 ^ 64 - 2 ^ w) := by
  have hva := va.isLt
  have hpow := Nat.two_pow_pos w
  obtain ⟨k, hbase⟩ : 2 ^ w ∣ 2 ^ 64 - 2 ^ w := Nat.dvd_sub (Nat.pow_dvd_pow 2 hw) (Nat.dvd_refl _)
  rw [← Nat.sub_mul_mod (hbase ▸ htop), ← hbase]
  exact Nat.mod_eq_of_lt (by omega)

/-- Half of the values of the implemented bits lie at the bottom of the 64-bit space, and half at its top (R272). -/
theorem isCanonical_iff_halves (hpos : 0 < w) :
    isCanonical w va = true ↔ va.toNat < 2 ^ (w - 1) ∨ 2 ^ 64 - 2 ^ (w - 1) ≤ va.toNat := by
  have hhalf : 2 ^ w = 2 * 2 ^ (w - 1) := (mul_pow_sub_one hpos.ne' 2).symm
  have hspace : 2 ^ w ≤ 2 ^ 64 := Nat.pow_le_pow_right (by decide) hw
  rw [isCanonical_iff, ← BitVec.toNat_inj, toNat_signExtend_implemented]
  constructor
  · intro heq
    have hlow : va.toNat % 2 ^ w < 2 ^ w := Nat.mod_lt _ (Nat.two_pow_pos w)
    split at heq
    · exact .inr (by omega)
    · exact .inl (by omega)
  · rintro (hbottom | htop)
    · have hmod : va.toNat % 2 ^ w = va.toNat := Nat.mod_eq_of_lt (by omega)
      rw [hmod, if_neg (by omega), Nat.add_zero]
    · have hmod := toNat_mod_of_top hw va (by omega)
      have hva := va.isLt
      rw [if_pos (by omega)]
      omega

end Implemented

/-- Settles O8: 48 bits are implemented, and 16 lie above them. -/
theorem canonicalRanges : Obligations.CanonicalRanges := fun va =>
  ⟨(isCanonical_iff_halves (w := 48) (by decide) va (by decide)).trans (by omega),
    isCanonical_iff_high_copies (w := 48) (by decide) va (by decide)⟩

end Sys2Proof.Machine
end

section
/-! The schedule around an exception (spec/60_exceptions.md R299, R300): what is decoded next depends on the schedule, CS and the
pending prefixes alone, and an exception leaves all three. -/

namespace Sys2Proof.Machine

/-- An instruction comes next where the schedule's next event is an item that decodes to it. -/
theorem nextOf_run {s : State} {i : Instr} {rest : List Event} (h : nextOf s = .run i rest) :
    ∃ (item : Item) (q : List Event) (items : List Item), s.queue = .processor item :: q ∧
      decodeItem s.address32 item = .ok (i, items) ∧ rest = items.map Event.processor ++ q := by
  unfold nextOf at h
  split at h
  · cases h
  · cases h
  · cases h
  · rename_i item q hq
    split at h
    · rename_i j items hd
      cases h
      exact ⟨item, q, items, hq, hd, rfl⟩
    · cases h

/-- The same schedule under the same address size runs the same instruction. -/
theorem nextOf_run_of_eq {s t : State} {i : Instr} {rest : List Event} (h : nextOf s = .run i rest) (hq : t.queue = s.queue)
    (ha : t.address32 = s.address32) : nextOf t = .run i rest := by
  obtain ⟨item, q, items, hs, hd, rfl⟩ := nextOf_run h
  exact nextOf_decoded (hq.trans hs) (ha ▸ hd)

/-- An instruction that comes next is well-formed, since the decoder accepted it. -/
theorem nextOf_run_wf {s : State} {i : Instr} {rest : List Event} (h : nextOf s = .run i rest) : i.wf = true := by
  obtain ⟨item, _, items, _, hd, _⟩ := nextOf_run h
  exact (decodedIsWellFormed _ item i items hd).1

/-- No quiet change moves the address size. -/
theorem Quiet.address32 {s t : State} (h : Quiet s t) : t.address32 = s.address32 := by
  obtain ⟨hsegs, _, _, _, _, _, _, _, hpfx, _⟩ := h.fields
  simp only [State.address32, State.seg, hsegs, hpfx]

theorem Quiet.queue {s t : State} (h : Quiet s t) : t.queue = s.queue := by rw [h.rest]

/-- A step raises an exception where the instruction that comes next raises it. -/
theorem step_fault_cases {s : State} {x : Fault} (h : step s = .fault x) :
    ∃ (i : Instr) (rest : List Event), nextOf s = .run i rest ∧ exec i s = .fault x := by
  unfold step at h
  split at h
  · rename_i i rest hn
    refine ⟨i, rest, hn, ?_⟩
    cases he : exec i s with
    | fault y => rw [he] at h; cases h; rfl
    | next _ | refused _ => rw [he] at h; cases h
  · cases h
  · cases h

/-- Settles O11: the state an exception leaves has the schedule and the address size that stood before it. -/
theorem faultRestarts : Obligations.FaultRestarts := by
  intro s x h
  obtain ⟨i, rest, hn, hx⟩ := step_fault_cases h
  have hleft : Quiet s x.left := (exec_fault_grown hx).quiet
  exact ⟨i, rest, hn, nextOf_run_of_eq hn hleft.queue hleft.address32⟩

end Sys2Proof.Machine
end

section
/-! The descriptor-table registers and the control registers above level 0 (spec/60_exceptions.md R304; spec/30_encoding.md R159):
of the effects an instruction has, only a level 0 one moves them, and the instructions that would move or read them check the level
before anything else. -/

namespace Sys2Proof.Machine

theorem Quiet.sameSystem {s t : State} (h : Quiet s t) : sameSystem s t := by
  obtain ⟨_, hgdtr, hldtr, hpg, hcr3, hcr4, _⟩ := h.fields
  exact ⟨hgdtr, hldtr, hpg, hcr3, hcr4⟩

theorem Moved.sameSystem {r : SReg} {s t : State} (h : Moved r s t) : sameSystem s t := by
  obtain ⟨hgdtr, hldtr, hpg, hcr3, hcr4, _⟩ := h.fields
  exact ⟨hgdtr, hldtr, hpg, hcr3, hcr4⟩

/-- Above level 0 an instruction's effect is a quiet change or a load of a segment register. -/
theorem Effect.sameSystem {o : Option SReg} {s t : State} (h : Effect s o t) (hcpl : s.cpl ≠ 0#2) : sameSystem s t := by
  cases h with
  | quiet h => exact h.sameSystem
  | load h => exact h.sameSystem
  | system h0 _ _ => exact absurd h0 hcpl

theorem Completed.sameSystem {o : Option SReg} {s t : State} (h : Completed o s t) (hcpl : s.cpl ≠ 0#2) : sameSystem s t := by
  obtain ⟨_, _, _, hu, rfl⟩ := h
  exact hu.sameSystem hcpl

/-- The other agents move no register. -/
theorem nextOf_agent_sameSystem {s t : State} (h : nextOf s = .agent t) : sameSystem s t := by
  obtain ⟨pa, b, _, rfl⟩ | ⟨_, _, rfl⟩ := nextOf_agent h
  · exact (s.environmentWrite_quiet pa b).sameSystem
  · exact ⟨rfl, rfl, rfl, rfl, rfl⟩

theorem step_sameSystem {s t : State} (hcpl : s.cpl ≠ 0#2) (h : step s = .next t) : sameSystem s t := by
  obtain ⟨_, _, _, hn, hu, rfl⟩ | hn := step_next_cases h
  · exact (exec_completed (nextOf_run_wf hn) hu).sameSystem hcpl
  · exact nextOf_agent_sameSystem hn

/-! The privileged instructions whose other outcomes stand elsewhere. -/

section AboveLevel0
variable {s : State} (hcpl : s.cpl ≠ 0#2)
include hcpl

theorem execLldtr_above_level0 (sel : Selector) : execLldtr sel s = .fault (.generalProtection 0 s) :=
  runQuiet_fault (bind_error (requireLevel0_fault (c := Ctx.start s) hcpl))

theorem execLgdt_above_level0 (m : MemArg) : execLgdt m s = .fault (.generalProtection 0 s) :=
  runQuiet_fault (bind_error (requireLevel0_fault (c := Ctx.start s) hcpl))

theorem execLldt_above_level0 (src : RM) : execLldt src s = .fault (.generalProtection 0 s) :=
  runQuiet_fault (bind_error (requireLevel0_fault (c := Ctx.start s) hcpl))

theorem execMovCrR32_above_level0 (k r : BitVec 3) : execMovCrR32 k r s = .fault (.generalProtection 0 s) :=
  runQuiet_fault (writeCr_above_level0 (c := Ctx.start s) k.toNat (s.reg r) hcpl)

theorem execMovR32Cr_above_level0 (r k : BitVec 3) : execMovR32Cr r k s = .fault (.generalProtection 0 s) :=
  runQuiet_fault (bind_error (readCr_above_level0 (c := Ctx.start s) k.toNat hcpl))

end AboveLevel0

/-- Each of the privileged instructions checks the level first (R304). -/
theorem exec_above_level0 {i : Instr} {s : State} (hcpl : s.cpl ≠ 0#2) (hi : onlyLevel0 i = true) :
    exec i s = .fault (.generalProtection 0 s) := by
  obtain ⟨hlgdtr, _⟩ := tableRegisterLoads
  obtain ⟨hwrcr0, hwrcr3, hwrcr4⟩ := controlRegisterWrites
  cases i with
  | lgdtr base limit => exact (hlgdtr base limit s).1 hcpl
  | lldtr sel => exact execLldtr_above_level0 hcpl sel
  | wrcr0 v => exact (hwrcr0 v s).1 hcpl
  | wrcr3 v => exact (hwrcr3 v s).1 hcpl
  | wrcr4 v => exact (hwrcr4 v s).1 hcpl
  | rdcr k => exact (rdcrReads s).1 hcpl k
  | lgdt m => exact execLgdt_above_level0 hcpl m
  | lldt src => exact execLldt_above_level0 hcpl src
  | movCrR32 k r => exact execMovCrR32_above_level0 hcpl k r
  | movR32Cr r k => exact execMovR32Cr_above_level0 hcpl r k
  | _ => cases hi

/-- Settles O58: an effect that moves the system's registers needs level 0, and the check of the level comes first. -/
theorem systemStateIsPrivileged : Obligations.SystemStateIsPrivileged :=
  ⟨fun _ _ hcpl h => step_sameSystem hcpl h, fun _ _ hcpl hi => exec_above_level0 hcpl hi⟩

end Sys2Proof.Machine
end

section
/-! The invariant of every step (spec/70_reset_and_hazards.md R331 (a) to (e)). What it asks of a segment register is just what a load
leaves there (`loadGood`; spec/40_segment_register_ops.md R190 to R192), so each effect an instruction can have keeps it: a load makes
its own register good and moves no other, and nothing else moves a segment register. -/

namespace Sys2Proof.Machine

/-- Of DS, ES, FS, GS the invariant asks R331 (d) and (e), and a load leaves the same. -/
theorem loadGood_iff_of_isData {r : SReg} (hr : r.isData = true) (cpl : BitVec 2) (v : SegReg) :
    loadGood r cpl v ↔ validIsPresent v.h ∧ (isNull v.sel = true → v.h.valid = false) := by
  have hload : loadGood r cpl v ↔
      v.h.valid = false ∨ (isNull v.sel = false ∧ v.h.valid = true ∧ v.h.p = true ∧ v.h.s = true) := by
    cases r with
    | cs | ss => cases hr
    | ds | es | fs | gs => exact Iff.rfl
  rw [hload]
  cases hvalid : v.h.valid <;> cases isNull v.sel <;> simp [validIsPresent, hvalid]

theorem Inv.loadGood {s : State} (h : Inv s) (r : SReg) : loadGood r s.cpl (s.seg r) := by
  obtain ⟨hcsValid, _, hcsCode⟩ := h.code
  obtain ⟨hssValid, _, hssData⟩ := h.stack
  cases r with
  | cs => exact ⟨h.cpl, hcsValid, (h.present .cs hcsValid).1, (h.present .cs hcsValid).2, hcsCode⟩
  | ss => exact ⟨hssValid, (h.present .ss hssValid).1, (h.present .ss hssValid).2, hssData⟩
  | ds | es | fs | gs => exact (loadGood_iff_of_isData rfl _ _).mpr ⟨h.present _, h.null _ rfl⟩

theorem validIsPresent_of_loadGood {r : SReg} {cpl : BitVec 2} {v : SegReg} (h : loadGood r cpl v) : validIsPresent v.h := by
  cases r with
  | cs =>
    obtain ⟨_, _, hp, hs, _⟩ := h
    exact fun _ => ⟨hp, hs⟩
  | ss =>
    obtain ⟨_, hp, hs, _⟩ := h
    exact fun _ => ⟨hp, hs⟩
  | ds | es | fs | gs => exact ((loadGood_iff_of_isData rfl cpl v).mp h).1

/-- The invariant, register by register. -/
theorem inv_iff_loadGood (s : State) :
    Inv s ↔ s.mem.wf = true ∧ ldtrIsLdt s ∧ ∀ r : SReg, loadGood r s.cpl (s.seg r) := by
  refine ⟨fun h => ⟨h.memory, h.ldt, h.loadGood⟩, fun ⟨hmem, hldt, hgood⟩ => ?_⟩
  obtain ⟨hcpl, hcsValid, _, hcsS, hcsCode⟩ := hgood .cs
  obtain ⟨hssValid, _, hssS, hssData⟩ := hgood .ss
  exact {
    memory := hmem
    cpl := hcpl
    code := ⟨hcsValid, hcsS, hcsCode⟩
    stack := ⟨hssValid, hssS, hssData⟩
    present := fun r => validIsPresent_of_loadGood (hgood r)
    ldt := hldt
    null := fun r hr => ((loadGood_iff_of_isData hr _ _).mp (hgood r)).2 }

section Effects
variable {o : Option SReg} {s t : State}

theorem Effect.wf (h : Effect s o t) (hs : s.mem.wf = true) : t.mem.wf = true := by
  cases h with
  | quiet h => exact h.wf hs
  | load h => exact h.wf hs
  | system _ h _ => exact h.wf hs

theorem Effect.cpl_eq (h : Effect s o t) : t.cpl = s.cpl := by
  cases h with
  | quiet h => exact h.sameLevel.cpl
  | load h => exact h.sameLevel.cpl
  | system _ h _ => exact h.sameLevel.cpl

theorem Effect.ldtrIsLdt (h : Effect s o t) (hs : ldtrIsLdt s) : ldtrIsLdt t := by
  cases h with
  | quiet h =>
    obtain ⟨_, _, hldtr, _⟩ := h.fields
    exact ldtrIsLdt_of_eq hldtr hs
  | load h =>
    obtain ⟨_, hldtr, _⟩ := h.fields
    exact ldtrIsLdt_of_eq hldtr hs
  | system _ _ hldt => exact hldt hs

/-- The register an effect loads is good after it, whatever it held before. -/
theorem Effect.loadGood_loaded {r : SReg} (h : Effect s (some r) t) : loadGood r t.cpl (t.seg r) := by
  rw [h.cpl_eq]
  cases h with
  | load h => exact h.good

theorem Effect.inv (h : Effect s o t) (hs : Inv s) : Inv t := by
  refine (inv_iff_loadGood t).mpr ⟨h.wf hs.memory, h.ldtrIsLdt hs.ldt, fun r => ?_⟩
  by_cases hr : o = some r
  · subst hr
    exact h.loadGood_loaded
  · rw [h.cpl_eq, h.seg_eq hr]
    exact hs.loadGood r

theorem Quiet.inv (h : Quiet s t) (hs : Inv s) : Inv t := (Effect.quiet h).inv hs

/-- The invariant does not speak of prefixes, results or the schedule. -/
theorem Inv.of_bookkeeping (hs : Inv s) (p : Pending) (v : Result) (q : List Event) :
    Inv { s with pfx := p, result := v, queue := q } :=
  ⟨hs.memory, hs.cpl, hs.code, hs.stack, hs.present, hs.ldt, hs.null⟩

theorem Inv.setQueue (hs : Inv s) (q : List Event) : Inv (s.setQueue q) := hs.of_bookkeeping _ _ q

theorem Completed.inv (h : Completed o s t) (hs : Inv s) : Inv t := by
  obtain ⟨u, p, v, hu, rfl⟩ := h
  exact (hu.inv hs).of_bookkeeping p v u.queue

end Effects

theorem State.dropRecord_quiet (s : State) (j : Nat) : Quiet s (s.dropRecord j) := ⟨rfl, id⟩

/-- A write of the environment keeps memory canonical, and no other agent moves a register. -/
theorem nextOf_agent_inv {s t : State} (h : nextOf s = .agent t) (hs : Inv s) : Inv t := by
  obtain ⟨pa, b, q, rfl⟩ | ⟨j, q, rfl⟩ := nextOf_agent h
  · exact ((s.environmentWrite_quiet pa b).inv hs).setQueue q
  · exact ((s.dropRecord_quiet j).inv hs).setQueue q

/-- Settles O55: a step completes an instruction, whose effect keeps the invariant, or another agent moves. -/
theorem stepKeepsInvariant : Obligations.StepKeepsInvariant := by
  intro s t hs h
  obtain ⟨_, rest, _, hn, hu, rfl⟩ | hn := step_next_cases h
  · exact ((exec_completed (nextOf_run_wf hn) hu).inv hs).setQueue rest
  · exact nextOf_agent_inv hn hs

end Sys2Proof.Machine
end
